-- ==== Sys2Proof/Word.lean ====
section
/-! DEFINITION. The number types of 00_scope.md R8: a byte, a `u16`, a 32-bit command or response word.
No value in HFB is signed; arithmetic on a `uN` register wraps modulo 2^N (R8), which is `BitVec`'s arithmetic. -/

namespace Sys2Proof

/-- A byte, an unsigned 8-bit value (R8). -/
abbrev Byte := BitVec 8

/-- A `u16` (R8): CSRs, counters, protocol ids and CRC values are of this width. -/
abbrev U16 := BitVec 16

/-- A command word (R70) or a response word (R74). -/
abbrev Word := BitVec 32

end Sys2Proof
end

