-- ==== Sys2Proof/Config.lean ====
section
/-! DEFINITION. The implementation parameters of HFB (00_scope.md R6, R7). They are fixed at construction and no
command changes them; the model takes them as an argument by carrying them beside the registers in `State`
(notes/assumptions/4.md), so a statement over every state is a statement over every legal `N` and `MTU_MAX`. -/

namespace Sys2Proof

/-- R6: `N`, the number of receive slots, and `MTU_MAX`, the largest payload in bytes a receive slot can hold.
Their legal ranges are checked by `Config.wellFormed` (WellFormed.lean). -/
structure Config where
  nSlots : Nat
  mtuMax : Nat
  deriving DecidableEq, Repr

namespace Config

/-- R6: `SLOT_CAP = MTU_MAX + 2`, the bytes of storage per slot. -/
def slotCap (c : Config) : Nat := c.mtuMax + 2

/-- R6: `TX_LEN_MAX = 65535`, the largest transmit payload in bytes. -/
def txLenMax : Nat := 65535

/-- The example values of R6, `N = 2` and `MTU_MAX = 1492`, which 95_test_vectors.md starts from. Only
`State.reset` uses them (DESIGN CHOICE, notes/assumptions/4.md). -/
def specExample : Config := { nSlots := 2, mtuMax := 1492 }

end Config

end Sys2Proof
end

