-- ==== Sys2Proof/Syntax.lean ====
section
/-! DEFINITION. The thirteen commands of HFB (30_encoding.md R77), one constructor per row of
spec/opcode_table.json, and a command as an agent delivers it: a word and, for TX_START only, a chain. -/

namespace Sys2Proof

/-- R53, R73: the TX_START chain operand, an ordered list of segments, each the list of its valid bytes. -/
abbrev Chain := List (List Byte)

/-- R10: the two agents that issue commands. HFB does not check which one did (R240). -/
inductive Agent where
  | transport
  | host
  deriving DecidableEq, Repr

/-- R77: the commands, with the operands of R71 and R72 at the width of the register each feeds. -/
inductive Instr where
  /-- R120 -/
  | rxByte (b : Byte)
  /-- R166 -/
  | txDone
  /-- R160: the protocol id, and the chain that arrives on the payload port (R73). -/
  | txStart (p : U16) (chain : Chain)
  /-- R190 -/
  | qPop
  /-- R191 -/
  | qHeadProto
  /-- R192 -/
  | qHeadLen
  /-- R193: the byte index into the head slot. -/
  | qHeadByte (i : U16)
  /-- R210: the CSR number. -/
  | regRead (a : Byte)
  /-- R212: the CSR number and the value. -/
  | regWrite (a : Byte) (v : U16)
  /-- R104 -/
  | crcSeed
  /-- R105: the accumulator first, the byte second, as in the assembler syntax of R79. -/
  | crcUpdate (c : U16) (b : Byte)
  /-- R106 -/
  | crcFinal (c : U16)
  /-- R215 -/
  | reset
  deriving DecidableEq, Repr

/-- The "agent" column of R77: who issues the command in normal use. -/
def Instr.agent : Instr → Agent
  | .rxByte _ => .transport
  | .txDone => .transport
  | .txStart _ _ => .host
  | .qPop => .host
  | .qHeadProto => .host
  | .qHeadLen => .host
  | .qHeadByte _ => .host
  | .regRead _ => .host
  | .regWrite _ _ => .host
  | .crcSeed => .host
  | .crcUpdate _ _ => .host
  | .crcFinal _ => .host
  | .reset => .host

/-- A command as it is delivered: who issued it (R10), its word (R70), and what is on the payload port with it
(R73; the empty chain for every command but TX_START). -/
structure Command where
  agent : Agent
  word : Word
  chain : Chain
  deriving DecidableEq, Repr

end Sys2Proof
end

