-- ==== Sys2Proof/WellFormed.lean ====
section
/-! DEFINITION. What must hold of the data the types leave open: the parameter ranges of R6, the reserved bits of
a command word (30_encoding.md R70, R71, R78) and the place of a chain (R70, R73). An operand's width is in its
type, so every term of `Instr` is an instruction; no check is left for it. The reserved-bit check here is written
from the format table R71, the decoder from the match and mask columns of R77: two readings of one encoding. -/

namespace Sys2Proof

/-- R6: `N` in 1..255 and `MTU_MAX` in 0..65533. -/
def Config.wellFormed (c : Config) : Bool :=
  1 ≤ c.nSlots && c.nSlots ≤ 255 && c.mtuMax ≤ 65533

/-- R71: the six formats. -/
inductive Format where
  | fNone
  | fByte
  | fD16
  | fReg
  | fRegw
  | fCrc
  deriving DecidableEq, Repr

/-- R70: the opcode field `OP`, bits [31:28]. -/
def opField (w : Word) : BitVec 4 := w.extractLsb' 28 4

/-- R71, column "used by", with the OP values of R77: the format an opcode selects; none for the reserved
opcodes 0x0, 0xE and 0xF (R78). -/
def formatOf (op : BitVec 4) : Option Format :=
  if op = 0x1 then some .fByte
  else if op = 0x2 then some .fNone
  else if op = 0x3 then some .fD16
  else if op = 0x4 then some .fNone
  else if op = 0x5 then some .fNone
  else if op = 0x6 then some .fNone
  else if op = 0x7 then some .fD16
  else if op = 0x8 then some .fReg
  else if op = 0x9 then some .fRegw
  else if op = 0xA then some .fNone
  else if op = 0xB then some .fCrc
  else if op = 0xC then some .fD16
  else if op = 0xD then some .fNone
  else none

/-- R71: whether every reserved bit of the format is 0. -/
def Format.reservedClear (f : Format) (w : Word) : Bool :=
  match f with
  | .fNone => w.extractLsb' 0 28 == 0
  | .fByte => w.extractLsb' 8 20 == 0
  | .fD16 => w.extractLsb' 16 12 == 0
  | .fReg => w.extractLsb' 8 20 == 0
  | .fRegw => w.extractLsb' 24 4 == 0
  | .fCrc => w.extractLsb' 24 4 == 0

/-- R78: a command word is legal when its OP is not reserved and no reserved bit of its format is 1. -/
def wordLegal (w : Word) : Bool :=
  match formatOf (opField w) with
  | some f => f.reservedClear w
  | none => false

/-- R70, R73: a chain arrives with TX_START (OP 0x3) only. -/
def chainPlaced (w : Word) (chain : Chain) : Bool :=
  opField w == 0x3 || chain.isEmpty

/-- A command as the interface defines it: a legal word, and a chain only where R70 allows one. -/
def Command.wellFormed (c : Command) : Bool :=
  wordLegal c.word && chainPlaced c.word c.chain

end Sys2Proof
end

