-- ==== Sys2Proof/Decode.lean ====
section
/-! DEFINITION. The decoder, from the match and mask columns of 30_encoding.md R77 (the rows of
spec/opcode_table.json), and the encoder, from the formats of R71. Both are total; a word of no row is rejected by
name and the step answers it RC_ILLEGAL (R78). Command words are 32-bit values whose fields are bit ranges and have
no byte order (20_memory.md R55). -/

namespace Sys2Proof

/-- R78: why a word encodes no command. -/
inductive Illegal where
  /-- OP is 0x0, 0xE or 0xF. -/
  | reservedOpcode
  /-- OP is assigned and a reserved bit of its format is 1. -/
  | reservedBit
  deriving DecidableEq, Repr

/-- R72: the field `B`, `A` of the formats F_BYTE and F_REG, bits [7:0]. -/
def field7to0 (w : Word) : Byte := w.extractLsb' 0 8

/-- R72: the 16-bit field of F_D16, F_REGW and F_CRC, bits [15:0]. -/
def field15to0 (w : Word) : U16 := w.extractLsb' 0 16

/-- R72: the field `A` of F_REGW and `B` of F_CRC, bits [23:16]. -/
def field23to16 (w : Word) : Byte := w.extractLsb' 16 8

/-- One row of R77: a word `w` encodes the row's command iff `(w & mask) == pattern`. -/
structure OpcodeRow where
  mask : Word
  pattern : Word
  build : Word → Chain → Instr

/-- R77. -/
def OpcodeRow.matches (r : OpcodeRow) (w : Word) : Bool := w &&& r.mask == r.pattern

/-- The opcode map R77, in its order. -/
def opcodeTable : List OpcodeRow :=
  [ ⟨0xFFFFFF00, 0x10000000, fun w _ => .rxByte (field7to0 w)⟩,
    ⟨0xFFFFFFFF, 0x20000000, fun _ _ => .txDone⟩,
    ⟨0xFFFF0000, 0x30000000, fun w chain => .txStart (field15to0 w) chain⟩,
    ⟨0xFFFFFFFF, 0x40000000, fun _ _ => .qPop⟩,
    ⟨0xFFFFFFFF, 0x50000000, fun _ _ => .qHeadProto⟩,
    ⟨0xFFFFFFFF, 0x60000000, fun _ _ => .qHeadLen⟩,
    ⟨0xFFFF0000, 0x70000000, fun w _ => .qHeadByte (field15to0 w)⟩,
    ⟨0xFFFFFF00, 0x80000000, fun w _ => .regRead (field7to0 w)⟩,
    ⟨0xFF000000, 0x90000000, fun w _ => .regWrite (field23to16 w) (field15to0 w)⟩,
    ⟨0xFFFFFFFF, 0xA0000000, fun _ _ => .crcSeed⟩,
    ⟨0xFF000000, 0xB0000000, fun w _ => .crcUpdate (field15to0 w) (field23to16 w)⟩,
    ⟨0xFFFF0000, 0xC0000000, fun w _ => .crcFinal (field15to0 w)⟩,
    ⟨0xFFFFFFFF, 0xD0000000, fun _ _ => .reset⟩ ]

/-- R78: the name of the rejection of a word that no row matches. -/
def illegalReason (w : Word) : Illegal :=
  match formatOf (opField w) with
  | some _ => .reservedBit
  | none => .reservedOpcode

/-- R77, R78: the command that a word encodes. A chain that arrives with a command other than TX_START is no
operand of it (R70) and is left unread (DESIGN CHOICE, safe: notes/assumptions/13.md). -/
def decode (w : Word) (chain : Chain) : Except Illegal Instr :=
  match opcodeTable.find? (·.matches w) with
  | some r => .ok (r.build w chain)
  | none => .error (illegalReason w)

/-- R71, R77: the word of an instruction, its fields in their bit ranges and every reserved bit 0. -/
def encodeWord : Instr → Word
  | .rxByte b => 0x1#4 ++ 0#20 ++ b
  | .txDone => 0x2#4 ++ 0#28
  | .txStart p _ => 0x3#4 ++ 0#12 ++ p
  | .qPop => 0x4#4 ++ 0#28
  | .qHeadProto => 0x5#4 ++ 0#28
  | .qHeadLen => 0x6#4 ++ 0#28
  | .qHeadByte i => 0x7#4 ++ 0#12 ++ i
  | .regRead a => 0x8#4 ++ 0#20 ++ a
  | .regWrite a v => 0x9#4 ++ 0#4 ++ a ++ v
  | .crcSeed => 0xA#4 ++ 0#28
  | .crcUpdate c b => 0xB#4 ++ 0#4 ++ b ++ c
  | .crcFinal c => 0xC#4 ++ 0#12 ++ c
  | .reset => 0xD#4 ++ 0#28

/-- R73: what goes on the payload port with the word. -/
def encodeChain : Instr → Chain
  | .txStart _ chain => chain
  | .rxByte _ => []
  | .txDone => []
  | .qPop => []
  | .qHeadProto => []
  | .qHeadLen => []
  | .qHeadByte _ => []
  | .regRead _ => []
  | .regWrite _ _ => []
  | .crcSeed => []
  | .crcUpdate _ _ => []
  | .crcFinal _ => []
  | .reset => []

/-- The command an agent issues for an instruction: its word, its chain, and the agent of R77. -/
def encode (i : Instr) : Command :=
  { agent := i.agent, word := encodeWord i, chain := encodeChain i }

/-- The command word of a row of spec/opcode_table.json whose low `nbits` bits are those of `w`. -/
def tableWord (nbits w : Nat) : Word := BitVec.ofNat 32 (w % 2 ^ nbits)

/-- The instruction the decoder reads from a row's bits, with nothing on the payload port. -/
def decodeTableWord (nbits w : Nat) : Option Instr :=
  match decode (tableWord nbits w) [] with
  | .ok i => some i
  | .error _ => none

end Sys2Proof
end

