-- ==== Sys2Proof/Machine/State.lean ====
section
/-! DEFINITION. The state of HFB (10_state.md): the receiver, transmitter and ring registers, the slot storage, the
receive MTU, and beside them what the model itself carries (the parameters, the outputs of the last step, the
commands not yet taken). Also the codes of the response words, the two reasons a step can stop, and reset (R34). -/

namespace Sys2Proof.Machine

/-- R23: `rx_state`, named by the field byte awaited. All eight values of the 3-bit register are used. -/
inductive RxState where
  | hunt
  | addr
  | ctrl
  | protoHi
  | protoLo
  | data
  | fcsLo
  | fcsHi
  deriving DecidableEq, Repr

/-- R25: `tx_state`, named by the field last driven. A ten-valued type, as R238 asks: 10 to 15 cannot be formed. -/
inductive TxState where
  | idle
  | flag
  | address
  | control
  | protoHi
  | protoLo
  | data
  | fcsLo
  | fcsHi
  | closingFlag
  deriving DecidableEq, Repr

/-- R75: the result codes; 0x5 to 0xE are never returned and have no constructor (U11). -/
inductive Rc where
  | ok
  | busy
  | empty
  | range
  | readonly
  | illegal
  deriving DecidableEq, Repr

/-- R76: the receive event of an RX_BYTE step; a commit carries the index of the slot committed. -/
inductive RxEvent where
  | none
  | commit (slot : Byte)
  | fcsErr
  | desync
  | abort
  | runt
  | overflow
  deriving DecidableEq, Repr

/-- R76: the transmit event of a TX_START or TX_DONE step. -/
inductive TxEvent where
  | none
  | emit
  | done
  deriving DecidableEq, Repr

/-- R194: the protocol class that Q_HEAD_PROTO reports. -/
inductive ProtoClass where
  | other
  | ip
  | lcp
  deriving DecidableEq, Repr

/-- R32: the sixteen assigned CSRs. -/
inductive Csr where
  | status
  | mtu
  | qCount
  | qRd
  | qWr
  | ovfCount
  | rxCount
  | rxProto
  | rxLimit
  | txProto
  | txFcs
  | txIndex
  | txLen
  | txEscByte
  | mtuMax
  | nSlots
  deriving DecidableEq, Repr

/-- R29: the `len` and `proto` of a receive slot. -/
structure SlotHeader where
  len : U16
  proto : U16
  deriving DecidableEq, Repr

/-- Slot data bytes by address, in the canonical form `Memory.wf` (Ops.lean). Every address holds a byte (R50): the one
listed, or `unlistedByte` (Ops.lean; notes/assumptions/5.md). The key of byte `k` of slot `i` is `slotAddr i k`
(Ops.lean). -/
abbrev Memory := List Host.Cell

/-- Why the machine stops. HFB itself has no fault (R230); each of these names an access to storage that does not
exist, which no state that a run reaches makes. -/
inductive Fault where
  /-- A slot index outside 0..N-1 or a byte index outside 0..SLOT_CAP-1 (R50, R57). Raised by the slot accesses of
  Ops.lean. Safe: the model stops where the spec says the access cannot be produced. -/
  | noSuchSlotByte
  /-- `PayloadByte(k)` with `k` beyond the captured payload (R24: `tx_payload` has length `tx_len`). Raised by
  TX_DONE. Safe: the model stops where the spec says nothing. -/
  | noPayloadByte
  deriving DecidableEq, Repr

/-- Why the model gives a step no meaning. -/
inductive Refusal where
  /-- An instruction whose arm of `exec` has no meaning yet. Raised by `exec`. Safe. -/
  | notModelled (mnemonic : String)
  /-- A start state that holds a register value R238 says is never reached (U8: "refuse"). Raised by `step`.
  Safe: the spec does not say what hardware would do in one. -/
  | unreachableStart
  deriving DecidableEq, Repr

/-- R22: the registers of the receiver. Only RX_BYTE and RESET write them. -/
structure Receiver where
  /-- `rx_state` (R23) -/
  state : RxState
  /-- `rx_esc`, the escape latch -/
  esc : Bool
  /-- `rx_count`, the field bytes counted in the data phase of the current frame -/
  count : U16
  /-- `rx_limit`, the MTU latched when the data phase began -/
  limit : U16
  /-- `rx_proto`, the protocol id of the current frame -/
  proto : U16
  /-- `rx_drop`, a data-phase byte of the current frame could not be stored -/
  drop : Bool
  deriving DecidableEq, Repr

/-- R24: the registers of the transmitter. Only TX_START, TX_DONE and RESET write them. -/
structure Transmitter where
  /-- `tx_state` (R25) -/
  state : TxState
  /-- `tx_esc_pend`, the second byte of an escape pair is still to be sent -/
  escPend : Bool
  /-- `tx_esc_byte`, that second byte -/
  escByte : Byte
  /-- `tx_fcs`, the running FCS, then the finalized one -/
  fcs : U16
  /-- `tx_proto`, the protocol id of the frame being sent -/
  proto : U16
  /-- `tx_index`, the payload bytes already emitted -/
  index : U16
  /-- `tx_len`, the payload length of the frame being sent -/
  len : U16
  /-- `tx_payload`, the payload captured by TX_START; no CSR reads it -/
  payload : List Byte
  deriving DecidableEq, Repr

/-- R26: the indices of the receive ring. -/
structure Ring where
  /-- `q_count`, the slots committed and not yet popped -/
  count : Byte
  /-- `q_rd`, the index of the head slot -/
  rd : Byte
  /-- `q_wr`, the index of the slot the receiver fills -/
  wr : Byte
  deriving DecidableEq, Repr

/-- The whole machine: the units of R2 with their registers, the slot storage, and what the model itself carries. -/
structure State where
  /-- R6, R7, R36: the parameters `N` and `MTU_MAX`. Not state: no step changes them. -/
  cfg : Config
  /-- R22 -/
  rx : Receiver
  /-- R24 -/
  tx : Transmitter
  /-- R26 -/
  ring : Ring
  /-- R28 `ovf_count` -/
  ovfCount : U16
  /-- R31 `mtu` -/
  mtu : U16
  /-- R29 `slot[i].len` and `slot[i].proto`, for i = 0 .. N-1 -/
  slotHdrs : List SlotHeader
  /-- R29, R50 `slot[i].data[k]` -/
  slotMem : Memory
  /-- R74: the response word of the last step, none when it ran no command (notes/assumptions/3.md). -/
  response : Option Word
  /-- R5, R9 `tx_out`: the byte driven by the last step, if any (notes/assumptions/3.md). -/
  txOut : Option Byte
  /-- R10, R61: the commands the agents have issued and HFB has not taken, in the one total order the environment
  chose (notes/assumptions/1.md). -/
  pending : List Command
  deriving DecidableEq, Repr

/-- R34: the receiver after reset. -/
def Receiver.reset : Receiver :=
  { state := .hunt, esc := false, count := 0, limit := 0, proto := 0, drop := false }

/-- R34: the transmitter after reset. -/
def Transmitter.reset : Transmitter :=
  { state := .idle, escPend := false, escByte := 0, fcs := 0, proto := 0, index := 0, len := 0, payload := [] }

/-- R34: the ring after reset, empty. -/
def Ring.reset : Ring := { count := 0, rd := 0, wr := 0 }

/-- R34, R216, R260: a state after power-on, for any parameters. Every register has its reset value; the slot storage
is unspecified (U5: any value), so its headers and its bytes are arguments, and the states `State.powerOn c hdrs mem`
over every storage that `powerOnStorage` (Ops.lean) allows are the states HFB may power on in. -/
def State.powerOn (c : Config) (hdrs : List SlotHeader) (mem : Memory) : State :=
  { cfg := c
    rx := .reset
    tx := .reset
    ring := .reset
    ovfCount := 0
    mtu := BitVec.ofNat 16 c.mtuMax
    slotHdrs := hdrs
    slotMem := mem
    response := none
    txOut := none
    pending := [] }

/-- One state after power-on: the example parameters of R6 (DESIGN CHOICE: notes/assumptions/4.md), every slot byte
`unlistedByte` and every `len` and `proto` 0 (DESIGN CHOICE, unsafe: notes/assumptions/5.md, 6.md). -/
def State.reset : State :=
  State.powerOn Config.specExample (List.replicate Config.specExample.nSlots { len := 0, proto := 0 }) []

end Sys2Proof.Machine
end

