-- ==== Sys2Proof/Machine/Fcs.lean ====
section
/-! DEFINITION. The FCS-16 functions of the CRC unit (40_crc.md R100 to R103, R107 to R110), with the byte halves of a
16-bit value that they and the two state machines use. They hold no state (R111). -/

namespace Sys2Proof.Machine

/-- `v[15:8]` of a 16-bit value. -/
def hiByte (v : U16) : Byte := v.extractLsb' 8 8

/-- `v[7:0]` of a 16-bit value. -/
def loByte (v : U16) : Byte := v.extractLsb' 0 8

/-- `{hi, lo}` (R8): `hi` in the high bits. -/
def joinBytes (hi lo : Byte) : U16 := hi ++ lo

/-- `zext_16(b)` of a byte. -/
def zext16 (b : Byte) : U16 := b.setWidth 16

/-- R100. -/
def fcsSeed : U16 := 0xFFFF

/-- R101: the polynomial, 0x8408 (reversed form). -/
def fcsPoly : U16 := 0x8408

/-- R101: one step of the right-shifting division, `(t >> 1) ^ (t[0] ? 0x8408 : 0)`. -/
def fcsShift (t : U16) : U16 := (t >>> 1) ^^^ (if t.getLsbD 0 then fcsPoly else 0)

/-- `n` steps of the division. -/
def fcsShifts : Nat → U16 → U16
  | 0, t => t
  | n + 1, t => fcsShifts n (fcsShift t)

/-- R101: `table[i]` is eight steps from `zext_16(i)`. The generation rule is marked general knowledge by the spec
(G1; notes/assumptions/16.md); the table the spec prints is `fcsPrintedTable`. -/
def fcsTable (i : Byte) : U16 := fcsShifts 8 (zext16 i)

/-- R102: `(c >> 8) ^ table[(c ^ b) & 0xFF]`. -/
def crcUpdate (c : U16) (b : Byte) : U16 := (c >>> 8) ^^^ fcsTable (loByte (c ^^^ zext16 b))

/-- R103: `c ^ 0xFFFF`. -/
def crcFinal (c : U16) : U16 := c ^^^ 0xFFFF

/-- R107: `fold(crc_update, c, s)`. -/
def crcFold : U16 → List Byte → U16
  | c, [] => c
  | c, b :: s => crcFold (crcUpdate c b) s

/-- R107: `fcs16(s)`. -/
def fcs16 (s : List Byte) : U16 := crcFinal (crcFold fcsSeed s)

/-- R108: the four header bytes the FCS covers before the payload, `[0xFF, 0x03, p[15:8], p[7:0]]`. -/
def fcsHeader (p : U16) : List Byte := [0xFF, 0x03, hiByte p, loByte p]

/-- R109: the FCS over the header and all but the last two bytes of `d` equals those two, read little-endian. Not
defined by the spec for fewer than two bytes, where R133 never asks it; the function answers false there. -/
def fcsOk (p : U16) (d : List Byte) : Bool :=
  match d.drop (d.length - 2) with
  | [lo, hi] => fcs16 (fcsHeader p ++ d.take (d.length - 2)) == joinBytes hi lo
  | _ => false

/-- R110 (a): the bit-serial form of the update. -/
def crcUpdateBitSerial (c : U16) (b : Byte) : U16 := fcsShifts 8 (c ^^^ zext16 b)

/-- R101: rows 0x00 to 0x38 of the printed table. -/
def fcsPrinted0 : List U16 :=
  [ 0x0000, 0x1189, 0x2312, 0x329B, 0x4624, 0x57AD, 0x6536, 0x74BF,
    0x8C48, 0x9DC1, 0xAF5A, 0xBED3, 0xCA6C, 0xDBE5, 0xE97E, 0xF8F7,
    0x1081, 0x0108, 0x3393, 0x221A, 0x56A5, 0x472C, 0x75B7, 0x643E,
    0x9CC9, 0x8D40, 0xBFDB, 0xAE52, 0xDAED, 0xCB64, 0xF9FF, 0xE876,
    0x2102, 0x308B, 0x0210, 0x1399, 0x6726, 0x76AF, 0x4434, 0x55BD,
    0xAD4A, 0xBCC3, 0x8E58, 0x9FD1, 0xEB6E, 0xFAE7, 0xC87C, 0xD9F5,
    0x3183, 0x200A, 0x1291, 0x0318, 0x77A7, 0x662E, 0x54B5, 0x453C,
    0xBDCB, 0xAC42, 0x9ED9, 0x8F50, 0xFBEF, 0xEA66, 0xD8FD, 0xC974 ]

/-- R101: rows 0x40 to 0x78 of the printed table. -/
def fcsPrinted1 : List U16 :=
  [ 0x4204, 0x538D, 0x6116, 0x709F, 0x0420, 0x15A9, 0x2732, 0x36BB,
    0xCE4C, 0xDFC5, 0xED5E, 0xFCD7, 0x8868, 0x99E1, 0xAB7A, 0xBAF3,
    0x5285, 0x430C, 0x7197, 0x601E, 0x14A1, 0x0528, 0x37B3, 0x263A,
    0xDECD, 0xCF44, 0xFDDF, 0xEC56, 0x98E9, 0x8960, 0xBBFB, 0xAA72,
    0x6306, 0x728F, 0x4014, 0x519D, 0x2522, 0x34AB, 0x0630, 0x17B9,
    0xEF4E, 0xFEC7, 0xCC5C, 0xDDD5, 0xA96A, 0xB8E3, 0x8A78, 0x9BF1,
    0x7387, 0x620E, 0x5095, 0x411C, 0x35A3, 0x242A, 0x16B1, 0x0738,
    0xFFCF, 0xEE46, 0xDCDD, 0xCD54, 0xB9EB, 0xA862, 0x9AF9, 0x8B70 ]

/-- R101: rows 0x80 to 0xB8 of the printed table. -/
def fcsPrinted2 : List U16 :=
  [ 0x8408, 0x9581, 0xA71A, 0xB693, 0xC22C, 0xD3A5, 0xE13E, 0xF0B7,
    0x0840, 0x19C9, 0x2B52, 0x3ADB, 0x4E64, 0x5FED, 0x6D76, 0x7CFF,
    0x9489, 0x8500, 0xB79B, 0xA612, 0xD2AD, 0xC324, 0xF1BF, 0xE036,
    0x18C1, 0x0948, 0x3BD3, 0x2A5A, 0x5EE5, 0x4F6C, 0x7DF7, 0x6C7E,
    0xA50A, 0xB483, 0x8618, 0x9791, 0xE32E, 0xF2A7, 0xC03C, 0xD1B5,
    0x2942, 0x38CB, 0x0A50, 0x1BD9, 0x6F66, 0x7EEF, 0x4C74, 0x5DFD,
    0xB58B, 0xA402, 0x9699, 0x8710, 0xF3AF, 0xE226, 0xD0BD, 0xC134,
    0x39C3, 0x284A, 0x1AD1, 0x0B58, 0x7FE7, 0x6E6E, 0x5CF5, 0x4D7C ]

/-- R101: rows 0xC0 to 0xF8 of the printed table. -/
def fcsPrinted3 : List U16 :=
  [ 0xC60C, 0xD785, 0xE51E, 0xF497, 0x8028, 0x91A1, 0xA33A, 0xB2B3,
    0x4A44, 0x5BCD, 0x6956, 0x78DF, 0x0C60, 0x1DE9, 0x2F72, 0x3EFB,
    0xD68D, 0xC704, 0xF59F, 0xE416, 0x90A9, 0x8120, 0xB3BB, 0xA232,
    0x5AC5, 0x4B4C, 0x79D7, 0x685E, 0x1CE1, 0x0D68, 0x3FF3, 0x2E7A,
    0xE70E, 0xF687, 0xC41C, 0xD595, 0xA12A, 0xB0A3, 0x8238, 0x93B1,
    0x6B46, 0x7ACF, 0x4854, 0x59DD, 0x2D62, 0x3CEB, 0x0E70, 0x1FF9,
    0xF78F, 0xE606, 0xD49D, 0xC514, 0xB1AB, 0xA022, 0x92B9, 0x8330,
    0x7BC7, 0x6A4E, 0x58D5, 0x495C, 0x3DE3, 0x2C6A, 0x1EF1, 0x0F78 ]

/-- R101: the table the spec prints. -/
def fcsPrintedTable : List U16 := fcsPrinted0 ++ fcsPrinted1 ++ fcsPrinted2 ++ fcsPrinted3

end Sys2Proof.Machine
end

