-- ==== Sys2Proof/Machine/Wire.lean ====
section
/-! DEFINITION. The wire format (30_encoding.md R81 to R85): the framing constants, the escape functions on byte
sequences, and the frame of a protocol id and a payload. -/

namespace Sys2Proof.Machine

/-- R82: `FLAG`. -/
def flagByte : Byte := 0x7E

/-- R82: `ESC`. -/
def escByte : Byte := 0x7D

/-- R82: `ESC_XOR`. -/
def escXor : Byte := 0x20

/-- R82: `ADDRESS`. -/
def addressByte : Byte := 0xFF

/-- R82: `CONTROL`. -/
def controlByte : Byte := 0x03

/-- R83: the two bytes that are escaped inside ADDRESS..FCS, and no other, whatever the ACCM. -/
def needsEscape (b : Byte) : Bool := b == flagByte || b == escByte

/-- R83: the raw bytes of one field byte. -/
def escapeByte (b : Byte) : List Byte := if needsEscape b then [escByte, b ^^^ escXor] else [b]

/-- R84: `escape`. -/
def escape : List Byte → List Byte
  | [] => []
  | b :: s => escapeByte b ++ escape s

/-- R84: `unescape`. R84 gives no clause for a sequence that ends in a lone 0x7D but its third, which needs
`c != 0x7D`; such a sequence is no output of `escape`, and the lone 0x7D is dropped, as the receiver would hold it in
its latch (DESIGN CHOICE: notes/assumptions/17.md). -/
def unescape : List Byte → List Byte
  | [] => []
  | [c] => if c = escByte then [] else [c]
  | c :: d :: s => if c = escByte then (d ^^^ escXor) :: unescape s else c :: unescape (d :: s)

/-- R108: the bytes the FCS covers, `[0xFF, 0x03, p[15:8], p[7:0]] ++ P`. -/
def frameBody (p : U16) (payload : List Byte) : List Byte := fcsHeader p ++ payload

/-- R54, R85: the FCS of the body, low byte first. -/
def frameFcsBytes (p : U16) (payload : List Byte) : List Byte :=
  [loByte (fcs16 (frameBody p payload)), hiByte (fcs16 (frameBody p payload))]

/-- R85: `encode_frame(p, P)`. -/
def encodeFrame (p : U16) (payload : List Byte) : List Byte :=
  [flagByte] ++ escape (frameBody p payload ++ frameFcsBytes p payload) ++ [flagByte]

/-- R173: `e`, the number of body bytes (address to FCS-high) equal to 0x7E or 0x7D. -/
def escapedCount (p : U16) (payload : List Byte) : Nat :=
  ((frameBody p payload ++ frameFcsBytes p payload).filter needsEscape).length

end Sys2Proof.Machine
end

