-- ==== Sys2Proof/Machine/Ops.lean ====
section
/-! DEFINITION. The operations the commands share: slot memory, the slots (20_memory.md R50), the ring index (R26), the
response word (30_encoding.md R74 to R76), driving `tx_out`, stuffing on transmit (42_tx.md R163, R164), and the check
of a start state (60_exceptions.md R238).

There is no operation for taking an exception and none for returning from one: HFB raises none (R230), has no trap
entry (R237) and no trap return (R239). -/

namespace Sys2Proof.Machine

/-- What an address that is not listed reads as. R34 leaves slot storage unspecified at power-on and
`State.powerOn` takes it as an argument, so this byte decides only what an empty list stands for (DESIGN CHOICE, unsafe
for `State.reset`: notes/assumptions/5.md). -/
def unlistedByte : Byte := 0

/-- The byte at an address. -/
def Memory.read : Memory → Nat → Byte
  | [], _ => unlistedByte
  | (a, b) :: m, x => if x = a then b else Memory.read m x

/-- List a byte at an address, keeping the addresses strictly rising. -/
def Memory.insert : Memory → Nat → Byte → Memory
  | [], x, v => [(x, v)]
  | (a, b) :: m, x, v =>
    if x < a then (x, v) :: (a, b) :: m
    else if x = a then (x, v) :: m
    else (a, b) :: Memory.insert m x v

/-- List an address no longer. -/
def Memory.erase (m : Memory) (x : Nat) : Memory := m.filter (fun c => c.1 != x)

/-- Write one byte, keeping the canonical form: the byte an unlisted address reads as is not listed. -/
def Memory.write (m : Memory) (x : Nat) (v : Byte) : Memory :=
  if v = unlistedByte then m.erase x else m.insert x v

/-- The canonical form: addresses strictly rising, and no entry equal to what an unlisted address reads as. -/
abbrev Memory.wf (m : Memory) : Prop :=
  m.Pairwise (fun c d => c.1 < d.1) ∧ ∀ c ∈ m, c.2 ≠ unlistedByte

/-- The key of `slot[i].data[k]`: `{i, k}` with `k` in 16 bits (R6: SLOT_CAP fits in 16 bits). R59 fixes no address
map; the key is the model's own (DESIGN CHOICE, safe: notes/assumptions/8.md). -/
def slotAddr (i k : Nat) : Nat := i * 65536 + k

/-- R50: every listed address is the key of a slot byte that exists. -/
abbrev Memory.within (c : Config) (m : Memory) : Prop :=
  ∀ d ∈ m, d.1 / 65536 < c.nSlots ∧ d.1 % 65536 < c.slotCap

/-- R29, R34, U5: the slot storage HFB may power on with: N headers and any byte in each location, in the canonical
form. -/
abbrev powerOnStorage (c : Config) (hdrs : List SlotHeader) (mem : Memory) : Prop :=
  hdrs.length = c.nSlots ∧ mem.wf ∧ mem.within c

/-- R50: slot indices are 0..N-1 and byte indices 0..SLOT_CAP-1. -/
def slotExists (s : State) (i k : Nat) : Bool := i < s.cfg.nSlots && k < s.cfg.slotCap

/-- R9 `SlotWrite(i, k, b)`. -/
def slotWrite (i k : Nat) (b : Byte) (s : State) : Except Fault State :=
  if slotExists s i k then .ok { s with slotMem := s.slotMem.write (slotAddr i k) b }
  else .error .noSuchSlotByte

/-- R9 `SlotRead(i, k)`. -/
def slotRead (i k : Nat) (s : State) : Except Fault Byte :=
  if slotExists s i k then .ok (s.slotMem.read (slotAddr i k)) else .error .noSuchSlotByte

/-- `slot[i].data[k .. k+n-1]`. -/
def slotBytes (i : Nat) (s : State) : Nat → Nat → Except Fault (List Byte)
  | _, 0 => .ok []
  | k, n + 1 =>
    match slotRead i k s with
    | .error e => .error e
    | .ok b =>
      match slotBytes i s (k + 1) n with
      | .error e => .error e
      | .ok d => .ok (b :: d)

/-- `slot[i].len` and `slot[i].proto` (R9, R29). -/
def slotHeader (i : Nat) (s : State) : Except Fault SlotHeader :=
  match s.slotHdrs[i]? with
  | some h => .ok h
  | none => .error .noSuchSlotByte

/-- R26: each advance of an index is `(index + 1) mod N`. -/
def nextIndex (c : Config) (i : Byte) : Byte := BitVec.ofNat 8 ((i.toNat + 1) % c.nSlots)

/-- R75: the number of a result code. -/
def Rc.code : Rc → BitVec 4
  | .ok => 0x0
  | .busy => 0x1
  | .empty => 0x2
  | .range => 0x3
  | .readonly => 0x4
  | .illegal => 0xF

/-- R76: the AUX code of a receive event. -/
def RxEvent.code : RxEvent → Byte
  | .none => 0x00
  | .commit _ => 0x01
  | .fcsErr => 0x02
  | .desync => 0x03
  | .abort => 0x04
  | .runt => 0x05
  | .overflow => 0x06

/-- R76, R120: the DATA of a receive event, the slot index of a commit and 0 otherwise. -/
def RxEvent.data : RxEvent → U16
  | .commit slot => zext16 slot
  | .none => 0
  | .fcsErr => 0
  | .desync => 0
  | .abort => 0
  | .runt => 0
  | .overflow => 0

/-- R76: the AUX code of a transmit event. -/
def TxEvent.code : TxEvent → Byte
  | .none => 0x00
  | .emit => 0x01
  | .done => 0x02

/-- R74: `{rc[3:0], 0b0000, aux[7:0], data[15:0]}`. -/
def respond (rc : Rc) (aux : Byte) (data : U16) : Word := rc.code ++ 0#4 ++ aux ++ data

/-- The end of a step that drives no byte: its response word. -/
def reply (s : State) (rc : Rc) (aux : Byte) (data : U16) : State :=
  { s with response := some (respond rc aux data), txOut := none }

/-- The end of a step that drives a byte on `tx_out` (R9 `emit(b)`), answered `respond(RC_OK, TXE_EMIT, b)` (R160, R166). -/
def emit (s : State) (b : Byte) : State :=
  { s with response := some (respond .ok TxEvent.emit.code (zext16 b)), txOut := some b }

/-- R164 `emit_stuffed(b)`: drive the first raw byte of `b` and, if it is escaped, remember the second. -/
def emitStuffed (s : State) (b : Byte) : State :=
  if needsEscape b then { emit s escByte with tx.escPend := true, tx.escByte := b ^^^ escXor }
  else emit s b

/-- R163 `emit_field(b)`: feed `b` to the running FCS, then stuff it. -/
def emitField (s : State) (b : Byte) : State :=
  emitStuffed { s with tx.fcs := crcUpdate s.tx.fcs b } b

/-- R78: the answer to an illegal word: RC_ILLEGAL, no effect, nothing driven. -/
def answerIllegal (s : State) : State := reply s .illegal 0 0

/-- R246: between commands HFB does nothing. A step that finds no command keeps every register; no response is
returned and no byte driven in it (DEDUCED: notes/assumptions/2.md). -/
def idleStep (s : State) : State := { s with response := none, txOut := none }

/-- R238: the register values that no command sequence reaches and a model refuses in a start state, with the two
facts of the model's own representation they presume (legal parameters, N slot headers). -/
def startOk (s : State) : Bool :=
  s.cfg.wellFormed && s.slotHdrs.length == s.cfg.nSlots &&
  !(s.tx.escPend && (s.tx.state == .idle || s.tx.state == .closingFlag)) &&
  s.ring.count.toNat ≤ s.cfg.nSlots && s.ring.rd.toNat < s.cfg.nSlots && s.ring.wr.toNat < s.cfg.nSlots &&
  s.rx.count.toNat ≤ s.rx.limit.toNat + 2

end Sys2Proof.Machine
end

