-- ==== Sys2Proof/Machine/Flags.lean ====
section
/-! DEFINITION. The derived signals (10_state.md R37), the codes of the two state machines (R23, R25), the STATUS
register (R33) and the value of every CSR (R32, 44_control.md R211). HFB has no condition codes (R30). -/

namespace Sys2Proof.Machine

/-- R37 `tx_busy`, also a level output. -/
def txBusy (s : State) : Bool := s.tx.state != .idle

/-- R37 `rx_ready`, also a level output. -/
def rxReady (s : State) : Bool := s.ring.count != 0

/-- R37 `q_full`, also a level output. -/
def qFull (s : State) : Bool := s.ring.count.toNat == s.cfg.nSlots

/-- R23: the value of `rx_state`. -/
def RxState.code : RxState → BitVec 3
  | .hunt => 0
  | .addr => 1
  | .ctrl => 2
  | .protoHi => 3
  | .protoLo => 4
  | .data => 5
  | .fcsLo => 6
  | .fcsHi => 7

/-- R25: the value of `tx_state`. -/
def TxState.code : TxState → BitVec 4
  | .idle => 0
  | .flag => 1
  | .address => 2
  | .control => 3
  | .protoHi => 4
  | .protoLo => 5
  | .data => 6
  | .fcsLo => 7
  | .fcsHi => 8
  | .closingFlag => 9

/-- R33: `STATUS`, from bit 15 down to bit 0. -/
def statusWord (s : State) : U16 :=
  0#3 ++ BitVec.ofBool (qFull s) ++ BitVec.ofBool s.rx.drop ++ BitVec.ofBool (rxReady s) ++
    BitVec.ofBool (txBusy s) ++ BitVec.ofBool s.tx.escPend ++ s.tx.state.code ++ BitVec.ofBool s.rx.esc ++
    s.rx.state.code

/-- R211 `csr_value`: the contents column of R32. -/
def csrValue (s : State) : Csr → U16
  | .status => statusWord s
  | .mtu => s.mtu
  | .qCount => zext16 s.ring.count
  | .qRd => zext16 s.ring.rd
  | .qWr => zext16 s.ring.wr
  | .ovfCount => s.ovfCount
  | .rxCount => s.rx.count
  | .rxProto => s.rx.proto
  | .rxLimit => s.rx.limit
  | .txProto => s.tx.proto
  | .txFcs => s.tx.fcs
  | .txIndex => s.tx.index
  | .txLen => s.tx.len
  | .txEscByte => zext16 s.tx.escByte
  | .mtuMax => BitVec.ofNat 16 s.cfg.mtuMax
  | .nSlots => BitVec.ofNat 16 s.cfg.nSlots

end Sys2Proof.Machine
end

