-- ==== Sys2Proof/Machine/Operands.lean ====
section
/-! DEFINITION. The operands that are more than a field of the command word: the chain of TX_START (20_memory.md R53,
42_tx.md R161), the payload byte it stands for, and the CSR that a CSR number names (10_state.md R32). The fields of the
word itself are assembled by the decoder (30_encoding.md R72). -/

namespace Sys2Proof.Machine

/-- R53: `chain.tot_length`, the sum of the segments' lengths, which the host keeps in the head
(notes/assumptions/11.md). -/
def chainLength : Chain → Nat
  | [] => 0
  | seg :: rest => seg.length + chainLength rest

/-- R161 `capture(chain)`: the valid bytes of every segment, in chain order. -/
def capture : Chain → List Byte
  | [] => []
  | seg :: rest => seg ++ capture rest

/-- R161: `PayloadByte(k) = tx_payload[k]`, for k below the captured length. -/
def payloadByte (s : State) (k : Nat) : Option Byte := s.tx.payload[k]?

/-- R32: the CSR number of an assigned CSR. -/
def Csr.number : Csr → Byte
  | .status => 0x00
  | .mtu => 0x01
  | .qCount => 0x02
  | .qRd => 0x03
  | .qWr => 0x04
  | .ovfCount => 0x05
  | .rxCount => 0x06
  | .rxProto => 0x07
  | .rxLimit => 0x08
  | .txProto => 0x09
  | .txFcs => 0x0A
  | .txIndex => 0x0B
  | .txLen => 0x0C
  | .txEscByte => 0x0D
  | .mtuMax => 0x0E
  | .nSlots => 0x0F

/-- Every assigned CSR, in the order of R32. -/
def csrs : List Csr :=
  [.status, .mtu, .qCount, .qRd, .qWr, .ovfCount, .rxCount, .rxProto, .rxLimit, .txProto, .txFcs, .txIndex, .txLen,
    .txEscByte, .mtuMax, .nSlots]

/-- R32: the CSR that a number names; none for the unassigned numbers 0x10..0xFF. -/
def csrOf (a : Byte) : Option Csr := csrs.find? (fun r => r.number == a)

end Sys2Proof.Machine
end

