-- ==== Sys2Proof/Machine/Control.lean ====
section
/-! DEFINITION. The control unit (44_control.md): REG_READ, REG_WRITE and RESET. -/

namespace Sys2Proof.Machine

/-- R210 `REG_READ a`. -/
def execRegRead (a : Byte) (s : State) : Host.Outcome State Fault Refusal :=
  match csrOf a with
  | none => .next (reply s .range 0 0)
  | some r => .next (reply s .ok 0 (csrValue s r))

/-- R212 `REG_WRITE a, v`: unassigned, then read-only, then the value range (R213). -/
def execRegWrite (a : Byte) (v : U16) (s : State) : Host.Outcome State Fault Refusal :=
  match csrOf a with
  | none => .next (reply s .range 0 0)
  | some r =>
    if r ≠ .mtu then .next (reply s .readonly 0 0)
    else if v.toNat > s.cfg.mtuMax then .next (reply s .range 0 0)
    else .next (reply { s with mtu := v } .ok 0 0)

/-- R215: every register of R34 takes its reset value; slot storage is not written (notes/assumptions/7.md), and the
commands still to come are the agents', not HFB's. -/
def resetRegisters (s : State) : State :=
  { State.powerOn s.cfg s.slotHdrs s.slotMem with pending := s.pending }

/-- R215 `RESET`. -/
def execReset (s : State) : Host.Outcome State Fault Refusal :=
  .next (reply (resetRegisters s) .ok 0 0)

end Sys2Proof.Machine
end

