-- ==== Sys2Proof/Machine/Crc.lean ====
section
/-! DEFINITION. The three CRC commands (40_crc.md R104 to R106). They read and write no HFB register (R111). -/

namespace Sys2Proof.Machine

/-- R104 `CRC_SEED`. -/
def execCrcSeed (s : State) : Host.Outcome State Fault Refusal :=
  .next (reply s .ok 0 fcsSeed)

/-- R105 `CRC_UPDATE c, b`. -/
def execCrcUpdate (c : U16) (b : Byte) (s : State) : Host.Outcome State Fault Refusal :=
  .next (reply s .ok 0 (crcUpdate c b))

/-- R106 `CRC_FINAL c`. -/
def execCrcFinal (c : U16) (s : State) : Host.Outcome State Fault Refusal :=
  .next (reply s .ok 0 (crcFinal c))

end Sys2Proof.Machine
end

