-- ==== Sys2Proof/Machine/Queue.lean ====
section
/-! DEFINITION. The receive ring's commands (43_queue.md): Q_POP, Q_HEAD_PROTO, Q_HEAD_LEN, Q_HEAD_BYTE. -/

namespace Sys2Proof.Machine

/-- R194: the class of a protocol id, by exact match. -/
def protoClass (p : U16) : ProtoClass :=
  if p = 0x0021 then .ip else if p = 0xC021 then .lcp else .other

/-- R194: the AUX code of a class. -/
def ProtoClass.code : ProtoClass → Byte
  | .other => 0x00
  | .ip => 0x01
  | .lcp => 0x02

/-- R190 `Q_POP`. -/
def execQPop (s : State) : Host.Outcome State Fault Refusal :=
  if s.ring.count = 0 then .next (reply s .empty 0 0)
  else
    .next (reply { s with
      ring.rd := nextIndex s.cfg s.ring.rd
      ring.count := s.ring.count - 1 } .ok 0 (zext16 s.ring.rd))

/-- R191 `Q_HEAD_PROTO`. -/
def execQHeadProto (s : State) : Host.Outcome State Fault Refusal :=
  if s.ring.count = 0 then .next (reply s .empty 0 0)
  else
    match slotHeader s.ring.rd.toNat s with
    | .error e => .fault e
    | .ok h => .next (reply s .ok (protoClass h.proto).code h.proto)

/-- R192 `Q_HEAD_LEN`. -/
def execQHeadLen (s : State) : Host.Outcome State Fault Refusal :=
  if s.ring.count = 0 then .next (reply s .empty 0 0)
  else
    match slotHeader s.ring.rd.toNat s with
    | .error e => .fault e
    | .ok h => .next (reply s .ok 0 h.len)

/-- R193 `Q_HEAD_BYTE i`: EMPTY before RANGE; the comparison is made on numbers that do not wrap. -/
def execQHeadByte (i : U16) (s : State) : Host.Outcome State Fault Refusal :=
  if s.ring.count = 0 then .next (reply s .empty 0 0)
  else
    match slotHeader s.ring.rd.toNat s with
    | .error e => .fault e
    | .ok h =>
      if i.toNat ≥ h.len.toNat + 2 then .next (reply s .range 0 0)
      else
        match slotRead s.ring.rd.toNat i.toNat s with
        | .error e => .fault e
        | .ok b => .next (reply s .ok 0 (zext16 b))

end Sys2Proof.Machine
end

