-- ==== Sys2Proof/Machine/Rx.lean ====
section
/-! DEFINITION. The receiver (41_rx.md): RX_BYTE, the de-stuffer, one rule per state, and the end of a frame. Each
part answers the state it leaves and the receive event of R76, or the fault of a slot access. -/

namespace Sys2Proof.Machine

/-- R131: store a data-phase byte. While the ring is full nothing is written and the frame is marked dropped. -/
def rxStore (f : Byte) (s : State) : Except Fault State :=
  if qFull s then .ok { s with rx.drop := true, rx.count := s.rx.count + 1 }
  else
    match slotWrite s.ring.wr.toNat s.rx.count.toNat f s with
    | .error e => .error e
    | .ok s' => .ok { s' with rx.count := s.rx.count + 1 }

/-- R137 `commit(n)`: the payload length is n - 2; the two FCS bytes stay in the slot. -/
def commit (n : U16) (s : State) : State :=
  { s with
    slotHdrs := s.slotHdrs.set s.ring.wr.toNat { len := n - 2, proto := s.rx.proto }
    ring.wr := nextIndex s.cfg s.ring.wr
    ring.count := s.ring.count + 1 }

/-- R133 `finalize(n)`: runt (R134), then overflow (R135), then the FCS check (R136, R137). -/
def finalize (n : U16) (s : State) : Except Fault (State × RxEvent) :=
  if n.toNat < 2 then .ok (s, .runt)
  else if s.rx.drop || qFull s then .ok ({ s with ovfCount := s.ovfCount + 1 }, .overflow)
  else
    match slotBytes s.ring.wr.toNat s 0 n.toNat with
    | .error e => .error e
    | .ok d => if fcsOk s.rx.proto d then .ok (commit n s, .commit s.ring.wr) else .ok (s, .fcsErr)

/-- R122 `on_flag()`, by state. -/
def onFlag (s : State) : Except Fault (State × RxEvent) :=
  match s.rx.state with
  | .hunt => .ok ({ s with rx.state := .addr }, .none)
  | .addr => .ok ({ s with rx.state := .addr }, .none)
  | .ctrl => .ok ({ s with rx.state := .addr }, .abort)
  | .protoHi => .ok ({ s with rx.state := .addr }, .abort)
  | .protoLo => .ok ({ s with rx.state := .addr }, .abort)
  | .data => finalize s.rx.count { s with rx.state := .addr }
  | .fcsLo => .ok ({ s with rx.state := .addr }, .abort)
  | .fcsHi => .ok ({ s with rx.state := .addr }, .abort)

/-- R127: the start of the data phase, in the step of the protocol-lo byte. -/
def startDataPhase (s : State) : State :=
  { s with
    rx.count := 0
    rx.drop := false
    rx.limit := s.mtu
    rx.state := if s.mtu = 0 then .fcsLo else .data }

/-- R123 to R130 `on_field(f)`, by state. -/
def onField (f : Byte) (s : State) : Except Fault (State × RxEvent) :=
  match s.rx.state with
  | .hunt => .ok (s, .none)
  | .addr =>
    if f = addressByte then .ok ({ s with rx.state := .ctrl }, .none)
    else .ok ({ s with rx.state := .hunt }, .desync)
  | .ctrl =>
    if f = controlByte then .ok ({ s with rx.state := .protoHi }, .none)
    else .ok ({ s with rx.state := .hunt }, .desync)
  | .protoHi => .ok ({ s with rx.proto := joinBytes f (loByte s.rx.proto), rx.state := .protoLo }, .none)
  | .protoLo => .ok (startDataPhase { s with rx.proto := joinBytes (hiByte s.rx.proto) f }, .none)
  | .data =>
    match rxStore f s with
    | .error e => .error e
    | .ok s' => .ok ({ s' with rx.state := if s'.rx.count = s'.rx.limit then .fcsLo else .data }, .none)
  | .fcsLo =>
    match rxStore f s with
    | .error e => .error e
    | .ok s' => .ok ({ s' with rx.state := .fcsHi }, .none)
  | .fcsHi =>
    match rxStore f s with
    | .error e => .error e
    | .ok s' => finalize s'.rx.count { s' with rx.state := .hunt }

/-- R120: the byte class, flag before escape before field byte (R235), with the escape latch of R121. -/
def rxByte (b : Byte) (s : State) : Except Fault (State × RxEvent) :=
  if b = flagByte then onFlag { s with rx.esc := false }
  else if b = escByte then .ok ({ s with rx.esc := true }, .none)
  else onField (if s.rx.esc then b ^^^ escXor else b) { s with rx.esc := false }

/-- R120 `RX_BYTE b`. -/
def execRxByte (b : Byte) (s : State) : Host.Outcome State Fault Refusal :=
  match rxByte b s with
  | .error e => .fault e
  | .ok (s', ev) => .next (reply s' .ok ev.code ev.data)

end Sys2Proof.Machine
end

