-- ==== Sys2Proof/Machine/Tx.lean ====
section
/-! DEFINITION. The transmitter (42_tx.md): TX_START and TX_DONE. -/

namespace Sys2Proof.Machine

/-- R160 `TX_START p, chain`, with the refusals of R162 in their order. -/
def execTxStart (p : U16) (chain : Chain) (s : State) : Host.Outcome State Fault Refusal :=
  if s.tx.state != .idle || chainLength chain == 0 then .next (reply s .busy 0 0)
  else if chainLength chain > Config.txLenMax then .next (reply s .range 0 0)
  else
    .next (emit { s with
      tx.payload := capture chain
      tx.len := BitVec.ofNat 16 (chainLength chain)
      tx.index := 0
      tx.proto := p
      tx.fcs := fcsSeed
      tx.escPend := false
      tx.state := .flag } flagByte)

/-- R169, R170: the step from `PROTO_LO` or `DATA`: the next payload byte, or the FCS when the payload is exhausted. -/
def txPayloadStep (s : State) : Host.Outcome State Fault Refusal :=
  if s.tx.index.toNat < s.tx.len.toNat then
    match payloadByte s s.tx.index.toNat with
    | none => .fault .noPayloadByte
    | some b => .next { emitField s b with tx.index := s.tx.index + 1, tx.state := .data }
  else
    .next { emitStuffed { s with tx.fcs := crcFinal s.tx.fcs } (loByte (crcFinal s.tx.fcs)) with tx.state := .fcsLo }

/-- R166 `TX_DONE`. -/
def execTxDone (s : State) : Host.Outcome State Fault Refusal :=
  if s.tx.state = .idle then .next (reply s .ok TxEvent.none.code 0)
  else if s.tx.escPend then .next { emit s s.tx.escByte with tx.escPend := false }
  else
    match s.tx.state with
    | .idle => .next (reply s .ok TxEvent.none.code 0)
    | .flag => .next { emitField s addressByte with tx.state := .address }
    | .address => .next { emitField s controlByte with tx.state := .control }
    | .control => .next { emitField s (hiByte s.tx.proto) with tx.state := .protoHi }
    | .protoHi => .next { emitField s (loByte s.tx.proto) with tx.state := .protoLo }
    | .protoLo => txPayloadStep s
    | .data => txPayloadStep s
    | .fcsLo => .next { emitStuffed s (hiByte s.tx.fcs) with tx.state := .fcsHi }
    | .fcsHi => .next { emit s flagByte with tx.state := .closingFlag }
    | .closingFlag => .next (reply { s with tx.state := .idle } .ok TxEvent.done.code 0)

end Sys2Proof.Machine
end

