-- ==== Sys2Proof/Machine/Dispatch.lean ====
section
/-! DEFINITION. The meaning of every command, one arm per row of 30_encoding.md R77. -/

namespace Sys2Proof.Machine

def exec (i : Instr) (s : State) : Host.Outcome State Fault Refusal :=
  match i with
  | .rxByte b => Sys2Proof.Machine.execRxByte b s
  | .txDone => Sys2Proof.Machine.execTxDone s
  | .txStart p chain => Sys2Proof.Machine.execTxStart p chain s
  | .qPop => Sys2Proof.Machine.execQPop s
  | .qHeadProto => Sys2Proof.Machine.execQHeadProto s
  | .qHeadLen => Sys2Proof.Machine.execQHeadLen s
  | .qHeadByte k => Sys2Proof.Machine.execQHeadByte k s
  | .regRead a => Sys2Proof.Machine.execRegRead a s
  | .regWrite a v => Sys2Proof.Machine.execRegWrite a v s
  | .crcSeed => Sys2Proof.Machine.execCrcSeed s
  | .crcUpdate c b => Sys2Proof.Machine.execCrcUpdate c b s
  | .crcFinal c => Sys2Proof.Machine.execCrcFinal c s
  | .reset => Sys2Proof.Machine.execReset s

end Sys2Proof.Machine
end

