-- ==== Sys2Proof/Machine/Step.lean ====
section
/-! DEFINITION. One step (00_scope.md R5): the next command of the one total order (20_memory.md R61) is taken, decoded
(30_encoding.md R77, R78) and run to completion. A start state of R238 is refused; with no command nothing happens
(R246). -/

namespace Sys2Proof.Machine

/-- R235 (1): the illegal-encoding check comes first; a word of no command is answered RC_ILLEGAL (R78). -/
def runCommand (c : Command) (s : State) : Host.Outcome State Fault Refusal :=
  match decode c.word c.chain with
  | .ok i => exec i s
  | .error _ => .next (answerIllegal s)

def step (s : State) : Host.Outcome State Fault Refusal :=
  if startOk s then
    match s.pending with
    | [] => .next (idleStep s)
    | c :: rest => runCommand c { s with pending := rest }
  else .refused .unreachableStart

/-- `s` with the command of an opcode-table row first in line, nothing on the payload port
(notes/assumptions/14.md). -/
def State.withFetchWord (s : State) (nbits w : Nat) : State :=
  { s with pending := { agent := .host, word := tableWord nbits w, chain := [] } :: s.pending }

end Sys2Proof.Machine
end

