-- ==== Sys2Proof/Machine/Pseudo.lean ====
section
/-! DEFINITION. Sequences of commands: a sequence is run one command after the other (20_memory.md R61) and the bytes it
drives are collected, and the pseudo-instructions of 30_encoding.md R80 are sequences. -/

namespace Sys2Proof.Machine

/-- The state after a sequence of commands and the bytes it drove on `tx_out`, in order; none if a command stops. -/
def runAll : List Instr → State → Option (State × List Byte)
  | [], s => some (s, [])
  | i :: is, s =>
    match exec i s with
    | .next t =>
      match runAll is t with
      | some (u, bytes) => some (u, t.txOut.toList ++ bytes)
      | none => none
    | .fault _ => none
    | .refused _ => none

/-- The response words of a sequence of commands, in order; none if a command stops. -/
def responsesOf : List Instr → State → Option (List Word)
  | [], _ => some []
  | i :: is, s =>
    match exec i s with
    | .next t =>
      match responsesOf is t with
      | some ws => some (t.response.toList ++ ws)
      | none => none
    | .fault _ => none
    | .refused _ => none

/-- R80 `RX_STREAM b0, ..., bn`. -/
def rxStream (bytes : List Byte) : List Instr := bytes.map .rxByte

/-- R80 `RX_FRAME p, [payload]`. -/
def rxFrame (p : U16) (payload : List Byte) : List Instr := rxStream (encodeFrame p payload)

/-- R80 `TX_DRAIN`, `n` completions long; R173 gives the number after which the response is `TXE_DONE`. -/
def txDrain (n : Nat) : List Instr := List.replicate n .txDone

/-- R80 `CRC_FOLD c, b0, ..., bn`: the command sequence, each update fed the DATA of the one before. -/
def crcFoldCommands : U16 → List Byte → List Instr
  | _, [] => []
  | c, b :: s => .crcUpdate c b :: crcFoldCommands (crcUpdate c b) s

end Sys2Proof.Machine
end

