-- ==== Sys2Proof/Safety.lean ====
section
/-! DEFINITION. What the spec says of every state that a run reaches: the ring (10_state.md R27), the bounds of the
receiver (41_rx.md R138), the transmitter's registers (42_tx.md R175), the values never held (60_exceptions.md R238), and
what slot storage holds (20_memory.md R51, R62). `Inv` is the invariant a statement about every state may assume; that
every step keeps it is a statement of its own. -/

namespace Sys2Proof.Machine

/-- The states in which the current frame's bytes are being stored. -/
def inDataPhase : RxState → Bool
  | .hunt => false
  | .addr => false
  | .ctrl => false
  | .protoHi => false
  | .protoLo => false
  | .data => true
  | .fcsLo => true
  | .fcsHi => true

/-- R23, R138: `rx_count` against `rx_limit`, by state. -/
def RxCountOk (s : State) : Prop :=
  match s.rx.state with
  | .data => s.rx.count.toNat < s.rx.limit.toNat
  | .fcsLo => s.rx.count.toNat = s.rx.limit.toNat
  | .fcsHi => s.rx.count.toNat = s.rx.limit.toNat + 1
  | .hunt => s.rx.count.toNat ≤ s.rx.limit.toNat + 2
  | .addr => s.rx.count.toNat ≤ s.rx.limit.toNat + 2
  | .ctrl => s.rx.count.toNat ≤ s.rx.limit.toNat + 2
  | .protoHi => s.rx.count.toNat ≤ s.rx.limit.toNat + 2
  | .protoLo => s.rx.count.toNat ≤ s.rx.limit.toNat + 2

/-- R24: `tx_index` against `tx_len`, by state; `tx_len` is at least 1 while busy. -/
def TxIndexOk (s : State) : Prop :=
  match s.tx.state with
  | .idle => s.tx.index = s.tx.len
  | .flag => s.tx.index = 0 ∧ 0 < s.tx.len.toNat
  | .address => s.tx.index = 0 ∧ 0 < s.tx.len.toNat
  | .control => s.tx.index = 0 ∧ 0 < s.tx.len.toNat
  | .protoHi => s.tx.index = 0 ∧ 0 < s.tx.len.toNat
  | .protoLo => s.tx.index = 0 ∧ 0 < s.tx.len.toNat
  | .data => 0 < s.tx.index.toNat ∧ s.tx.index.toNat ≤ s.tx.len.toNat
  | .fcsLo => s.tx.index = s.tx.len ∧ 0 < s.tx.len.toNat
  | .fcsHi => s.tx.index = s.tx.len ∧ 0 < s.tx.len.toNat
  | .closingFlag => s.tx.index = s.tx.len ∧ 0 < s.tx.len.toNat

/-- R26, R27: the index of the j-th oldest committed slot. -/
def ringIndex (s : State) (j : Nat) : Nat := (s.ring.rd.toNat + j) % s.cfg.nSlots

/-- R29, R192: slot `i` holds a frame: its header has `len` in 0..MTU_MAX, so that `len + 2` data bytes exist (R50). -/
def HoldsFrame (s : State) (i : Nat) : Prop :=
  ∃ h : SlotHeader, s.slotHdrs[i]? = some h ∧ h.len.toNat ≤ s.cfg.mtuMax

/-- The invariant of the machine. -/
structure Inv (s : State) : Prop where
  /-- R6 -/
  config : s.cfg.wellFormed = true
  /-- R29: N slots -/
  headers : s.slotHdrs.length = s.cfg.nSlots
  /-- the canonical form of slot memory -/
  memory : s.slotMem.wf
  /-- R50: slot memory lists no location that does not exist -/
  located : s.slotMem.within s.cfg
  /-- R26, R27 -/
  count : s.ring.count.toNat ≤ s.cfg.nSlots
  /-- R26 -/
  head : s.ring.rd.toNat < s.cfg.nSlots
  /-- R27 -/
  fill : s.ring.wr.toNat = (s.ring.rd.toNat + s.ring.count.toNat) % s.cfg.nSlots
  /-- R31 -/
  mtu : s.mtu.toNat ≤ s.cfg.mtuMax
  /-- R138 -/
  limit : s.rx.limit.toNat ≤ s.cfg.mtuMax
  /-- R23, R138 -/
  counted : RxCountOk s
  /-- R29, R192: every committed slot holds a frame -/
  committed : ∀ j < s.ring.count.toNat, HoldsFrame s (ringIndex s j)
  /-- R175, R238 -/
  escape : s.tx.escPend = true → s.tx.state ≠ .idle ∧ s.tx.state ≠ .closingFlag
  /-- R24 -/
  payload : s.tx.payload.length = s.tx.len.toNat
  /-- R24 -/
  index : TxIndexOk s

/-- R167: what `tx_fcs` holds, by state: the fold over the field bytes sent so far, then the finalized FCS. -/
def RunningFcs (s : State) : Prop :=
  match s.tx.state with
  | .idle => True
  | .flag => s.tx.fcs = fcsSeed
  | .address => s.tx.fcs = crcFold fcsSeed [0xFF]
  | .control => s.tx.fcs = crcFold fcsSeed [0xFF, 0x03]
  | .protoHi => s.tx.fcs = crcFold fcsSeed [0xFF, 0x03, hiByte s.tx.proto]
  | .protoLo => s.tx.fcs = crcFold fcsSeed (frameBody s.tx.proto [])
  | .data => s.tx.fcs = crcFold fcsSeed (frameBody s.tx.proto (s.tx.payload.take s.tx.index.toNat))
  | .fcsLo => s.tx.fcs = fcs16 (frameBody s.tx.proto s.tx.payload)
  | .fcsHi => s.tx.fcs = fcs16 (frameBody s.tx.proto s.tx.payload)
  | .closingFlag => s.tx.fcs = fcs16 (frameBody s.tx.proto s.tx.payload)

/-- R109, R137: every committed slot holds a frame whose FCS checks. -/
def CommittedFramesCheck (s : State) : Prop :=
  ∀ j < s.ring.count.toNat, ∃ (h : SlotHeader) (d : List Byte),
    s.slotHdrs[ringIndex s j]? = some h ∧ slotBytes (ringIndex s j) s 0 (h.len.toNat + 2) = .ok d ∧
      fcsOk h.proto d = true

/-- R34, U5, U6: two states that differ only in slot storage no rule lets anyone see: they agree on every register, on
the headers and the `len + 2` bytes of each committed slot, and on the bytes the current frame has stored. -/
def SameButUnseenStorage (s t : State) : Prop :=
  t = { s with slotHdrs := t.slotHdrs, slotMem := t.slotMem } ∧
    t.slotHdrs.length = s.slotHdrs.length ∧
    (∀ j < s.ring.count.toNat, t.slotHdrs[ringIndex s j]? = s.slotHdrs[ringIndex s j]?) ∧
    (∀ j < s.ring.count.toNat, ∀ h, s.slotHdrs[ringIndex s j]? = some h → ∀ k < h.len.toNat + 2,
      t.slotMem.read (slotAddr (ringIndex s j) k) = s.slotMem.read (slotAddr (ringIndex s j) k)) ∧
    (inDataPhase s.rx.state = true → s.rx.drop = false → ∀ k < s.rx.count.toNat,
      t.slotMem.read (slotAddr s.ring.wr.toNat k) = s.slotMem.read (slotAddr s.ring.wr.toNat k))

/-- R34, R61: the states reached from power-on with parameters `c`, whatever the slot storage holds there (U5): the
agents may issue any command at any time, and HFB takes them one at a time in the order issued
(notes/assumptions/1.md). -/
inductive Reachable (c : Config) : State → Prop where
  | powerOn (hdrs : List SlotHeader) (mem : Memory) : powerOnStorage c hdrs mem → Reachable c (State.powerOn c hdrs mem)
  | issue (s : State) (cmd : Command) : Reachable c s → Reachable c { s with pending := s.pending ++ [cmd] }
  | step (s t : State) : Reachable c s → Sys2Proof.Machine.step s = .next t → Reachable c t

/-- R76: 1 if the command was an RX_BYTE answered with the event EV_COMMIT, else 0. -/
def commitsIn (i : Instr) (t : State) : Nat :=
  match i, t.response with
  | .rxByte _, some w => if w.extractLsb' 16 8 = 0x01#8 then 1 else 0
  | _, _ => 0

/-- R190: 1 if the command was a Q_POP answered RC_OK, else 0. -/
def popsIn (i : Instr) (t : State) : Nat :=
  match i, t.response with
  | .qPop, some w => if w.extractLsb' 28 4 = 0x0#4 then 1 else 0
  | _, _ => 0

/-- R195: the state after a sequence of commands, the commits and the successful pops it made. -/
def ringEvents : List Instr → State → Option (State × Nat × Nat)
  | [], s => some (s, 0, 0)
  | i :: is, s =>
    match exec i s with
    | .next t =>
      match ringEvents is t with
      | some (u, commits, pops) => some (u, commitsIn i t + commits, popsIn i t + pops)
      | none => none
    | .fault _ => none
    | .refused _ => none

end Sys2Proof.Machine
end

