-- ==== Sys2Proof/Certificates/Slice0/Obligations.lean ====
section
/-! DEFINITION. The statements for the provers. Response words and constants are written as the numbers the spec
gives; `slotAddr`, `ringIndex`, `crcUpdate`, `fcsOk`, `encodeFrame` and the invariants are the model's own functions,
which the rule named in each docstring defines. An equality of whole states is also the frame: what it does not name is
unchanged. Three fields of State are the model's own and no register of HFB: in such an equality `response` and `txOut`
stand for what the step answers and drives (notes/assumptions/3.md), and `pending`, the line of commands
(notes/assumptions/1.md), is kept by every command. -/

open Sys2Proof Sys2Proof.Machine

namespace Sys2Proof.Spec

/-- A step answered `respond(RC_OK, 0, data)` that changes no register and drives nothing (R74). -/
def answered (s : State) (data : U16) : State := { s with response := some (0x0000#16 ++ data), txOut := none }

/-- A step refused with a result code (R75): no register changes, nothing is driven, AUX and DATA are 0. -/
def refusedWith (s : State) (rc : BitVec 4) : State := { s with response := some (rc ++ 0#28), txOut := none }

/-- R164: driving the first raw byte of a field byte; an escaped one leaves its second byte pending. -/
def stuffed (s : State) (b : Byte) : State :=
  if b = 0x7E ∨ b = 0x7D then
    { s with tx.escPend := true, tx.escByte := b ^^^ 0x20, response := some 0x0001007D, txOut := some 0x7D }
  else { s with response := some (0x000100#24 ++ b), txOut := some b }

/-- R70, R71, R78: OP is assigned and a reserved bit of its format is 1. -/
def reservedBitSet (w : Word) : Prop :=
  (w.extractLsb' 28 4 ∈ [0x2#4, 0x4#4, 0x5#4, 0x6#4, 0xA#4, 0xD#4] ∧ w.extractLsb' 0 28 ≠ 0) ∨
    (w.extractLsb' 28 4 ∈ [0x1#4, 0x8#4] ∧ w.extractLsb' 8 20 ≠ 0) ∨
    (w.extractLsb' 28 4 ∈ [0x3#4, 0x7#4, 0xC#4] ∧ w.extractLsb' 16 12 ≠ 0) ∨
    (w.extractLsb' 28 4 ∈ [0x9#4, 0xB#4] ∧ w.extractLsb' 24 4 ≠ 0)

/-- R121: the field byte that a raw byte other than 0x7E and 0x7D becomes. -/
def fieldByte (s : State) (b : Byte) : Byte := if s.rx.esc then b ^^^ 0x20 else b

/-- R131, R26: the ring is full. -/
def full (s : State) : Prop := s.ring.count.toNat = s.cfg.nSlots

/-- R50: the slot byte the receiver stores to next exists. -/
def roomForByte (s : State) : Prop := s.ring.wr.toNat < s.cfg.nSlots ∧ s.rx.count.toNat < s.cfg.mtuMax + 2

/-- Memory `m'` is `m` but for one byte: `slot[i].data[k]` is `b`. -/
def storesOne (m m' : Memory) (i k : Nat) (b : Byte) : Prop :=
  m'.read (slotAddr i k) = b ∧ ∀ a, a ≠ slotAddr i k → m'.read a = m.read a

/-- R137: the registers and the header that a commit of `n` data-phase bytes writes. -/
def committed (s : State) (n : U16) : State :=
  { s with
    slotHdrs := s.slotHdrs.set s.ring.wr.toNat { len := n - 2, proto := s.rx.proto }
    ring.wr := BitVec.ofNat 8 ((s.ring.wr.toNat + 1) % s.cfg.nSlots)
    ring.count := s.ring.count + 1
    response := some (0x000100#24 ++ s.ring.wr) }

/-- R137, R139: `t` is `s` after the frame `(p, payload)` was committed to the slot being filled: the last step answered
its commit, the slot's header and its bytes are those sent, the two FCS bytes included, and nothing else changed but the
receiver's own registers. -/
def frameReceived (p : U16) (payload : List Byte) (s t : State) : Prop :=
  t = { s with
    rx := t.rx
    ring := { s.ring with
      wr := BitVec.ofNat 8 ((s.ring.wr.toNat + 1) % s.cfg.nSlots), count := s.ring.count + 1 }
    slotHdrs := s.slotHdrs.set s.ring.wr.toNat { len := BitVec.ofNat 16 payload.length, proto := p }
    slotMem := t.slotMem
    response := some (0x000100#24 ++ s.ring.wr)
    txOut := none } ∧
  slotBytes s.ring.wr.toNat t 0 (payload.length + 2) = .ok (payload ++ frameFcsBytes p payload) ∧
  ∀ a, (∀ k < payload.length + 2, a ≠ slotAddr s.ring.wr.toNat k) → t.slotMem.read a = s.slotMem.read a

end Sys2Proof.Spec

open Sys2Proof.Spec

/-- R79: the example words of the assembler table decode to the commands they stand for. -/
def Obligations.DecodesWrittenOutWords : Prop :=
  decode 0x1000007E [] = .ok (.rxByte 0x7E) ∧ decode 0x20000000 [] = .ok .txDone ∧
    decode 0x30000021 [[0x45]] = .ok (.txStart 0x0021 [[0x45]]) ∧ decode 0x40000000 [] = .ok .qPop ∧
    decode 0x50000000 [] = .ok .qHeadProto ∧ decode 0x60000000 [] = .ok .qHeadLen ∧
    decode 0x70000003 [] = .ok (.qHeadByte 3) ∧ decode 0x80000000 [] = .ok (.regRead 0x00) ∧
    decode 0x900105D4 [] = .ok (.regWrite 0x01 1492) ∧ decode 0xA0000000 [] = .ok .crcSeed ∧
    decode 0xB0FFFFFF [] = .ok (.crcUpdate 0xFFFF 0xFF) ∧ decode 0xC000191C [] = .ok (.crcFinal 0x191C) ∧
    decode 0xD0000000 [] = .ok .reset

/-- R71, R72, R77: decoding the word and chain of any command gives it back, with every operand. -/
def Obligations.DecodeOfEncode : Prop :=
  ∀ i : Instr, decode (encodeWord i) (encodeChain i) = .ok i

/-- R71, R77: each word has one meaning: a word that decodes, with a chain only where R70 allows one, is the encoding of
what it decodes to. -/
def Obligations.EncodeOfDecode : Prop :=
  ∀ (w : Word) (chain : Chain) (i : Instr), chainPlaced w chain = true → decode w chain = .ok i →
    encodeWord i = w ∧ encodeChain i = chain

/-- R71, R78: exactly the words with a reserved OP or a reserved bit set are rejected, each under its own name. -/
def Obligations.IllegalWordsRejected : Prop :=
  ∀ (w : Word) (chain : Chain),
    (decode w chain = .error .reservedOpcode ↔ w.extractLsb' 28 4 ∈ [0x0#4, 0xE#4, 0xF#4]) ∧
    (decode w chain = .error .reservedBit ↔ reservedBitSet w)

/-- R5, R61: a step takes the first command issued, whoever issued it (R240), and runs what it decodes to. The line of
commands is the model's (notes/assumptions/1.md). -/
def Obligations.StepRunsDecodedCommand : Prop :=
  ∀ (s : State) (c : Command) (rest : List Command) (i : Instr), startOk s = true → s.pending = c :: rest →
    decode c.word c.chain = .ok i → step s = exec i { s with pending := rest }

/-- R78: a word with a reserved OP or a reserved bit set is answered RC_ILLEGAL, changes no register and drives
nothing. That the step takes the command off the line is the model's (notes/assumptions/1.md), and no rule of the
spec. -/
def Obligations.StepAnswersIllegalWord : Prop :=
  ∀ (s : State) (c : Command) (rest : List Command), startOk s = true → s.pending = c :: rest →
    (c.word.extractLsb' 28 4 ∈ [0x0#4, 0xE#4, 0xF#4] ∨ reservedBitSet c.word) →
    step s = .next { s with pending := rest, response := some 0xF0000000, txOut := none }

/-- R246, as the model reads it (notes/assumptions/2.md, DEDUCED): with no command a step keeps every register. -/
def Obligations.StepWithoutCommand : Prop :=
  ∀ s : State, startOk s = true → s.pending = [] → step s = .next { s with response := none, txOut := none }

/-- R238, which the spec derives: a start state that holds one of the values never reached is refused. -/
def Obligations.StepRefusesUnreachableStart : Prop :=
  ∀ s : State,
    ((s.tx.escPend = true ∧ (s.tx.state = .idle ∨ s.tx.state = .closingFlag)) ∨ s.cfg.nSlots < s.ring.count.toNat ∨
      s.cfg.nSlots ≤ s.ring.rd.toNat ∨ s.cfg.nSlots ≤ s.ring.wr.toNat ∨ s.rx.limit.toNat + 2 < s.rx.count.toNat) →
    step s = .refused .unreachableStart

/-- R104: CRC_SEED answers 0x0000FFFF and writes no register. -/
def Obligations.CrcSeedResult : Prop :=
  ∀ s : State, exec .crcSeed s = .next { s with response := some 0x0000FFFF, txOut := none }

/-- R102, R105: CRC_UPDATE answers `(c >> 8) ^ table[(c ^ b) & 0xFF]`, for every c and b, and writes no register; the
table is the one R101 prints, which the spec takes from general knowledge (G1; notes/assumptions/16.md). -/
def Obligations.CrcUpdateFollowsPrintedTable : Prop :=
  ∀ (c : U16) (b : Byte) (s : State), ∃ v : U16,
    fcsPrintedTable[((c ^^^ b.setWidth 16) &&& 0x00FF).toNat]? = some v ∧
      exec (.crcUpdate c b) s = .next (answered s ((c >>> 8) ^^^ v))

/-- R103, R106: CRC_FINAL answers `c ^ 0xFFFF` and writes no register; it undoes itself. -/
def Obligations.CrcFinalResult : Prop :=
  ∀ (c : U16) (s : State), exec (.crcFinal c) s = .next (answered s (c ^^^ 0xFFFF)) ∧
    exec (.crcFinal (c ^^^ 0xFFFF)) s = .next (answered s c)

/-- R101: the printed table has 256 entries, and entry i is eight steps of the division from i, the generation rule the
spec takes from general knowledge (G1; notes/assumptions/16.md). -/
def Obligations.PrintedTableFollowsPolynomial : Prop :=
  fcsPrintedTable.length = 256 ∧ ∀ i : Byte, fcsPrintedTable[i.toNat]? = some (fcsTable i)

/-- R110 (b), which the spec takes from general knowledge: the frame check holds exactly on the residue 0xF0B8. -/
def Obligations.FcsCheckIsResidue : Prop :=
  ∀ (p : U16) (d : List Byte), 2 ≤ d.length →
    (fcsOk p d = true ↔ crcFold 0xFFFF ([0xFF, 0x03, hiByte p, loByte p] ++ d) = 0xF0B8)

/-- R109: the frame check compares the FCS over the header and the payload with the last two bytes, low byte first. -/
def Obligations.FcsCheckIsLittleEndian : Prop :=
  ∀ (p : U16) (payload : List Byte) (lo hi : Byte),
    fcsOk p (payload ++ [lo, hi]) = true ↔
      crcFold 0xFFFF ([0xFF, 0x03, hiByte p, loByte p] ++ payload) ^^^ 0xFFFF = hi ++ lo

/-- R84: the escape functions byte by byte; `unescape(escape(s)) = s` for every s, and `escape(s) = s` when s holds no
0x7E and no 0x7D. -/
def Obligations.UnescapeUndoesEscape : Prop :=
  escape [] = [] ∧ unescape [] = [] ∧
    (∀ b s, escape (b :: s) = (if b = 0x7E ∨ b = 0x7D then [0x7D, b ^^^ 0x20] else [b]) ++ escape s) ∧
    (∀ c s, unescape (0x7D :: c :: s) = (c ^^^ 0x20) :: unescape s) ∧
    (∀ c s, c ≠ 0x7D → unescape (c :: s) = c :: unescape s) ∧
    ∀ s, unescape (escape s) = s ∧ ((∀ b ∈ s, b ≠ 0x7E ∧ b ≠ 0x7D) → escape s = s)

/-- R83, and R173, which the spec derives: between its two flags a frame holds no raw 0x7E, and its length is 8 + L + e.
-/
def Obligations.EncodedFrameShape : Prop :=
  ∀ (p : U16) (payload : List Byte),
    (∃ body : List Byte, encodeFrame p payload = [0x7E] ++ body ++ [0x7E] ∧ ∀ b ∈ body, b ≠ 0x7E) ∧
      (encodeFrame p payload).length = 8 + payload.length + escapedCount p payload

/-- R160, R161: an accepted TX_START captures the chain, primes the FCS and drives the opening flag. -/
def Obligations.TxStartBeginsFrame : Prop :=
  ∀ (p : U16) (chain : Chain) (s : State), s.tx.state = .idle → 1 ≤ chain.flatten.length →
    chain.flatten.length ≤ 65535 →
    exec (.txStart p chain) s = .next { s with
      tx.payload := chain.flatten, tx.len := BitVec.ofNat 16 chain.flatten.length, tx.index := 0, tx.proto := p
      tx.fcs := 0xFFFF, tx.escPend := false, tx.state := .flag, response := some 0x0001007E, txOut := some 0x7E }

/-- R162: RC_BUSY while a frame is in progress or for an empty chain, then RC_RANGE above 65535 bytes; a refused
TX_START changes no register and drives nothing. -/
def Obligations.TxStartRefusals : Prop :=
  ∀ (p : U16) (chain : Chain) (s : State),
    ((s.tx.state ≠ .idle ∨ chain.flatten.length = 0) → exec (.txStart p chain) s = .next (refusedWith s 0x1)) ∧
    (s.tx.state = .idle → 65535 < chain.flatten.length → exec (.txStart p chain) s = .next (refusedWith s 0x3))

/-- R172: a TX_DONE in IDLE drives nothing, changes nothing and answers 0x00000000. -/
def Obligations.TxDoneInIdle : Prop :=
  ∀ s : State, s.tx.state = .idle → exec .txDone s = .next { s with response := some 0x00000000, txOut := none }

/-- R165: with an escape pending the next TX_DONE drives its second byte, clears the mark and does nothing else. -/
def Obligations.TxDoneSendsPendingEscape : Prop :=
  ∀ s : State, s.tx.state ≠ .idle → s.tx.escPend = true →
    exec .txDone s = .next { s with
      tx.escPend := false, response := some (0x000100#24 ++ s.tx.escByte), txOut := some s.tx.escByte }

/-- R168: the header: address, control, protocol-hi and protocol-lo, each fed to the FCS and stuffed. -/
def Obligations.TxDoneHeader : Prop :=
  ∀ s : State, s.tx.escPend = false →
    (s.tx.state = .flag → exec .txDone s = .next { s with
      tx.state := .address, tx.fcs := crcUpdate s.tx.fcs 0xFF, response := some 0x000100FF, txOut := some 0xFF }) ∧
    (s.tx.state = .address → exec .txDone s = .next { s with
      tx.state := .control, tx.fcs := crcUpdate s.tx.fcs 0x03, response := some 0x00010003, txOut := some 0x03 }) ∧
    (s.tx.state = .control → exec .txDone s = .next (stuffed { s with
      tx.state := .protoHi, tx.fcs := crcUpdate s.tx.fcs (s.tx.proto.extractLsb' 8 8) } (s.tx.proto.extractLsb' 8 8))) ∧
    (s.tx.state = .protoHi → exec .txDone s = .next (stuffed { s with
      tx.state := .protoLo, tx.fcs := crcUpdate s.tx.fcs (s.tx.proto.extractLsb' 0 8) } (s.tx.proto.extractLsb' 0 8)))

/-- R169: the payload byte at `tx_index` is fed to the FCS, stuffed and driven, and `tx_index` moves on. -/
def Obligations.TxDonePayload : Prop :=
  ∀ (s : State) (b : Byte), s.tx.escPend = false → (s.tx.state = .protoLo ∨ s.tx.state = .data) →
    s.tx.index.toNat < s.tx.len.toNat → s.tx.payload[s.tx.index.toNat]? = some b →
    exec .txDone s = .next (stuffed { s with
      tx.state := .data, tx.fcs := crcUpdate s.tx.fcs b, tx.index := s.tx.index + 1 } b)

/-- R170: the payload exhausted, the FCS is finalized and its low byte driven, then its high byte; both stuffed and
neither fed to the FCS. -/
def Obligations.TxDoneFcs : Prop :=
  ∀ s : State, s.tx.escPend = false →
    ((s.tx.state = .protoLo ∨ s.tx.state = .data) → s.tx.index = s.tx.len →
      exec .txDone s = .next (stuffed { s with
        tx.state := .fcsLo, tx.fcs := s.tx.fcs ^^^ 0xFFFF } ((s.tx.fcs ^^^ 0xFFFF).extractLsb' 0 8))) ∧
    (s.tx.state = .fcsLo → exec .txDone s = .next (stuffed { s with tx.state := .fcsHi } (s.tx.fcs.extractLsb' 8 8)))

/-- R171: the closing flag is driven, never stuffed; the TX_DONE after it drives nothing, writes only `tx_state` and
answers TXE_DONE; TX_START is refused until that step and accepted after it. -/
def Obligations.TxDoneClosing : Prop :=
  ∀ s : State, s.tx.escPend = false →
    (s.tx.state = .fcsHi → exec .txDone s = .next { s with
      tx.state := .closingFlag, response := some 0x0001007E, txOut := some 0x7E }) ∧
    (s.tx.state = .closingFlag →
      (∀ p chain, exec (.txStart p chain) s = .next (refusedWith s 0x1)) ∧
      ∃ t, t = { s with tx.state := .idle, response := some 0x00020000, txOut := none } ∧
        exec .txDone s = .next t ∧
        ∀ (p : U16) (chain : Chain), 1 ≤ chain.flatten.length → chain.flatten.length ≤ 65535 →
          ∃ u, exec (.txStart p chain) t = .next u ∧ u.response = some 0x0001007E)

/-- R173, which the spec derives: an accepted TX_START and the TX_DONE steps after it drive exactly
`encode_frame(p, P)`; with `W = 8 + L + e` the first W of these W + 1 steps drive its W bytes, and the last answers
TXE_DONE in IDLE. -/
def Obligations.TxSendsEncodedFrame : Prop :=
  ∀ (p : U16) (chain : Chain) (s : State), s.tx.state = .idle → 1 ≤ chain.flatten.length →
    chain.flatten.length ≤ 65535 →
    ∃ t : State,
      runAll (.txStart p chain :: txDrain (8 + chain.flatten.length + escapedCount p chain.flatten)) s =
        some (t, encodeFrame p chain.flatten) ∧
      t.tx.state = .idle ∧ t.response = some 0x00020000 ∧ t.txOut = none

/-- R167: what `tx_fcs` holds in each state is kept by every step. -/
def Obligations.RunningFcsKept : Prop :=
  ∀ s t : State, Inv s → RunningFcs s → step s = .next t → RunningFcs t

/-- R174: TX_START and TX_DONE depend on the transmitter's registers alone, and write no others: from two states that
agree on those, they leave the same ones, answer the same word and drive the same byte. -/
def Obligations.TxIndependentOfReceiver : Prop :=
  ∀ (i : Instr) (s s' t : State), (i = .txDone ∨ ∃ p chain, i = .txStart p chain) → s.tx = s'.tx →
    exec i s = .next t →
    t = { s with tx := t.tx, response := t.response, txOut := t.txOut } ∧
      exec i s' = .next { s' with tx := t.tx, response := t.response, txOut := t.txOut }

/-- R121: a raw 0x7D sets the latch, whether it was 0 or 1, in every state, with no other effect. -/
def Obligations.RxEscapeSetsLatch : Prop :=
  ∀ s : State, exec (.rxByte 0x7D) s = .next { s with rx.esc := true, response := some 0x00000000, txOut := none }

/-- R122: every raw 0x7E is a flag, whatever the latch holds: it clears the latch and the receiver is in ADDR after it.
Outside DATA nothing else is written, and the event is EV_NONE in HUNT and ADDR and EV_ABORT otherwise; in DATA
`rx_count`, `rx_limit`, `rx_proto` and `rx_drop` are kept. -/
def Obligations.RxFlagResynchronizes : Prop :=
  ∀ s : State,
    (s.rx.state = .hunt ∨ s.rx.state = .addr → exec (.rxByte 0x7E) s = .next { s with
      rx.esc := false, rx.state := .addr, response := some 0x00000000, txOut := none }) ∧
    (s.rx.state ∈ [.ctrl, .protoHi, .protoLo, .fcsLo, .fcsHi] → exec (.rxByte 0x7E) s = .next { s with
      rx.esc := false, rx.state := .addr, response := some 0x00040000, txOut := none }) ∧
    (∀ t, s.rx.state = .data → exec (.rxByte 0x7E) s = .next t →
      t.rx = { s.rx with esc := false, state := .addr })

/-- R121, R123 to R125: a field byte in HUNT is discarded; the address must be 0xFF and the control 0x03, or the
receiver is back in HUNT with EV_DESYNC and no counter changes. -/
def Obligations.RxHuntAddressControl : Prop :=
  ∀ (b : Byte) (s : State), b ≠ 0x7E → b ≠ 0x7D →
    (s.rx.state = .hunt →
      exec (.rxByte b) s = .next { s with rx.esc := false, response := some 0x00000000, txOut := none }) ∧
    (s.rx.state = .addr → fieldByte s b = 0xFF → exec (.rxByte b) s = .next { s with
      rx.esc := false, rx.state := .ctrl, response := some 0x00000000, txOut := none }) ∧
    (s.rx.state = .ctrl → fieldByte s b = 0x03 → exec (.rxByte b) s = .next { s with
      rx.esc := false, rx.state := .protoHi, response := some 0x00000000, txOut := none }) ∧
    ((s.rx.state = .addr ∧ fieldByte s b ≠ 0xFF) ∨ (s.rx.state = .ctrl ∧ fieldByte s b ≠ 0x03) →
      exec (.rxByte b) s = .next { s with
        rx.esc := false, rx.state := .hunt, response := some 0x00030000, txOut := none })

/-- R126, R127: the protocol field, high byte first, any value; its low byte starts the data phase and latches `mtu`. -/
def Obligations.RxProtocolBytes : Prop :=
  ∀ (b : Byte) (s : State), b ≠ 0x7E → b ≠ 0x7D →
    (s.rx.state = .protoHi → exec (.rxByte b) s = .next { s with
      rx.esc := false, rx.state := .protoLo, rx.proto := fieldByte s b ++ s.rx.proto.extractLsb' 0 8
      response := some 0x00000000, txOut := none }) ∧
    (s.rx.state = .protoLo → exec (.rxByte b) s = .next { s with
      rx.esc := false, rx.proto := s.rx.proto.extractLsb' 8 8 ++ fieldByte s b, rx.count := 0, rx.drop := false
      rx.limit := s.mtu, rx.state := if s.mtu = 0 then .fcsLo else .data
      response := some 0x00000000, txOut := none })

/-- R128, R129, R131: a field byte in DATA or FCS_LO is counted; with room in the ring it is stored at `rx_count` of the
fill slot and at no other place, and while the ring is full it is stored nowhere and the frame is marked dropped. DATA
goes to FCS_LO when `rx_count` reaches `rx_limit`, FCS_LO to FCS_HI. -/
def Obligations.RxStoresFieldByte : Prop :=
  ∀ (b : Byte) (s : State), b ≠ 0x7E → b ≠ 0x7D →
    (¬ full s → roomForByte s →
      ∃ m : Memory, storesOne s.slotMem m s.ring.wr.toNat s.rx.count.toNat (fieldByte s b) ∧
        (s.rx.state = .data → exec (.rxByte b) s = .next { s with
          slotMem := m, rx.esc := false, rx.count := s.rx.count + 1
          rx.state := if s.rx.count + 1 = s.rx.limit then .fcsLo else .data
          response := some 0x00000000, txOut := none }) ∧
        (s.rx.state = .fcsLo → exec (.rxByte b) s = .next { s with
          slotMem := m, rx.esc := false, rx.count := s.rx.count + 1, rx.state := .fcsHi
          response := some 0x00000000, txOut := none })) ∧
    (full s →
      (s.rx.state = .data → exec (.rxByte b) s = .next { s with
        rx.esc := false, rx.drop := true, rx.count := s.rx.count + 1
        rx.state := if s.rx.count + 1 = s.rx.limit then .fcsLo else .data
        response := some 0x00000000, txOut := none }) ∧
      (s.rx.state = .fcsLo → exec (.rxByte b) s = .next { s with
        rx.esc := false, rx.drop := true, rx.count := s.rx.count + 1, rx.state := .fcsHi
        response := some 0x00000000, txOut := none }))

/-- R130, R133, R136, R137: the explicit FCS-high byte, with nothing of the frame dropped and a slot free, is stored and
ends the frame: commit or EV_FCS_ERR by the check over the stored bytes; the receiver is in HUNT, whatever the outcome.
-/
def Obligations.RxExplicitFcsEndsFrame : Prop :=
  ∀ (b : Byte) (s : State) (d : List Byte), b ≠ 0x7E → b ≠ 0x7D → s.cfg.wellFormed = true → s.rx.state = .fcsHi →
    1 ≤ s.rx.count.toNat → s.rx.drop = false → ¬ full s → roomForByte s →
    slotBytes s.ring.wr.toNat s 0 s.rx.count.toNat = .ok d →
    ∃ m : Memory, storesOne s.slotMem m s.ring.wr.toNat s.rx.count.toNat (fieldByte s b) ∧
      (fcsOk s.rx.proto (d ++ [fieldByte s b]) = true → exec (.rxByte b) s = .next (committed { s with
        slotMem := m, rx.esc := false, rx.count := s.rx.count + 1, rx.state := .hunt, txOut := none } (s.rx.count + 1))) ∧
      (fcsOk s.rx.proto (d ++ [fieldByte s b]) = false → exec (.rxByte b) s = .next { s with
        slotMem := m, rx.esc := false, rx.count := s.rx.count + 1, rx.state := .hunt
        response := some 0x00020000, txOut := none })

/-- R134: a closing flag with fewer than two data-phase bytes discards the frame with EV_RUNT; no counter, slot or index
changes. -/
def Obligations.RxRuntDiscarded : Prop :=
  ∀ s : State, s.rx.state = .data → s.rx.count.toNat < 2 →
    exec (.rxByte 0x7E) s = .next { s with
      rx.esc := false, rx.state := .addr, response := some 0x00050000, txOut := none }

/-- R135: a frame of at least two bytes that ends with `rx_drop = 1` or the ring full is discarded and counted, without
a look at its FCS and with no slot header or index changed; on a closing flag, and on the explicit FCS-high byte (whose
own store follows R131). -/
def Obligations.RxOverflowCounted : Prop :=
  (∀ s : State, s.rx.state = .data → 2 ≤ s.rx.count.toNat → (s.rx.drop = true ∨ full s) →
    exec (.rxByte 0x7E) s = .next { s with
      rx.esc := false, rx.state := .addr, ovfCount := s.ovfCount + 1, response := some 0x00060000, txOut := none }) ∧
  (∀ (b : Byte) (s : State), b ≠ 0x7E → b ≠ 0x7D → s.rx.state = .fcsHi → 1 ≤ s.rx.count.toNat →
    s.rx.count.toNat < 65535 → full s →
    exec (.rxByte b) s = .next { s with
      rx.esc := false, rx.state := .hunt, rx.drop := true, rx.count := s.rx.count + 1, ovfCount := s.ovfCount + 1
      response := some 0x00060000, txOut := none }) ∧
  (∀ (b : Byte) (s : State), b ≠ 0x7E → b ≠ 0x7D → s.cfg.wellFormed = true → s.rx.state = .fcsHi →
    1 ≤ s.rx.count.toNat → s.rx.drop = true → ¬ full s → roomForByte s →
    ∃ m : Memory, storesOne s.slotMem m s.ring.wr.toNat s.rx.count.toNat (fieldByte s b) ∧
      exec (.rxByte b) s = .next { s with
        slotMem := m, rx.esc := false, rx.state := .hunt, rx.count := s.rx.count + 1, ovfCount := s.ovfCount + 1
        response := some 0x00060000, txOut := none })

/-- R132, R133, R136, R137: a closing flag in DATA, with nothing of the frame dropped and a slot free, commits the frame
exactly when its FCS checks, and otherwise discards it with EV_FCS_ERR and writes nothing else; ADDR after both. -/
def Obligations.RxClosingFlagChecksFcs : Prop :=
  ∀ (s : State) (d : List Byte), s.rx.state = .data → 2 ≤ s.rx.count.toNat → s.rx.drop = false → ¬ full s →
    slotBytes s.ring.wr.toNat s 0 s.rx.count.toNat = .ok d →
    (fcsOk s.rx.proto d = true → exec (.rxByte 0x7E) s = .next (committed { s with
      rx.esc := false, rx.state := .addr, txOut := none } s.rx.count)) ∧
    (fcsOk s.rx.proto d = false → exec (.rxByte 0x7E) s = .next { s with
      rx.esc := false, rx.state := .addr, response := some 0x00020000, txOut := none })

/-- R139, which the spec derives: a frame `encode_frame(p, P)` with `len(P) <= mtu - 3`, received in HUNT or ADDR with a
slot free, is committed on its closing flag, which leaves the receiver in ADDR. -/
def Obligations.RxReceivesShortFrame : Prop :=
  ∀ (p : U16) (payload : List Byte) (s : State), Inv s → (s.rx.state = .hunt ∨ s.rx.state = .addr) → ¬ full s →
    payload.length + 3 ≤ s.mtu.toNat →
    ∃ t : State, runAll (rxFrame p payload) s = some (t, []) ∧ frameReceived p payload s t ∧ t.rx.state = .addr

/-- R139, R130, which the spec derives: a frame with `len(P) = mtu` is committed on its FCS-high byte, by the
explicit-FCS path; its closing flag then only moves HUNT to ADDR. -/
def Obligations.RxReceivesFullFrame : Prop :=
  ∀ (p : U16) (payload : List Byte) (s : State), Inv s → (s.rx.state = .hunt ∨ s.rx.state = .addr) → ¬ full s →
    payload.length = s.mtu.toNat →
    ∃ t : State, runAll (rxStream (encodeFrame p payload).dropLast) s = some (t, []) ∧ frameReceived p payload s t ∧
      t.rx.state = .hunt ∧
      runAll (rxFrame p payload) s = some ({ t with rx.state := .addr, response := some 0x00000000 }, [])

/-- R139, C2, which the spec derives: a frame with `len(P) = mtu - 2` or `mtu - 1` is not received: its closing flag
arrives in FCS_LO or FCS_HI and ends it with EV_ABORT; nothing changes but the receiver's registers and bytes of the
slot being filled. -/
def Obligations.RxLosesTwoLengths : Prop :=
  ∀ (p : U16) (payload : List Byte) (s : State), Inv s → (s.rx.state = .hunt ∨ s.rx.state = .addr) →
    (payload.length + 2 = s.mtu.toNat ∨ payload.length + 1 = s.mtu.toNat) →
    ∃ t : State, runAll (rxFrame p payload) s = some (t, []) ∧ t.rx.state = .addr ∧
      t = { s with rx := t.rx, slotMem := t.slotMem, response := some 0x00040000, txOut := none } ∧
      ∀ a, (∀ k < s.cfg.slotCap, a ≠ slotAddr s.ring.wr.toNat k) → t.slotMem.read a = s.slotMem.read a

/-- R141, R174, and R236, which the spec derives: an RX_BYTE and a TX_START, TX_DONE or CRC command commute: in either
order each answers the same word and drives the same byte, and the machine ends in the same registers. -/
def Obligations.RxCommutesWithTxAndCrc : Prop :=
  ∀ (b : Byte) (i : Instr) (s t u : State),
    (i = .txDone ∨ (∃ p chain, i = .txStart p chain) ∨ i = .crcSeed ∨ (∃ c x, i = .crcUpdate c x) ∨
      ∃ c, i = .crcFinal c) →
    exec (.rxByte b) s = .next t → exec i t = .next u →
    ∃ t' u' : State, exec i s = .next t' ∧ exec (.rxByte b) t' = .next u' ∧
      t'.response = u.response ∧ t'.txOut = u.txOut ∧ u'.response = t.response ∧ u'.txOut = t.txOut ∧
      u' = { u with response := u'.response, txOut := u'.txOut }

/-- R51, which the spec derives: the receiver never writes a committed, unpopped slot: its header and every one of its
bytes read as before. -/
def Obligations.CommittedSlotsUntouched : Prop :=
  ∀ (b : Byte) (s t : State) (j k : Nat), Inv s → exec (.rxByte b) s = .next t → j < s.ring.count.toNat →
    k < s.cfg.slotCap →
    t.slotHdrs[ringIndex s j]? = s.slotHdrs[ringIndex s j]? ∧
      t.slotMem.read (slotAddr (ringIndex s j) k) = s.slotMem.read (slotAddr (ringIndex s j) k)

/-- R190: Q_POP answers the head index and moves it on, modulo N; on an empty ring it answers RC_EMPTY and changes
nothing. -/
def Obligations.QPopResult : Prop :=
  ∀ s : State,
    (s.ring.count ≠ 0 → exec .qPop s = .next { s with
      ring.rd := BitVec.ofNat 8 ((s.ring.rd.toNat + 1) % s.cfg.nSlots), ring.count := s.ring.count - 1
      response := some (0x000000#24 ++ s.ring.rd), txOut := none }) ∧
    (s.ring.count = 0 → exec .qPop s = .next (refusedWith s 0x2))

/-- R191, R192, R194: the head slot's protocol id with its class, and its length; RC_EMPTY on an empty ring. -/
def Obligations.HeadProtoAndLen : Prop :=
  ∀ (s : State) (h : SlotHeader),
    (s.ring.count ≠ 0 → s.slotHdrs[s.ring.rd.toNat]? = some h →
      exec .qHeadLen s = .next (answered s h.len) ∧
      exec .qHeadProto s = .next { s with
        response := some ((if h.proto = 0x0021 then 0x0001#16 else if h.proto = 0xC021 then 0x0002#16 else 0x0000#16)
          ++ h.proto), txOut := none }) ∧
    (s.ring.count = 0 → exec .qHeadLen s = .next (refusedWith s 0x2) ∧ exec .qHeadProto s = .next (refusedWith s 0x2))

/-- R193: RC_EMPTY on an empty ring, then RC_RANGE from index `len + 2` on, then the byte. -/
def Obligations.HeadByte : Prop :=
  ∀ (i : U16) (s : State) (h : SlotHeader) (b : Byte),
    (s.ring.count = 0 → exec (.qHeadByte i) s = .next (refusedWith s 0x2)) ∧
    (s.ring.count ≠ 0 → s.slotHdrs[s.ring.rd.toNat]? = some h → h.len.toNat + 2 ≤ i.toNat →
      exec (.qHeadByte i) s = .next (refusedWith s 0x3)) ∧
    (s.ring.count ≠ 0 → s.slotHdrs[s.ring.rd.toNat]? = some h → i.toNat < h.len.toNat + 2 →
      slotRead s.ring.rd.toNat i.toNat s = .ok b →
      exec (.qHeadByte i) s = .next (answered s (0x00#8 ++ b)))

/-- R195, which the spec derives: over any sequence of commands without RESET, from a state of the invariant, `q_wr` has
moved on by the commits and `q_rd` by the successful pops, modulo N, and `q_count` by their difference. -/
def Obligations.RingCountsCommitsAndPops : Prop :=
  ∀ (is : List Instr) (s t : State) (commits pops : Nat), Inv s → (∀ i ∈ is, i ≠ .reset) →
    ringEvents is s = some (t, commits, pops) →
    t.ring.wr.toNat = (s.ring.wr.toNat + commits) % s.cfg.nSlots ∧ t.ring.rd.toNat = (s.ring.rd.toNat + pops) % s.cfg.nSlots ∧
      t.ring.count.toNat + pops = s.ring.count.toNat + commits

/-- R32, R210, R211: the contents of every CSR, `statusWord` (StatusFields) and the registers; RC_RANGE from 0x10 on. -/
def Obligations.RegReadContents : Prop :=
  ∀ s : State,
    exec (.regRead 0x00) s = .next (answered s (statusWord s)) ∧
    exec (.regRead 0x01) s = .next (answered s s.mtu) ∧
    exec (.regRead 0x02) s = .next (answered s (0x00#8 ++ s.ring.count)) ∧
    exec (.regRead 0x03) s = .next (answered s (0x00#8 ++ s.ring.rd)) ∧
    exec (.regRead 0x04) s = .next (answered s (0x00#8 ++ s.ring.wr)) ∧
    exec (.regRead 0x05) s = .next (answered s s.ovfCount) ∧
    exec (.regRead 0x06) s = .next (answered s s.rx.count) ∧
    exec (.regRead 0x07) s = .next (answered s s.rx.proto) ∧
    exec (.regRead 0x08) s = .next (answered s s.rx.limit) ∧
    exec (.regRead 0x09) s = .next (answered s s.tx.proto) ∧
    exec (.regRead 0x0A) s = .next (answered s s.tx.fcs) ∧
    exec (.regRead 0x0B) s = .next (answered s s.tx.index) ∧
    exec (.regRead 0x0C) s = .next (answered s s.tx.len) ∧
    exec (.regRead 0x0D) s = .next (answered s (0x00#8 ++ s.tx.escByte)) ∧
    exec (.regRead 0x0E) s = .next (answered s (BitVec.ofNat 16 s.cfg.mtuMax)) ∧
    exec (.regRead 0x0F) s = .next (answered s (BitVec.ofNat 16 s.cfg.nSlots)) ∧
    ∀ a : Byte, 0x0F < a.toNat → exec (.regRead a) s = .next (refusedWith s 0x3)

/-- R33, R37: the fields of STATUS, and with R23 and R25 the numbers of the states it shows. -/
def Obligations.StatusFields : Prop :=
  ∀ s : State, ∃ v : U16, exec (.regRead 0x00) s = .next (answered s v) ∧
    v.extractLsb' 0 3 = s.rx.state.code ∧ v.getLsbD 3 = s.rx.esc ∧ v.extractLsb' 4 4 = s.tx.state.code ∧
    v.getLsbD 8 = s.tx.escPend ∧ (v.getLsbD 9 = true ↔ s.tx.state ≠ .idle) ∧ (v.getLsbD 10 = true ↔ s.ring.count ≠ 0) ∧
    v.getLsbD 11 = s.rx.drop ∧ (v.getLsbD 12 = true ↔ full s) ∧ v.extractLsb' 13 3 = 0#3 ∧
    [RxState.hunt, .addr, .ctrl, .protoHi, .protoLo, .data, .fcsLo, .fcsHi].map RxState.code =
      [0#3, 1#3, 2#3, 3#3, 4#3, 5#3, 6#3, 7#3] ∧
    [TxState.idle, .flag, .address, .control, .protoHi, .protoLo, .data, .fcsLo, .fcsHi, .closingFlag].map
      TxState.code = [0#4, 1#4, 2#4, 3#4, 4#4, 5#4, 6#4, 7#4, 8#4, 9#4]

/-- R212, R213: a REG_WRITE of MTU up to MTU_MAX sets `mtu` and nothing else, the limit of the frame in progress
included; the refusals come in their order: unassigned, read-only, value out of range. -/
def Obligations.RegWriteMtuOnly : Prop :=
  ∀ (a : Byte) (v : U16) (s : State),
    (v.toNat ≤ s.cfg.mtuMax → exec (.regWrite 0x01 v) s = .next { s with
      mtu := v, response := some 0x00000000, txOut := none }) ∧
    (0x0F < a.toNat → exec (.regWrite a v) s = .next (refusedWith s 0x3)) ∧
    (a.toNat ≤ 0x0F → a ≠ 0x01 → exec (.regWrite a v) s = .next (refusedWith s 0x4)) ∧
    (s.cfg.mtuMax < v.toNat → exec (.regWrite 0x01 v) s = .next (refusedWith s 0x3))

/-- R215, R34: RESET puts every register at its reset value, `mtu` at MTU_MAX, empties the ring, writes no slot storage
and drives nothing. -/
def Obligations.ResetResult : Prop :=
  ∀ s : State, exec .reset s = .next { s with
    rx := { state := .hunt, esc := false, count := 0, limit := 0, proto := 0, drop := false }
    tx := { state := .idle, escPend := false, escByte := 0, fcs := 0, proto := 0, index := 0, len := 0, payload := [] }
    ring := { count := 0, rd := 0, wr := 0 }
    ovfCount := 0
    mtu := BitVec.ofNat 16 s.cfg.mtuMax
    response := some 0x00000000
    txOut := none }

/-- R216, R34: at power-on, over any parameters and any slot storage (U5), every register holds the value RESET gives
it: RESET leaves the power-on state of the same parameters and storage, its answer and the line of commands
(notes/assumptions/1.md) apart. -/
def Obligations.PowerOnIsReset : Prop :=
  ∀ s : State, ∃ t : State, exec .reset s = .next t ∧
    t = { State.powerOn s.cfg s.slotHdrs s.slotMem with response := some 0x00000000, pending := s.pending } ∧
    ∀ (hdrs : List SlotHeader) (mem : Memory),
      (State.powerOn s.cfg hdrs mem).rx = t.rx ∧ (State.powerOn s.cfg hdrs mem).tx = t.tx ∧
        (State.powerOn s.cfg hdrs mem).ring = t.ring ∧ (State.powerOn s.cfg hdrs mem).ovfCount = t.ovfCount ∧
        (State.powerOn s.cfg hdrs mem).mtu = t.mtu ∧ (State.powerOn s.cfg hdrs mem).cfg = t.cfg ∧
        (State.powerOn s.cfg hdrs mem).txOut = none

/-- R216, R34: the invariant, which the spec derives (R27, R138, R175, R238), holds after power-on, over every legal `N`
and `MTU_MAX` and every slot storage (U5). -/
def Obligations.InvAtPowerOn : Prop :=
  ∀ (c : Config) (hdrs : List SlotHeader) (mem : Memory), c.wellFormed = true → powerOnStorage c hdrs mem →
    Inv (State.powerOn c hdrs mem)

/-- R27, R138, R175, R238, which the spec derives: every step keeps the invariant. -/
def Obligations.StepKeepsInv : Prop :=
  ∀ s t : State, Inv s → step s = .next t → Inv t

/-- R230: no command stops or faults: in every state of the invariant every command completes in its own step and
returns a response word. -/
def Obligations.EveryCommandCompletes : Prop :=
  ∀ (i : Instr) (s : State), Inv s → ∃ (t : State) (w : Word), exec i s = .next t ∧ t.response = some w

/-- R61, R230: whatever the slot storage holds at power-on (U5), whatever the agents issue and however they interleave
(the line of commands is the model's, notes/assumptions/1.md), no state reached from power-on stops: the invariant holds
there and the next step is taken. -/
def Obligations.ReachableStatesNeverStop : Prop :=
  ∀ (c : Config) (s : State), c.wellFormed = true → Reachable c s → Inv s ∧ ∃ t : State, step s = .next t

/-- R109, R137, and R62, which the spec derives: in every state reached, every committed slot holds a frame whose FCS
checks. -/
def Obligations.CommittedFramesStayValid : Prop :=
  ∀ (c : Config) (s : State), c.wellFormed = true → Reachable c s → CommittedFramesCheck s

/-- R136, U5, U6, and what R34 derives: slot storage outside the committed frames and the frame in progress is never
observable: over two states that differ only there, every command gives the same registers, the same answer and the same
byte, and the two states after it again differ only there. -/
def Obligations.UnseenStorageUnobservable : Prop :=
  ∀ (i : Instr) (s s' t : State), Inv s → Inv s' → SameButUnseenStorage s s' → exec i s = .next t →
    ∃ t' : State, exec i s' = .next t' ∧ SameButUnseenStorage t t'

/-- R75, R232: the result codes a command can return; one answered with a code other than RC_OK changes no state and
drives no byte. -/
def Obligations.ResultCodes : Prop :=
  ∀ (i : Instr) (s t : State), exec i s = .next t → ∃ w : Word, t.response = some w ∧
    (w.extractLsb' 28 4 ≠ 0x0#4 → t = { s with response := some w, txOut := none }) ∧
    w.extractLsb' 28 4 ∈ (match i with
      | .rxByte _ => [0x0#4]
      | .txDone => [0x0#4]
      | .txStart _ _ => [0x0#4, 0x1#4, 0x3#4]
      | .qPop => [0x0#4, 0x2#4]
      | .qHeadProto => [0x0#4, 0x2#4]
      | .qHeadLen => [0x0#4, 0x2#4]
      | .qHeadByte _ => [0x0#4, 0x2#4, 0x3#4]
      | .regRead _ => [0x0#4, 0x3#4]
      | .regWrite _ _ => [0x0#4, 0x3#4, 0x4#4]
      | .crcSeed => [0x0#4]
      | .crcUpdate _ _ => [0x0#4]
      | .crcFinal _ => [0x0#4]
      | .reset => [0x0#4])

/-- R58, R111: the head reads, REG_READ and the CRC commands change no register and drive nothing, and repeating one
returns the same response. -/
def Obligations.ReadsHaveNoSideEffect : Prop :=
  ∀ (i : Instr) (s t : State),
    (i = .qHeadProto ∨ i = .qHeadLen ∨ (∃ k, i = .qHeadByte k) ∨ (∃ a, i = .regRead a) ∨ i = .crcSeed ∨
      (∃ c b, i = .crcUpdate c b) ∨ ∃ c, i = .crcFinal c) →
    exec i s = .next t → t = { s with response := t.response, txOut := none } ∧ exec i t = .next t

/-- R7, R22, R24, R26, R28, R31, R50: who writes what. Only RX_BYTE and RESET write the receiver's registers, `q_wr` and
`ovf_count`; only RX_BYTE writes slot storage (that RESET keeps it is R215's sentence, notes/assumptions/7.md); only
TX_START, TX_DONE and RESET write the transmitter's; only Q_POP and RESET `q_rd`; only those and RX_BYTE `q_count`; only
REG_WRITE and RESET `mtu`; nothing the parameters; and only TX_START and TX_DONE drive `tx_out`. That no command, RESET
included, writes the line of commands `pending` is about the model's own field (DESIGN CHOICE, notes/assumptions/1.md),
and no rule of the spec. -/
def Obligations.WritersOfEachRegister : Prop :=
  ∀ (i : Instr) (s t : State), exec i s = .next t →
    t.cfg = s.cfg ∧ t.pending = s.pending ∧
    (i ≠ .reset → (∀ b, i ≠ .rxByte b) → t.rx = s.rx ∧ t.ring.wr = s.ring.wr ∧ t.ovfCount = s.ovfCount) ∧
    ((∀ b, i ≠ .rxByte b) → t.slotHdrs = s.slotHdrs ∧ t.slotMem = s.slotMem) ∧
    (i ≠ .reset → i ≠ .txDone → (∀ p chain, i ≠ .txStart p chain) → t.tx = s.tx) ∧
    (i ≠ .reset → i ≠ .qPop → t.ring.rd = s.ring.rd) ∧
    (i ≠ .reset → i ≠ .qPop → (∀ b, i ≠ .rxByte b) → t.ring.count = s.ring.count) ∧
    (i ≠ .reset → (∀ a v, i ≠ .regWrite a v) → t.mtu = s.mtu) ∧
    (i ≠ .txDone → (∀ p chain, i ≠ .txStart p chain) → t.txOut = none)

/-- R34, U5, which the spec derives ("never observable"): whatever slot storage HFB powers on with, every sequence of
commands completes, and is answered by the same words and drives the same bytes. -/
def Obligations.PowerOnStorageNeverShown : Prop :=
  ∀ (c : Config) (hdrs hdrs' : List SlotHeader) (mem mem' : Memory) (is : List Instr), c.wellFormed = true →
    powerOnStorage c hdrs mem → powerOnStorage c hdrs' mem' →
    ∃ (t t' : State) (words : List Word) (bytes : List Byte),
      runAll is (State.powerOn c hdrs mem) = some (t, bytes) ∧ runAll is (State.powerOn c hdrs' mem') = some (t', bytes) ∧
        responsesOf is (State.powerOn c hdrs mem) = some words ∧
        responsesOf is (State.powerOn c hdrs' mem') = some words
end

