-- ==== Sys2Proof/Laws/Response.lean ====
section
/-! SUPPORT. The response word of 30_encoding.md R74 by its parts, and the CSR that a number names (10_state.md R32). -/

namespace Sys2Proof.Machine

/-- Zero extension is a high byte of zeros (R8). -/
theorem zext16_eq : ∀ b : Byte, zext16 b = (0x00#8 ++ b : U16) := by decide

/-- The answer of a command that returns a value and no code. -/
theorem respond_ok (data : U16) : respond .ok 0 data = (0x0000#16 ++ data : Word) := by
  apply BitVec.eq_of_toNat_eq
  simp [respond, Rc.code]

/-- The answer of a step that drove the byte `b` (R76). -/
theorem respond_emit : ∀ b : Byte, respond .ok TxEvent.emit.code (zext16 b) = (0x000100#24 ++ b : Word) := by decide

/-- The answer of a Q_POP that popped slot `i` (R190). -/
theorem respond_pop : ∀ i : Byte, respond .ok 0 (zext16 i) = (0x000000#24 ++ i : Word) := by decide

/-- The answer of an RX_BYTE that committed slot `i` (R137). -/
theorem respond_commit :
    ∀ i : Byte, respond .ok (RxEvent.commit i).code (RxEvent.commit i).data = (0x000100#24 ++ i : Word) := by decide

/-- R74: the result code stands in bits 31 to 28. -/
@[simp] theorem respond_rc (rc : Rc) (aux : Byte) (data : U16) :
    (respond rc aux data).extractLsb' 28 4 = rc.code := by
  apply BitVec.eq_of_getLsbD_eq; intro i hi
  simp only [respond, BitVec.getLsbD_extractLsb', BitVec.getLsbD_append, hi]
  rw [if_neg (by omega), if_neg (by omega), if_neg (by omega)]
  simp only [decide_true, Bool.true_and]
  congr 1; omega

/-- R74: the event or class code stands in bits 23 to 16. -/
@[simp] theorem respond_aux (rc : Rc) (aux : Byte) (data : U16) :
    (respond rc aux data).extractLsb' 16 8 = aux := by
  apply BitVec.eq_of_getLsbD_eq; intro i hi
  simp only [respond, BitVec.getLsbD_extractLsb', BitVec.getLsbD_append, hi]
  rw [if_neg (by omega), if_pos (by omega)]
  simp only [decide_true, Bool.true_and]
  congr 1; omega

/-- R32: the CSR numbers above 0x0F are unassigned. -/
theorem csrOf_unassigned : ∀ a : Byte, 0x0F < a.toNat → csrOf a = none := by decide

/-- R32: the sixteen assigned numbers. -/
theorem csrOf_number (r : Csr) : csrOf r.number = some r := by cases r <;> rfl

/-- R32: only 0x01 is `MTU`, and every number up to 0x0F is assigned. -/
theorem csrOf_assigned : ∀ a : Byte, a.toNat ≤ 0x0F → ∃ r, csrOf a = some r ∧ (r = .mtu ↔ a = 0x01) := by
  intro a h
  obtain ⟨n, hn⟩ : ∃ n : Fin 16, a = BitVec.ofNat 8 n.val :=
    ⟨⟨a.toNat, by omega⟩, by simp⟩
  subst hn
  revert n; intro n _
  fin_cases n <;> exact ⟨_, rfl, by decide⟩

end Sys2Proof.Machine
end

