-- ==== Sys2Proof/Laws/Memory.lean ====
section
/-! SUPPORT. Slot memory: a read after a write, the canonical form that every write keeps, and that two canonical
memories that read alike are equal data. -/

namespace Sys2Proof.Machine

@[simp] theorem Memory.read_nil (x : Nat) : Memory.read [] x = unlistedByte := rfl

theorem Memory.read_cons (a x : Nat) (b : Byte) (m : Memory) :
    Memory.read ((a, b) :: m) x = if x = a then b else m.read x := rfl

theorem Memory.read_insert (m : Memory) (x y : Nat) (v : Byte) :
    (m.insert x v).read y = if y = x then v else m.read y := by
  induction m with
  | nil => rfl
  | cons c m ih =>
    obtain ⟨a, b⟩ := c
    unfold Memory.insert
    split
    · rfl
    · split
      · simp only [Memory.read_cons]; by_cases h : y = x <;> simp_all
      · simp only [Memory.read_cons, ih]; by_cases h : y = x <;> by_cases h' : y = a <;> simp_all

theorem Memory.read_erase (m : Memory) (x y : Nat) :
    (m.erase x).read y = if y = x then unlistedByte else m.read y := by
  induction m with
  | nil => simp [Memory.erase]
  | cons c m ih =>
    obtain ⟨a, b⟩ := c
    by_cases ha : a = x
    · subst ha
      rw [Memory.erase, List.filter_cons_of_neg (by simp), Memory.read_cons]
      exact ih.trans (by by_cases h : y = a <;> simp [h])
    · rw [Memory.erase, List.filter_cons_of_pos (by simpa using ha), Memory.read_cons, Memory.read_cons, ← Memory.erase,
        ih]
      by_cases h : y = a <;> simp_all

/-- The two laws of a write in one: the written address reads the byte, every other one as before. -/
theorem Memory.read_write (m : Memory) (x y : Nat) (v : Byte) :
    (m.write x v).read y = if y = x then v else m.read y := by
  unfold Memory.write; split
  case isTrue h => rw [h, Memory.read_erase]
  case isFalse => exact Memory.read_insert m x y v

@[simp] theorem Memory.read_write_same (m : Memory) (x : Nat) (v : Byte) : (m.write x v).read x = v := by
  simp [Memory.read_write]

theorem Memory.read_write_other (m : Memory) {x y : Nat} (v : Byte) (h : y ≠ x) :
    (m.write x v).read y = m.read y := by
  simp [Memory.read_write, h]

/-- The entries of a memory with one more listed are the new one and old ones. -/
theorem Memory.mem_insert (m : Memory) (x : Nat) (v : Byte) (c : Host.Cell) (h : c ∈ m.insert x v) :
    c = (x, v) ∨ c ∈ m := by
  induction m with
  | nil => simp_all [Memory.insert]
  | cons d m ih =>
    obtain ⟨a, b⟩ := d
    unfold Memory.insert at h
    split at h
    · exact (List.mem_cons.1 h).imp id id
    · split at h
      · exact (List.mem_cons.1 h).imp id (List.mem_cons_of_mem _)
      · rcases List.mem_cons.1 h with rfl | h
        · exact .inr List.mem_cons_self
        · exact (ih h).imp id (List.mem_cons_of_mem _)

/-- The entries of a written memory are the written one, unless it reads as unlisted, and old ones. -/
theorem Memory.mem_write (m : Memory) (x : Nat) (v : Byte) (c : Host.Cell) (h : c ∈ m.write x v) :
    (c = (x, v) ∧ v ≠ unlistedByte) ∨ c ∈ m := by
  unfold Memory.write at h
  split at h
  · exact .inr (List.mem_of_mem_filter h)
  · exact (m.mem_insert x v c h).imp (⟨·, ‹_›⟩) id

theorem Memory.sorted_insert (m : Memory) (x : Nat) (v : Byte) (h : m.Pairwise (fun c d => c.1 < d.1)) :
    (m.insert x v).Pairwise (fun c d => c.1 < d.1) := by
  induction m with
  | nil => simp [Memory.insert]
  | cons d m ih =>
    obtain ⟨a, b⟩ := d
    obtain ⟨hd, ht⟩ := List.pairwise_cons.1 h
    unfold Memory.insert
    split
    case isTrue hx =>
      refine List.pairwise_cons.2 ⟨fun c hc => ?_, h⟩
      rcases List.mem_cons.1 hc with rfl | hc
      · exact hx
      · exact Nat.lt_trans hx (hd c hc)
    case isFalse hx =>
      split
      case isTrue he => subst he; exact List.pairwise_cons.2 ⟨hd, ht⟩
      case isFalse he =>
        refine List.pairwise_cons.2 ⟨fun c hc => ?_, ih ht⟩
        rcases Memory.mem_insert m x v c hc with rfl | hc
        · show a < x; omega
        · exact hd c hc

/-- Every write keeps the canonical form. -/
theorem Memory.wf_write (m : Memory) (x : Nat) (v : Byte) (h : m.wf) : (m.write x v).wf := by
  refine ⟨?_, fun c hc => ?_⟩
  · unfold Memory.write; split
    · exact h.1.filter _
    · exact Memory.sorted_insert m x v h.1
  · rcases m.mem_write x v c hc with ⟨rfl, hv⟩ | hc
    · exact hv
    · exact h.2 c hc

theorem Memory.wf_nil : Memory.wf [] := ⟨List.Pairwise.nil, by simp⟩

theorem Memory.wf.tail {c : Host.Cell} {m : Memory} (h : Memory.wf (c :: m)) : Memory.wf m :=
  ⟨(List.pairwise_cons.1 h.1).2, fun d hd => h.2 d (List.mem_cons_of_mem _ hd)⟩

/-- An address below every listed one reads as unlisted. -/
theorem Memory.read_below (m : Memory) (x : Nat) (h : ∀ c ∈ m, x < c.1) : m.read x = unlistedByte := by
  induction m with
  | nil => rfl
  | cons c m ih =>
    have := h c List.mem_cons_self
    rw [Memory.read_cons, if_neg (by omega)]
    exact ih (fun d hd => h d (List.mem_cons_of_mem _ hd))

/-- Canonical memories that read alike everywhere are equal data. -/
theorem Memory.eq_of_read {m n : Memory} (hm : m.wf) (hn : n.wf) (h : ∀ x, m.read x = n.read x) : m = n := by
  induction m generalizing n with
  | nil =>
    cases n with
    | nil => rfl
    | cons d n =>
      have := h d.1
      rw [Memory.read_nil, Memory.read_cons, if_pos rfl] at this
      exact absurd this.symm (hn.2 d List.mem_cons_self)
  | cons c m ih =>
    cases n with
    | nil =>
      have := h c.1
      rw [Memory.read_nil, Memory.read_cons, if_pos rfl] at this
      exact absurd this (hm.2 c List.mem_cons_self)
    | cons d n =>
      have hcm := (List.pairwise_cons.1 hm.1).1
      have hdn := (List.pairwise_cons.1 hn.1).1
      have hk : c.1 = d.1 := by
        rcases Nat.lt_trichotomy c.1 d.1 with hl | he | hl
        · have := h c.1
          rw [Memory.read_cons, if_pos rfl, Memory.read_below (d :: n) c.1 (fun e he => by
            rcases List.mem_cons.1 he with rfl | he
            · exact hl
            · exact Nat.lt_trans hl (hdn e he))] at this
          exact absurd this (hm.2 c List.mem_cons_self)
        · exact he
        · have := h d.1
          rw [Memory.read_cons d.1, if_pos rfl, Memory.read_below (c :: m) d.1 (fun e he => by
            rcases List.mem_cons.1 he with rfl | he
            · exact hl
            · exact Nat.lt_trans hl (hcm e he))] at this
          exact absurd this.symm (hn.2 d List.mem_cons_self)
      have hb : c.2 = d.2 := by
        have := h c.1
        rwa [Memory.read_cons, if_pos rfl, Memory.read_cons, if_pos hk] at this
      rw [Prod.ext hk hb, ih hm.tail hn.tail (fun x => ?_)]
      have := h x
      rw [Memory.read_cons, Memory.read_cons, hk] at this
      by_cases hx : x = d.1
      · rw [hx, Memory.read_below m d.1 (fun e he => hk ▸ hcm e he), Memory.read_below n d.1 hdn]
      · rwa [if_neg hx, if_neg hx] at this

end Sys2Proof.Machine
end

