-- ==== Sys2Proof/Laws/Slots.lean ====
section
/-! SUPPORT. What the slot accesses answer: the keys of two slot bytes differ, a write and a read succeed exactly on an
existing byte, and a run of bytes is its bytes one by one. -/

namespace Sys2Proof.Machine

/-- Two slot bytes have one key only if they are one byte. -/
theorem slotAddr_inj {i k i' k' : Nat} (hk : k < 65536) (hk' : k' < 65536) :
    slotAddr i k = slotAddr i' k' ↔ i = i' ∧ k = k' := by
  unfold slotAddr; omega

theorem slotExists_iff (s : State) (i k : Nat) :
    slotExists s i k = true ↔ i < s.cfg.nSlots ∧ k < s.cfg.slotCap := by
  simp [slotExists]

/-- With legal parameters a byte index of a slot fits in 16 bits (R6). -/
theorem Config.slotCap_lt {c : Config} (h : c.wellFormed = true) : c.slotCap < 65536 := by
  simp [Config.wellFormed] at h; unfold Config.slotCap; omega

theorem slotWrite_eq_ok {i k : Nat} {b : Byte} {s t : State} :
    slotWrite i k b s = .ok t ↔
      slotExists s i k = true ∧ t = { s with slotMem := s.slotMem.write (slotAddr i k) b } := by
  unfold slotWrite; split
  case isTrue h => simp only [Except.ok.injEq, h, true_and]; exact eq_comm
  case isFalse h => simp [h]

theorem slotRead_eq_ok {i k : Nat} {b : Byte} {s : State} :
    slotRead i k s = .ok b ↔ slotExists s i k = true ∧ s.slotMem.read (slotAddr i k) = b := by
  unfold slotRead; split
  case isTrue h => simp [h]
  case isFalse h => simp [h]

theorem slotHeader_eq_ok {i : Nat} {h : SlotHeader} {s : State} :
    slotHeader i s = .ok h ↔ s.slotHdrs[i]? = some h := by
  unfold slotHeader; split <;> simp_all

/-- A run of bytes, one by one. -/
theorem slotBytes_eq_ok {i : Nat} {s : State} {n k : Nat} {d : List Byte} :
    slotBytes i s k n = .ok d ↔ d.length = n ∧ ∀ j, ∀ h : j < d.length, slotRead i (k + j) s = .ok d[j] := by
  induction n generalizing k d with
  | zero =>
    simp only [slotBytes, Except.ok.injEq]
    constructor
    · rintro rfl; simp
    · rintro ⟨h, -⟩; exact (List.length_eq_zero_iff.1 h).symm
  | succ n ih =>
    rw [slotBytes]
    constructor
    · intro h
      split at h
      · cases h
      rename_i b hb
      split at h
      · cases h
      rename_i d' hd
      cases h
      obtain ⟨hl, hr⟩ := ih.1 hd
      refine ⟨by simp [hl], fun j hj => ?_⟩
      cases j with
      | zero => simpa using hb
      | succ j =>
        have := hr j (by simpa using hj)
        simpa [Nat.add_assoc, Nat.add_comm 1 j] using this
    · rintro ⟨hl, hr⟩
      cases d with
      | nil => simp at hl
      | cons b d =>
        have h0 := hr 0 (by simp)
        simp only [Nat.add_zero, List.getElem_cons_zero] at h0
        have h1 : slotBytes i s (k + 1) n = .ok d := by
          refine ih.2 ⟨by simpa using hl, fun j hj => ?_⟩
          have := hr (j + 1) (by simpa using hj)
          simpa [Nat.add_assoc, Nat.add_comm 1 j] using this
        simp [h0, h1]

/-- A run of existing bytes has a value (R50). -/
theorem slotBytes_total {i : Nat} {s : State} {n k : Nat} (h : ∀ j < n, slotExists s i (k + j) = true) :
    ∃ d, slotBytes i s k n = .ok d := by
  induction n generalizing k with
  | zero => exact ⟨[], rfl⟩
  | succ n ih =>
    have he := h 0 (by omega)
    obtain ⟨d, hd⟩ := ih (k := k + 1) (fun j hj => by
      have := h (j + 1) (by omega)
      simpa [Nat.add_assoc, Nat.add_comm 1 j] using this)
    refine ⟨s.slotMem.read (slotAddr i k) :: d, ?_⟩
    rw [slotBytes, slotRead_eq_ok.2 ⟨by simpa using he, rfl⟩, hd]

/-- R50: a write to a slot byte that exists lists no location that does not. -/
theorem within_write {s : State} {i k : Nat} {b : Byte} (hw : s.cfg.wellFormed = true)
    (he : slotExists s i k = true) (h : s.slotMem.within s.cfg) :
    (s.slotMem.write (slotAddr i k) b).within s.cfg := by
  have hcap := Config.slotCap_lt hw
  obtain ⟨hi, hk⟩ := (slotExists_iff s i k).1 he
  intro c hc
  rcases Memory.mem_write _ _ _ c hc with ⟨rfl, -⟩ | hc
  · show slotAddr i k / 65536 < s.cfg.nSlots ∧ slotAddr i k % 65536 < s.cfg.slotCap
    unfold slotAddr; omega
  · exact h c hc

/-- Two states with one configuration and one value for each byte of a run read the same run. -/
theorem slotBytes_congr {i : Nat} {s t : State} {n k : Nat}
    (h : ∀ j < n, slotRead i (k + j) t = slotRead i (k + j) s) : slotBytes i t k n = slotBytes i s k n := by
  induction n generalizing k with
  | zero => rfl
  | succ n ih =>
    have h0 := h 0 (by omega)
    have h1 := ih (k := k + 1) (fun j hj => by
      have := h (j + 1) (by omega)
      simpa [Nat.add_assoc, Nat.add_comm 1 j] using this)
    simp only [Nat.add_zero] at h0
    rw [slotBytes, slotBytes, h0, h1]

/-- Storing the byte after a run extends the run by it. -/
theorem slotBytes_write {i n : Nat} {s t : State} {d : List Byte} {f : Byte} (hc : t.cfg = s.cfg)
    (hw : s.cfg.wellFormed = true) (he : slotExists s i n = true)
    (hm : t.slotMem = s.slotMem.write (slotAddr i n) f) (hb : slotBytes i s 0 n = .ok d) :
    slotBytes i t 0 (n + 1) = .ok (d ++ [f]) := by
  have hcap := Config.slotCap_lt hw
  have hn := ((slotExists_iff s i n).1 he).2
  obtain ⟨hl, hr⟩ := slotBytes_eq_ok.1 hb
  rw [slotBytes_eq_ok]
  refine ⟨by simp [hl], fun j hj => ?_⟩
  rw [List.length_append, List.length_singleton] at hj
  have hx : ∀ k, slotExists t i k = slotExists s i k := fun k => by simp [slotExists, hc]
  rw [slotRead_eq_ok, hx, hm]
  by_cases hjj : j < d.length
  · obtain ⟨h1, h2⟩ := slotRead_eq_ok.1 (hr j hjj)
    rw [List.getElem_append_left hjj, Memory.read_write_other _ _ (by
      rw [ne_eq, slotAddr_inj (by omega) (by omega)]; omega)]
    exact ⟨h1, h2⟩
  · obtain rfl : j = n := by omega
    rw [Nat.zero_add, Memory.read_write_same]
    exact ⟨he, by simp [hl]⟩

end Sys2Proof.Machine
end

