-- ==== Sys2Proof/Laws/State.lean ====
section
/-! SUPPORT. Every named update of `State`, one lemma per field, so that no later proof unfolds a record update. -/

namespace Sys2Proof.Machine

section ReplyFields

variable (s : State) (rc : Rc) (aux : Byte) (data : U16)

@[simp] theorem reply_cfg : (reply s rc aux data).cfg = s.cfg := rfl
@[simp] theorem reply_rx : (reply s rc aux data).rx = s.rx := rfl
@[simp] theorem reply_tx : (reply s rc aux data).tx = s.tx := rfl
@[simp] theorem reply_ring : (reply s rc aux data).ring = s.ring := rfl
@[simp] theorem reply_ovfCount : (reply s rc aux data).ovfCount = s.ovfCount := rfl
@[simp] theorem reply_mtu : (reply s rc aux data).mtu = s.mtu := rfl
@[simp] theorem reply_slotHdrs : (reply s rc aux data).slotHdrs = s.slotHdrs := rfl
@[simp] theorem reply_slotMem : (reply s rc aux data).slotMem = s.slotMem := rfl
@[simp] theorem reply_response : (reply s rc aux data).response = some (respond rc aux data) := rfl
@[simp] theorem reply_txOut : (reply s rc aux data).txOut = none := rfl
@[simp] theorem reply_pending : (reply s rc aux data).pending = s.pending := rfl

end ReplyFields

section EmitFields

variable (s : State) (b : Byte)

@[simp] theorem emit_cfg : (emit s b).cfg = s.cfg := rfl
@[simp] theorem emit_rx : (emit s b).rx = s.rx := rfl
@[simp] theorem emit_tx : (emit s b).tx = s.tx := rfl
@[simp] theorem emit_ring : (emit s b).ring = s.ring := rfl
@[simp] theorem emit_ovfCount : (emit s b).ovfCount = s.ovfCount := rfl
@[simp] theorem emit_mtu : (emit s b).mtu = s.mtu := rfl
@[simp] theorem emit_slotHdrs : (emit s b).slotHdrs = s.slotHdrs := rfl
@[simp] theorem emit_slotMem : (emit s b).slotMem = s.slotMem := rfl
@[simp] theorem emit_response : (emit s b).response = some (respond .ok TxEvent.emit.code (zext16 b)) := rfl
@[simp] theorem emit_txOut : (emit s b).txOut = some b := rfl
@[simp] theorem emit_pending : (emit s b).pending = s.pending := rfl

end EmitFields

section IdleFields

variable (s : State)

@[simp] theorem idleStep_cfg : (idleStep s).cfg = s.cfg := rfl
@[simp] theorem idleStep_rx : (idleStep s).rx = s.rx := rfl
@[simp] theorem idleStep_tx : (idleStep s).tx = s.tx := rfl
@[simp] theorem idleStep_ring : (idleStep s).ring = s.ring := rfl
@[simp] theorem idleStep_ovfCount : (idleStep s).ovfCount = s.ovfCount := rfl
@[simp] theorem idleStep_mtu : (idleStep s).mtu = s.mtu := rfl
@[simp] theorem idleStep_slotHdrs : (idleStep s).slotHdrs = s.slotHdrs := rfl
@[simp] theorem idleStep_slotMem : (idleStep s).slotMem = s.slotMem := rfl
@[simp] theorem idleStep_response : (idleStep s).response = none := rfl
@[simp] theorem idleStep_txOut : (idleStep s).txOut = none := rfl
@[simp] theorem idleStep_pending : (idleStep s).pending = s.pending := rfl

end IdleFields

section CommitFields

variable (n : U16) (s : State)

@[simp] theorem commit_cfg : (commit n s).cfg = s.cfg := rfl
@[simp] theorem commit_rx : (commit n s).rx = s.rx := rfl
@[simp] theorem commit_tx : (commit n s).tx = s.tx := rfl
@[simp] theorem commit_ring :
    (commit n s).ring = { s.ring with wr := nextIndex s.cfg s.ring.wr, count := s.ring.count + 1 } := rfl
@[simp] theorem commit_ovfCount : (commit n s).ovfCount = s.ovfCount := rfl
@[simp] theorem commit_mtu : (commit n s).mtu = s.mtu := rfl
@[simp] theorem commit_slotHdrs :
    (commit n s).slotHdrs = s.slotHdrs.set s.ring.wr.toNat { len := n - 2, proto := s.rx.proto } := rfl
@[simp] theorem commit_slotMem : (commit n s).slotMem = s.slotMem := rfl
@[simp] theorem commit_response : (commit n s).response = s.response := rfl
@[simp] theorem commit_txOut : (commit n s).txOut = s.txOut := rfl
@[simp] theorem commit_pending : (commit n s).pending = s.pending := rfl

end CommitFields

section DataPhaseFields

variable (s : State)

@[simp] theorem startDataPhase_cfg : (startDataPhase s).cfg = s.cfg := rfl
@[simp] theorem startDataPhase_rx : (startDataPhase s).rx = { s.rx with
    count := 0, drop := false, limit := s.mtu, state := if s.mtu = 0 then .fcsLo else .data } := rfl
@[simp] theorem startDataPhase_tx : (startDataPhase s).tx = s.tx := rfl
@[simp] theorem startDataPhase_ring : (startDataPhase s).ring = s.ring := rfl
@[simp] theorem startDataPhase_ovfCount : (startDataPhase s).ovfCount = s.ovfCount := rfl
@[simp] theorem startDataPhase_mtu : (startDataPhase s).mtu = s.mtu := rfl
@[simp] theorem startDataPhase_slotHdrs : (startDataPhase s).slotHdrs = s.slotHdrs := rfl
@[simp] theorem startDataPhase_slotMem : (startDataPhase s).slotMem = s.slotMem := rfl
@[simp] theorem startDataPhase_response : (startDataPhase s).response = s.response := rfl
@[simp] theorem startDataPhase_txOut : (startDataPhase s).txOut = s.txOut := rfl
@[simp] theorem startDataPhase_pending : (startDataPhase s).pending = s.pending := rfl

end DataPhaseFields

section PowerOnFields

variable (c : Config) (hdrs : List SlotHeader) (mem : Memory)

@[simp] theorem State.powerOn_cfg : (State.powerOn c hdrs mem).cfg = c := rfl
@[simp] theorem State.powerOn_rx : (State.powerOn c hdrs mem).rx = .reset := rfl
@[simp] theorem State.powerOn_tx : (State.powerOn c hdrs mem).tx = .reset := rfl
@[simp] theorem State.powerOn_ring : (State.powerOn c hdrs mem).ring = .reset := rfl
@[simp] theorem State.powerOn_ovfCount : (State.powerOn c hdrs mem).ovfCount = 0 := rfl
@[simp] theorem State.powerOn_mtu : (State.powerOn c hdrs mem).mtu = BitVec.ofNat 16 c.mtuMax := rfl
@[simp] theorem State.powerOn_slotHdrs : (State.powerOn c hdrs mem).slotHdrs = hdrs := rfl
@[simp] theorem State.powerOn_slotMem : (State.powerOn c hdrs mem).slotMem = mem := rfl
@[simp] theorem State.powerOn_response : (State.powerOn c hdrs mem).response = none := rfl
@[simp] theorem State.powerOn_txOut : (State.powerOn c hdrs mem).txOut = none := rfl
@[simp] theorem State.powerOn_pending : (State.powerOn c hdrs mem).pending = [] := rfl

end PowerOnFields

section ResetFields

variable (s : State)

@[simp] theorem resetRegisters_cfg : (resetRegisters s).cfg = s.cfg := rfl
@[simp] theorem resetRegisters_rx : (resetRegisters s).rx = .reset := rfl
@[simp] theorem resetRegisters_tx : (resetRegisters s).tx = .reset := rfl
@[simp] theorem resetRegisters_ring : (resetRegisters s).ring = .reset := rfl
@[simp] theorem resetRegisters_ovfCount : (resetRegisters s).ovfCount = 0 := rfl
@[simp] theorem resetRegisters_mtu : (resetRegisters s).mtu = BitVec.ofNat 16 s.cfg.mtuMax := rfl
@[simp] theorem resetRegisters_slotHdrs : (resetRegisters s).slotHdrs = s.slotHdrs := rfl
@[simp] theorem resetRegisters_slotMem : (resetRegisters s).slotMem = s.slotMem := rfl
@[simp] theorem resetRegisters_response : (resetRegisters s).response = none := rfl
@[simp] theorem resetRegisters_txOut : (resetRegisters s).txOut = none := rfl
@[simp] theorem resetRegisters_pending : (resetRegisters s).pending = s.pending := rfl

end ResetFields

section StuffedFields

variable (s : State) (b : Byte)

@[simp] theorem emitStuffed_cfg : (emitStuffed s b).cfg = s.cfg := by
  unfold emitStuffed; split <;> rfl
@[simp] theorem emitStuffed_rx : (emitStuffed s b).rx = s.rx := by
  unfold emitStuffed; split <;> rfl
@[simp] theorem emitStuffed_ring : (emitStuffed s b).ring = s.ring := by
  unfold emitStuffed; split <;> rfl
@[simp] theorem emitStuffed_ovfCount : (emitStuffed s b).ovfCount = s.ovfCount := by
  unfold emitStuffed; split <;> rfl
@[simp] theorem emitStuffed_mtu : (emitStuffed s b).mtu = s.mtu := by
  unfold emitStuffed; split <;> rfl
@[simp] theorem emitStuffed_slotHdrs : (emitStuffed s b).slotHdrs = s.slotHdrs := by
  unfold emitStuffed; split <;> rfl
@[simp] theorem emitStuffed_slotMem : (emitStuffed s b).slotMem = s.slotMem := by
  unfold emitStuffed; split <;> rfl
@[simp] theorem emitStuffed_pending : (emitStuffed s b).pending = s.pending := by
  unfold emitStuffed; split <;> rfl

/-- R164: only the pending pair changes, and only for a byte that is escaped. -/
theorem emitStuffed_tx :
    (emitStuffed s b).tx = if needsEscape b then { s.tx with escPend := true, escByte := b ^^^ escXor } else s.tx := by
  unfold emitStuffed; split <;> rfl

@[simp] theorem emitStuffed_txOut : (emitStuffed s b).txOut = some (if needsEscape b then escByte else b) := by
  unfold emitStuffed; split <;> simp_all

@[simp] theorem emitField_cfg : (emitField s b).cfg = s.cfg := by simp [emitField]
@[simp] theorem emitField_rx : (emitField s b).rx = s.rx := by simp [emitField]
@[simp] theorem emitField_ring : (emitField s b).ring = s.ring := by simp [emitField]
@[simp] theorem emitField_ovfCount : (emitField s b).ovfCount = s.ovfCount := by simp [emitField]
@[simp] theorem emitField_mtu : (emitField s b).mtu = s.mtu := by simp [emitField]
@[simp] theorem emitField_slotHdrs : (emitField s b).slotHdrs = s.slotHdrs := by simp [emitField]
@[simp] theorem emitField_slotMem : (emitField s b).slotMem = s.slotMem := by simp [emitField]
@[simp] theorem emitField_pending : (emitField s b).pending = s.pending := by simp [emitField]

/-- R163: a field byte is fed to the running FCS before it is stuffed. -/
theorem emitField_tx :
    (emitField s b).tx =
      if needsEscape b then { s.tx with fcs := crcUpdate s.tx.fcs b, escPend := true, escByte := b ^^^ escXor }
      else { s.tx with fcs := crcUpdate s.tx.fcs b } := by
  simp [emitField, emitStuffed_tx]

@[simp] theorem emitField_txOut : (emitField s b).txOut = some (if needsEscape b then escByte else b) := by
  simp [emitField]

end StuffedFields

end Sys2Proof.Machine
end

