-- ==== Sys2Proof/Laws/Rx.lean ====
section
/-! SUPPORT. What the receiver can do, said once: a store, the end of a frame, a flag, a field byte, a raw byte, and
what no RX_BYTE touches. -/

namespace Sys2Proof.Machine

theorem qFull_iff (s : State) : qFull s = true ↔ s.ring.count.toNat = s.cfg.nSlots := by simp [qFull]

/-- R131: on a full ring a data-phase byte is counted and dropped. -/
theorem rxStore_full {f : Byte} {s : State} (h : qFull s = true) :
    rxStore f s = .ok { s with rx.drop := true, rx.count := s.rx.count + 1 } := by
  rw [rxStore, if_pos h]

/-- R131: with a slot free a data-phase byte is stored at `rx_count` and counted. -/
theorem rxStore_free {f : Byte} {s : State} (h : qFull s = false)
    (he : slotExists s s.ring.wr.toNat s.rx.count.toNat = true) :
    rxStore f s = .ok { s with
      slotMem := s.slotMem.write (slotAddr s.ring.wr.toNat s.rx.count.toNat) f
      rx.count := s.rx.count + 1 } := by
  rw [rxStore, if_neg (by simp [h]), slotWrite_eq_ok.2 ⟨he, rfl⟩]

/-- R120, R122: every raw 0x7E is a flag. -/
theorem rxByte_flag (s : State) : rxByte 0x7E s = onFlag { s with rx.esc := false } := rfl

/-- R120, R121: every raw 0x7D sets the latch. -/
theorem rxByte_escape (s : State) : rxByte 0x7D s = .ok ({ s with rx.esc := true }, .none) := rfl

/-- R120, R121: every other raw byte is a field byte once the latch is applied. -/
theorem rxByte_field {b : Byte} (s : State) (h : b ≠ 0x7E) (h' : b ≠ 0x7D) :
    rxByte b s = onField (if s.rx.esc then b ^^^ 0x20 else b) { s with rx.esc := false } := by
  rw [rxByte, if_neg (show ¬ b = flagByte from h), if_neg (show ¬ b = escByte from h')]; rfl

/-- R131: a store is dropped on a full ring and lands in the slot otherwise. -/
theorem rxStore_cases {f : Byte} {s t : State} (h : rxStore f s = .ok t) :
    (qFull s = true ∧ t = { s with rx.drop := true, rx.count := s.rx.count + 1 }) ∨
    (qFull s = false ∧ slotExists s s.ring.wr.toNat s.rx.count.toNat = true ∧
      t = { s with
        slotMem := s.slotMem.write (slotAddr s.ring.wr.toNat s.rx.count.toNat) f
        rx.count := s.rx.count + 1 }) := by
  unfold rxStore at h
  split at h
  case isTrue hf => cases h; exact .inl ⟨hf, rfl⟩
  case isFalse hf =>
    split at h
    · cases h
    · rename_i s' hs
      obtain ⟨he, rfl⟩ := slotWrite_eq_ok.1 hs
      cases h
      exact .inr ⟨by simpa using hf, he, rfl⟩

/-- R134. -/
theorem finalize_runt {n : U16} {s : State} (h : n.toNat < 2) : finalize n s = .ok (s, .runt) := by
  rw [finalize, if_pos h]

/-- R135. -/
theorem finalize_overflow {n : U16} {s : State} (h : 2 ≤ n.toNat) (ho : s.rx.drop = true ∨ qFull s = true) :
    finalize n s = .ok ({ s with ovfCount := s.ovfCount + 1 }, .overflow) := by
  rw [finalize, if_neg (by omega), if_pos (by simpa using ho)]

/-- R136, R137. -/
theorem finalize_checked {n : U16} {s : State} {d : List Byte} (h : 2 ≤ n.toNat) (hd : s.rx.drop = false)
    (hq : qFull s = false) (hb : slotBytes s.ring.wr.toNat s 0 n.toNat = .ok d) :
    finalize n s =
      if fcsOk s.rx.proto d then .ok (commit n s, .commit s.ring.wr) else .ok (s, .fcsErr) := by
  rw [finalize, if_neg (by omega), if_neg (by simp [hd, hq]), hb]

/-- R133: the four ends of a frame. -/
theorem finalize_cases {n : U16} {s t : State} {ev : RxEvent} (h : finalize n s = .ok (t, ev)) :
    (n.toNat < 2 ∧ t = s ∧ ev = .runt) ∨
    (2 ≤ n.toNat ∧ (s.rx.drop = true ∨ qFull s = true) ∧ t = { s with ovfCount := s.ovfCount + 1 } ∧ ev = .overflow) ∨
    (2 ≤ n.toNat ∧ s.rx.drop = false ∧ qFull s = false ∧ ∃ d, slotBytes s.ring.wr.toNat s 0 n.toNat = .ok d ∧
      ((fcsOk s.rx.proto d = true ∧ t = commit n s ∧ ev = .commit s.ring.wr) ∨
       (fcsOk s.rx.proto d = false ∧ t = s ∧ ev = .fcsErr))) := by
  unfold finalize at h
  split at h
  case isTrue hn => cases h; exact .inl ⟨hn, rfl, rfl⟩
  case isFalse hn =>
    split at h
    case isTrue ho => cases h; exact .inr (.inl ⟨by omega, by simpa using ho, rfl, rfl⟩)
    case isFalse ho =>
      simp only [Bool.or_eq_true, not_or, Bool.not_eq_true] at ho
      split at h
      · cases h
      · rename_i d hd
        refine .inr (.inr ⟨by omega, ho.1, ho.2, d, hd, ?_⟩)
        split at h
        case isTrue hk => cases h; exact .inl ⟨hk, rfl, rfl⟩
        case isFalse hk => cases h; exact .inr ⟨by simpa using hk, rfl, rfl⟩

/-- R141: the registers an RX_BYTE may write; every other field is as before. -/
def RxFrame (s t : State) : Prop :=
  t = { s with
    rx := t.rx, ring.wr := t.ring.wr, ring.count := t.ring.count, ovfCount := t.ovfCount
    slotHdrs := t.slotHdrs, slotMem := t.slotMem }

theorem rxStore_frame {f : Byte} {s t : State} (h : rxStore f s = .ok t) : RxFrame s t := by
  obtain ⟨-, rfl⟩ | ⟨-, -, rfl⟩ := rxStore_cases h <;> rfl

theorem finalize_frame {n : U16} {s t : State} {ev : RxEvent} (h : finalize n s = .ok (t, ev)) : RxFrame s t := by
  obtain ⟨-, rfl, -⟩ | ⟨-, -, rfl, -⟩ | ⟨-, -, -, d, -, ⟨-, rfl, -⟩ | ⟨-, rfl, -⟩⟩ := finalize_cases h <;> rfl

theorem RxFrame.trans {s t u : State} (h : RxFrame s t) (h' : RxFrame t u) : RxFrame s u := by
  unfold RxFrame at *; rw [h'] ; rw [h]

theorem onFlag_frame {s t : State} {ev : RxEvent} (h : onFlag s = .ok (t, ev)) : RxFrame s t := by
  unfold onFlag at h
  split at h
  case h_6 =>
    have := finalize_frame h
    unfold RxFrame at *; rw [this]
  all_goals cases h; rfl

theorem onField_frame {f : Byte} {s t : State} {ev : RxEvent} (h : onField f s = .ok (t, ev)) : RxFrame s t := by
  unfold onField at h
  split at h
  · cases h; rfl
  · split at h <;> cases h <;> rfl
  · split at h <;> cases h <;> rfl
  · cases h; rfl
  · cases h; rfl
  · split at h
    · cases h
    · rename_i u hu; cases h; have := rxStore_frame hu; unfold RxFrame at *; rw [this]
  · split at h
    · cases h
    · rename_i u hu; cases h; have := rxStore_frame hu; unfold RxFrame at *; rw [this]
  · split at h
    · cases h
    · rename_i u hu
      have h1 := rxStore_frame hu
      have h2 := finalize_frame h
      unfold RxFrame at *; rw [h2, h1]

theorem rxByte_frame {b : Byte} {s t : State} {ev : RxEvent} (h : rxByte b s = .ok (t, ev)) : RxFrame s t := by
  unfold rxByte at h
  split at h
  · have := onFlag_frame h; unfold RxFrame at *; rw [this]
  · split at h
    · cases h; rfl
    · have := onField_frame h; unfold RxFrame at *; rw [this]

/-- R50, R131, R137: what one receiver step from `s` to `u` may do to slot memory: nothing, or one data-phase byte. -/
def StoresAtMostOne (s u : State) : Prop :=
  u.slotMem = s.slotMem ∨
    (qFull s = false ∧ ∃ f, u.slotMem = s.slotMem.write (slotAddr s.ring.wr.toNat s.rx.count.toNat) f)

/-- R137: what it may do to the ring and the headers: nothing, or one commit of bytes whose FCS checks. -/
def CommitsAtMostOne (s u : State) (ev : RxEvent) : Prop :=
  ((∀ i, ev ≠ .commit i) ∧ u.ring = s.ring ∧ u.slotHdrs = s.slotHdrs) ∨
    (ev = .commit s.ring.wr ∧ qFull s = false ∧ ∃ (n : U16) (d : List Byte), 2 ≤ n.toNat ∧
      u.ring = { s.ring with wr := nextIndex s.cfg s.ring.wr, count := s.ring.count + 1 } ∧
      u.slotHdrs = s.slotHdrs.set s.ring.wr.toNat { len := n - 2, proto := u.rx.proto } ∧
      slotBytes s.ring.wr.toNat u 0 n.toNat = .ok d ∧ fcsOk u.rx.proto d = true)

theorem finalize_storage {n : U16} {s t : State} {ev : RxEvent} (h : finalize n s = .ok (t, ev)) :
    t.slotMem = s.slotMem ∧ CommitsAtMostOne s t ev := by
  obtain ⟨-, rfl, rfl⟩ | ⟨-, -, rfl, rfl⟩ | ⟨hn, -, hq, d, hd, ⟨hk, rfl, rfl⟩ | ⟨-, rfl, rfl⟩⟩ := finalize_cases h
  · exact ⟨rfl, .inl ⟨by simp, rfl, rfl⟩⟩
  · exact ⟨rfl, .inl ⟨by simp, rfl, rfl⟩⟩
  · exact ⟨rfl, .inr ⟨rfl, hq, n, d, hn, rfl, rfl, hd ▸ slotBytes_congr (fun _ _ => rfl), hk⟩⟩
  · exact ⟨rfl, .inl ⟨by simp, rfl, rfl⟩⟩

theorem onFlag_storage {s t : State} {ev : RxEvent} (h : onFlag s = .ok (t, ev)) :
    t.slotMem = s.slotMem ∧ CommitsAtMostOne s t ev := by
  unfold onFlag at h
  split at h
  case h_6 => have := finalize_storage h; exact this
  all_goals cases h; exact ⟨rfl, .inl ⟨by simp, rfl, rfl⟩⟩

theorem rxStore_storage {f : Byte} {s t : State} (h : rxStore f s = .ok t) :
    StoresAtMostOne s t ∧ t.cfg = s.cfg ∧ t.ring = s.ring ∧ t.slotHdrs = s.slotHdrs := by
  obtain ⟨-, rfl⟩ | ⟨hq, -, rfl⟩ := rxStore_cases h
  · exact ⟨.inl rfl, rfl, rfl, rfl⟩
  · exact ⟨.inr ⟨hq, f, rfl⟩, rfl, rfl, rfl⟩

theorem onField_storage {f : Byte} {s t : State} {ev : RxEvent} (h : onField f s = .ok (t, ev)) :
    StoresAtMostOne s t ∧ CommitsAtMostOne s t ev := by
  unfold onField at h
  split at h
  · cases h; exact ⟨.inl rfl, .inl ⟨by simp, rfl, rfl⟩⟩
  · split at h <;> cases h <;> exact ⟨.inl rfl, .inl ⟨by simp, rfl, rfl⟩⟩
  · split at h <;> cases h <;> exact ⟨.inl rfl, .inl ⟨by simp, rfl, rfl⟩⟩
  · cases h; exact ⟨.inl rfl, .inl ⟨by simp, rfl, rfl⟩⟩
  · cases h; exact ⟨.inl rfl, .inl ⟨by simp, rfl, rfl⟩⟩
  · split at h
    · cases h
    · cases h
      obtain ⟨hm, -, hr, hh⟩ := rxStore_storage ‹_›
      exact ⟨hm, .inl ⟨by simp, hr, hh⟩⟩
  · split at h
    · cases h
    · cases h
      obtain ⟨hm, -, hr, hh⟩ := rxStore_storage ‹_›
      exact ⟨hm, .inl ⟨by simp, hr, hh⟩⟩
  · split at h
    · cases h
    · rename_i u hu
      obtain ⟨hm, hc, hr, hh⟩ := rxStore_storage hu
      obtain ⟨hm', hcm⟩ := finalize_storage h
      refine ⟨?_, ?_⟩
      · unfold StoresAtMostOne; rw [hm']; exact hm
      · unfold CommitsAtMostOne qFull at *
        dsimp only at hcm
        rw [hr, hh, hc] at hcm
        exact hcm

/-- What an RX_BYTE does to slot memory, the headers and the ring. -/
theorem rxByte_storage {b : Byte} {s t : State} {ev : RxEvent} (h : rxByte b s = .ok (t, ev)) :
    StoresAtMostOne s t ∧ CommitsAtMostOne s t ev := by
  unfold rxByte at h
  split at h
  · obtain ⟨h1, h2⟩ := onFlag_storage h; exact ⟨.inl h1, h2⟩
  · split at h
    · cases h; exact ⟨.inl rfl, .inl ⟨by simp, rfl, rfl⟩⟩
    · have := onField_storage h; exact this

/-- `s` with the transmitter's registers and the outputs of the last step replaced. -/
def State.withTxPart (s : State) (x : Transmitter) (w : Option Word) (o : Option Byte) : State :=
  { s with tx := x, response := w, txOut := o }

theorem rxStore_withTxPart (f : Byte) (s : State) (x : Transmitter) (w : Option Word) (o : Option Byte) :
    rxStore f (s.withTxPart x w o) = (rxStore f s).map (·.withTxPart x w o) := by
  unfold rxStore
  rw [show qFull (s.withTxPart x w o) = qFull s from rfl]
  split
  · rfl
  · have hw : slotWrite s.ring.wr.toNat s.rx.count.toNat f (s.withTxPart x w o) =
        (slotWrite s.ring.wr.toNat s.rx.count.toNat f s).map (·.withTxPart x w o) := by
      unfold slotWrite
      rw [show slotExists (s.withTxPart x w o) = slotExists s from rfl]
      split <;> rfl
    rw [show (s.withTxPart x w o).rx = s.rx from rfl, show (s.withTxPart x w o).ring = s.ring from rfl, hw]
    cases slotWrite s.ring.wr.toNat s.rx.count.toNat f s <;> rfl

theorem finalize_withTxPart (n : U16) (s : State) (x : Transmitter) (w : Option Word) (o : Option Byte) :
    finalize n (s.withTxPart x w o) = (finalize n s).map (fun p => (p.1.withTxPart x w o, p.2)) := by
  unfold finalize
  rw [show qFull (s.withTxPart x w o) = qFull s from rfl,
    show (s.withTxPart x w o).rx = s.rx from rfl, show (s.withTxPart x w o).ring = s.ring from rfl,
    show slotBytes s.ring.wr.toNat (s.withTxPart x w o) 0 n.toNat = slotBytes s.ring.wr.toNat s 0 n.toNat from
      slotBytes_congr (fun _ _ => rfl)]
  split
  · rfl
  · split
    · rfl
    · split
      · rfl
      · split <;> rfl

theorem onFlag_withTxPart (s : State) (x : Transmitter) (w : Option Word) (o : Option Byte) :
    onFlag (s.withTxPart x w o) = (onFlag s).map (fun p => (p.1.withTxPart x w o, p.2)) := by
  unfold onFlag
  rw [show (s.withTxPart x w o).rx = s.rx from rfl]
  split
  case h_6 => exact finalize_withTxPart s.rx.count { s with rx.state := .addr } x w o
  all_goals rfl

theorem onField_withTxPart (f : Byte) (s : State) (x : Transmitter) (w : Option Word) (o : Option Byte) :
    onField f (s.withTxPart x w o) = (onField f s).map (fun p => (p.1.withTxPart x w o, p.2)) := by
  unfold onField
  rw [show (s.withTxPart x w o).rx = s.rx from rfl, rxStore_withTxPart]
  split
  · rfl
  · split <;> rfl
  · split <;> rfl
  · rfl
  · rfl
  · cases rxStore f s <;> rfl
  · cases rxStore f s <;> rfl
  · cases h : rxStore f s with
    | error e => rfl
    | ok u => exact finalize_withTxPart u.rx.count { u with rx.state := .hunt } x w o

/-- R141: RX_BYTE neither reads nor writes a register of the transmitter. -/
theorem rxByte_withTxPart (b : Byte) (s : State) (x : Transmitter) (w : Option Word) (o : Option Byte) :
    rxByte b (s.withTxPart x w o) = (rxByte b s).map (fun p => (p.1.withTxPart x w o, p.2)) := by
  unfold rxByte
  rw [show (s.withTxPart x w o).rx = s.rx from rfl]
  split
  · exact onFlag_withTxPart { s with rx.esc := false } x w o
  · split
    · rfl
    · exact onField_withTxPart _ { s with rx.esc := false } x w o

/-- An RX_BYTE that completes ran `rxByte` and answered its event. -/
theorem execRxByte_next {b : Byte} {s t : State} (h : execRxByte b s = .next t) :
    ∃ u ev, rxByte b s = .ok (u, ev) ∧ t = reply u .ok ev.code ev.data := by
  unfold execRxByte at h
  split at h
  · cases h
  · rename_i u ev hu; cases h; exact ⟨u, ev, hu, rfl⟩

end Sys2Proof.Machine
end

