-- ==== Sys2Proof/Laws/Tx.lean ====
section
/-! SUPPORT. What the transmitter can do, said once, and what it never touches (42_tx.md R174, R175). -/

namespace Sys2Proof.Machine

/-- R53: the length of the captured payload is the chain's total length. -/
@[simp] theorem length_capture (chain : Chain) : (capture chain).length = chainLength chain := by
  induction chain with
  | nil => rfl
  | cons seg rest ih => simp [capture, chainLength, ih]

/-- R161: the capture is the concatenation of the segments. -/
theorem capture_eq_flatten (chain : Chain) : capture chain = chain.flatten := by
  induction chain with
  | nil => rfl
  | cons seg rest ih => simp [capture, ih]

/-- R162: the three answers of TX_START. -/
theorem execTxStart_next {p : U16} {chain : Chain} {s t : State} (h : execTxStart p chain s = .next t) :
    ((s.tx.state ≠ .idle ∨ chainLength chain = 0) ∧ t = reply s .busy 0 0) ∨
    (s.tx.state = .idle ∧ 65535 < chainLength chain ∧ t = reply s .range 0 0) ∨
    (s.tx.state = .idle ∧ 0 < chainLength chain ∧ chainLength chain ≤ 65535 ∧
      t = emit { s with
        tx.payload := capture chain, tx.len := BitVec.ofNat 16 (chainLength chain), tx.index := 0, tx.proto := p
        tx.fcs := fcsSeed, tx.escPend := false, tx.state := .flag } flagByte) := by
  unfold execTxStart Config.txLenMax at h
  split at h
  case isTrue hb => cases h; exact .inl ⟨by simpa using hb, rfl⟩
  case isFalse hb =>
    simp only [Bool.or_eq_true, bne_iff_ne, beq_iff_eq, not_or, not_not] at hb
    split at h
    case isTrue hr => cases h; exact .inr (.inl ⟨hb.1, hr, rfl⟩)
    case isFalse hr => cases h; exact .inr (.inr ⟨hb.1, by omega, by omega, rfl⟩)

/-- R166: the answer to a step that stuffs a byte is `TXE_EMIT` with the raw byte driven. -/
@[simp] theorem emitStuffed_response (s : State) (b : Byte) :
    (emitStuffed s b).response =
      some (respond .ok TxEvent.emit.code (zext16 (if needsEscape b then escByte else b))) := by
  unfold emitStuffed; split <;> simp_all

/-- Stuffing a byte and moving to another state are independent of each other. -/
theorem emitStuffed_state (s : State) (b : Byte) (st : TxState) :
    { emitStuffed s b with tx.state := st } = emitStuffed { s with tx.state := st } b := by
  unfold emitStuffed; split <;> rfl

/-- Stuffing a byte and counting it are independent of each other. -/
theorem emitStuffed_index (s : State) (b : Byte) (k : U16) (st : TxState) :
    { emitStuffed s b with tx.index := k, tx.state := st } =
      emitStuffed { s with tx.index := k, tx.state := st } b := by
  unfold emitStuffed; split <;> rfl

/-- R169, R170: the two answers of the step from `PROTO_LO` or `DATA`. -/
theorem txPayloadStep_next {s t : State} (h : txPayloadStep s = .next t) :
    (s.tx.index.toNat < s.tx.len.toNat ∧ ∃ b, s.tx.payload[s.tx.index.toNat]? = some b ∧
      t = { emitField s b with tx.index := s.tx.index + 1, tx.state := .data }) ∨
    (s.tx.len.toNat ≤ s.tx.index.toNat ∧
      t = { emitStuffed { s with tx.fcs := crcFinal s.tx.fcs } (loByte (crcFinal s.tx.fcs)) with tx.state := .fcsLo }) := by
  unfold txPayloadStep payloadByte at h
  split at h
  case isTrue hi =>
    split at h
    · cases h
    · rename_i b hb; cases h; exact .inl ⟨hi, b, hb, rfl⟩
  case isFalse hi => cases h; exact .inr ⟨by omega, rfl⟩

/-- The registers of the transmitter and the outputs; every other field is as before (R174). -/
def TxFrame (s t : State) : Prop :=
  t = { s with tx := t.tx, response := t.response, txOut := t.txOut }

theorem emitStuffed_frame (s : State) (b : Byte) : TxFrame s (emitStuffed s b) := by
  unfold TxFrame emitStuffed; split <;> rfl

theorem emitField_frame (s : State) (b : Byte) : TxFrame s (emitField s b) := by
  unfold emitField TxFrame emitStuffed; split <;> rfl

theorem execTxStart_frame {p : U16} {chain : Chain} {s t : State} (h : execTxStart p chain s = .next t) :
    TxFrame s t := by
  obtain ⟨-, rfl⟩ | ⟨-, -, rfl⟩ | ⟨-, -, -, rfl⟩ := execTxStart_next h <;> rfl

theorem txPayloadStep_frame {s t : State} (h : txPayloadStep s = .next t) : TxFrame s t := by
  obtain ⟨-, b, -, rfl⟩ | ⟨-, rfl⟩ := txPayloadStep_next h <;>
    (unfold TxFrame; simp only [emitField, emitStuffed]; split <;> rfl)

theorem execTxDone_frame {s t : State} (h : execTxDone s = .next t) : TxFrame s t := by
  unfold execTxDone at h
  split at h
  · cases h; rfl
  · split at h
    · cases h; rfl
    · split at h
      case h_6 => exact txPayloadStep_frame h
      case h_7 => exact txPayloadStep_frame h
      all_goals
        cases h
        unfold TxFrame
        try simp only [emitField, emitStuffed]
        try split
        all_goals rfl

/-- R166: TX_DONE always answers RC_OK. -/
theorem execTxDone_response {s t : State} (h : execTxDone s = .next t) :
    ∃ (ev : TxEvent) (data : U16), t.response = some (respond .ok ev.code data) := by
  unfold execTxDone at h
  split at h
  · cases h; exact ⟨.none, _, rfl⟩
  · split at h
    · cases h; exact ⟨.emit, _, rfl⟩
    · split at h
      case h_6 =>
        obtain ⟨-, b, -, rfl⟩ | ⟨-, rfl⟩ := txPayloadStep_next h
        · exact ⟨.emit, _, emitStuffed_response _ _⟩
        · exact ⟨.emit, _, emitStuffed_response _ _⟩
      case h_7 =>
        obtain ⟨-, b, -, rfl⟩ | ⟨-, rfl⟩ := txPayloadStep_next h
        · exact ⟨.emit, _, emitStuffed_response _ _⟩
        · exact ⟨.emit, _, emitStuffed_response _ _⟩
      case h_1 => cases h; exact ⟨.none, _, rfl⟩
      case h_9 => cases h; exact ⟨.emit, _, rfl⟩
      case h_10 => cases h; exact ⟨.done, _, rfl⟩
      all_goals cases h; exact ⟨.emit, _, emitStuffed_response _ _⟩

end Sys2Proof.Machine
end

