-- ==== Sys2Proof/Laws/Commands.lean ====
section
/-! SUPPORT. What each ring and control command can do, said once, and what every command answers. The receiver's and
the transmitter's commands are in Laws/Rx.lean and Laws/Tx.lean. -/

namespace Sys2Proof.Machine

/-- R190. -/
theorem execQPop_next {s t : State} (h : execQPop s = .next t) :
    (s.ring.count = 0 ∧ t = reply s .empty 0 0) ∨
    (s.ring.count ≠ 0 ∧ t = reply { s with
      ring.rd := nextIndex s.cfg s.ring.rd, ring.count := s.ring.count - 1 } .ok 0 (zext16 s.ring.rd)) := by
  unfold execQPop at h
  split at h <;> cases h
  · exact .inl ⟨‹_›, rfl⟩
  · exact .inr ⟨‹_›, rfl⟩

/-- R191. -/
theorem execQHeadProto_next {s t : State} (h : execQHeadProto s = .next t) :
    (s.ring.count = 0 ∧ t = reply s .empty 0 0) ∨
    (s.ring.count ≠ 0 ∧ ∃ hd, s.slotHdrs[s.ring.rd.toNat]? = some hd ∧
      t = reply s .ok (protoClass hd.proto).code hd.proto) := by
  unfold execQHeadProto at h
  split at h
  · cases h; exact .inl ⟨‹_›, rfl⟩
  · split at h
    · cases h
    · cases h; exact .inr ⟨‹_›, _, slotHeader_eq_ok.1 ‹_›, rfl⟩

/-- R192. -/
theorem execQHeadLen_next {s t : State} (h : execQHeadLen s = .next t) :
    (s.ring.count = 0 ∧ t = reply s .empty 0 0) ∨
    (s.ring.count ≠ 0 ∧ ∃ hd, s.slotHdrs[s.ring.rd.toNat]? = some hd ∧ t = reply s .ok 0 hd.len) := by
  unfold execQHeadLen at h
  split at h
  · cases h; exact .inl ⟨‹_›, rfl⟩
  · split at h
    · cases h
    · cases h; exact .inr ⟨‹_›, _, slotHeader_eq_ok.1 ‹_›, rfl⟩

/-- R193. -/
theorem execQHeadByte_next {i : U16} {s t : State} (h : execQHeadByte i s = .next t) :
    (s.ring.count = 0 ∧ t = reply s .empty 0 0) ∨
    (s.ring.count ≠ 0 ∧ ∃ hd, s.slotHdrs[s.ring.rd.toNat]? = some hd ∧
      ((hd.len.toNat + 2 ≤ i.toNat ∧ t = reply s .range 0 0) ∨
       (i.toNat < hd.len.toNat + 2 ∧ ∃ b, slotRead s.ring.rd.toNat i.toNat s = .ok b ∧
          t = reply s .ok 0 (zext16 b)))) := by
  unfold execQHeadByte at h
  split at h
  · cases h; exact .inl ⟨‹_›, rfl⟩
  · split at h
    · cases h
    · refine .inr ⟨‹_›, _, slotHeader_eq_ok.1 ‹_›, ?_⟩
      split at h
      · cases h; exact .inl ⟨‹_›, rfl⟩
      · split at h
        · cases h
        · cases h; exact .inr ⟨by omega, _, ‹_›, rfl⟩

/-- R210. -/
theorem execRegRead_next {a : Byte} {s t : State} (h : execRegRead a s = .next t) :
    (csrOf a = none ∧ t = reply s .range 0 0) ∨ (∃ r, csrOf a = some r ∧ t = reply s .ok 0 (csrValue s r)) := by
  unfold execRegRead at h
  split at h <;> cases h
  · exact .inl ⟨‹_›, rfl⟩
  · exact .inr ⟨_, ‹_›, rfl⟩

/-- R212. -/
theorem execRegWrite_next {a : Byte} {v : U16} {s t : State} (h : execRegWrite a v s = .next t) :
    ((∃ rc, (rc = Rc.range ∨ rc = Rc.readonly) ∧ t = reply s rc 0 0)) ∨
    (csrOf a = some .mtu ∧ v.toNat ≤ s.cfg.mtuMax ∧ t = reply { s with mtu := v } .ok 0 0) := by
  unfold execRegWrite at h
  split at h
  · cases h; exact .inl ⟨.range, .inl rfl, rfl⟩
  · rename_i r hr
    split at h
    · cases h; exact .inl ⟨.readonly, .inr rfl, rfl⟩
    · rename_i hm
      split at h
      · cases h; exact .inl ⟨.range, .inl rfl, rfl⟩
      · cases h
        exact .inr ⟨by rw [hr, not_not.1 hm], by omega, rfl⟩

/-- R74: every command answers a response word. -/
theorem exec_response {i : Instr} {s t : State} (h : exec i s = .next t) :
    ∃ rc aux data, t.response = some (respond rc aux data) := by
  cases i with
  | rxByte b => obtain ⟨u, ev, -, rfl⟩ := execRxByte_next h; exact ⟨_, _, _, rfl⟩
  | txDone => obtain ⟨ev, d, h⟩ := execTxDone_response h; exact ⟨_, _, _, h⟩
  | txStart p c => obtain ⟨-, rfl⟩ | ⟨-, -, rfl⟩ | ⟨-, -, -, rfl⟩ := execTxStart_next h <;> exact ⟨_, _, _, rfl⟩
  | qPop => obtain ⟨-, rfl⟩ | ⟨-, rfl⟩ := execQPop_next h <;> exact ⟨_, _, _, rfl⟩
  | qHeadProto => obtain ⟨-, rfl⟩ | ⟨-, hd, -, rfl⟩ := execQHeadProto_next h <;> exact ⟨_, _, _, rfl⟩
  | qHeadLen => obtain ⟨-, rfl⟩ | ⟨-, hd, -, rfl⟩ := execQHeadLen_next h <;> exact ⟨_, _, _, rfl⟩
  | qHeadByte k =>
    obtain ⟨-, rfl⟩ | ⟨-, hd, -, ⟨-, rfl⟩ | ⟨-, b, -, rfl⟩⟩ := execQHeadByte_next h <;> exact ⟨_, _, _, rfl⟩
  | regRead a => obtain ⟨-, rfl⟩ | ⟨r, -, rfl⟩ := execRegRead_next h <;> exact ⟨_, _, _, rfl⟩
  | regWrite a v => obtain ⟨rc, -, rfl⟩ | ⟨-, -, rfl⟩ := execRegWrite_next h <;> exact ⟨_, _, _, rfl⟩
  | crcSeed => cases h; exact ⟨_, _, _, rfl⟩
  | crcUpdate c b => cases h; exact ⟨_, _, _, rfl⟩
  | crcFinal c => cases h; exact ⟨_, _, _, rfl⟩
  | reset => cases h; exact ⟨_, _, _, rfl⟩

end Sys2Proof.Machine
end

