-- ==== Sys2Proof/Laws/Decode.lean ====
section
/-! SUPPORT. The decoder in arithmetic: what a row's mask and pattern test, the number of an encoded word, and that the
rows of 30_encoding.md R77 exclude each other. -/

namespace Sys2Proof

/-- `{x, y}` as a number. -/
theorem toNat_append_mul {m n : Nat} (x : BitVec m) (y : BitVec n) :
    (x ++ y).toNat = x.toNat * 2 ^ n + y.toNat := by
  rw [BitVec.toNat_append, ← Nat.shiftLeft_add_eq_or_of_lt y.isLt, Nat.shiftLeft_eq]

/-- A mask of ones above bit k keeps the bits above k. -/
theorem and_highMask (w : Word) (k : Nat) : w &&& (BitVec.allOnes 32 <<< k) = (w >>> k) <<< k := by
  ext i hi
  simp only [BitVec.getElem_and, BitVec.getElem_shiftLeft, BitVec.getElem_allOnes]
  by_cases h : i < k
  · simp [h]
  · simp only [h, decide_false, Bool.not_false, Bool.true_and, Bool.and_true]
    rw [BitVec.getElem_ushiftRight, Nat.add_sub_cancel' (by omega), BitVec.getLsbD_eq_getElem hi]

/-- R77: a row with the top `32 - k` bits fixed matches exactly the words whose top bits are those of its pattern. -/
theorem matches_iff {r : OpcodeRow} {w : Word} (k q : Nat) (hm : r.mask = BitVec.allOnes 32 <<< k)
    (hp : r.pattern.toNat = q * 2 ^ k) : r.matches w = true ↔ w.toNat / 2 ^ k = q := by
  have hle : w.toNat / 2 ^ k * 2 ^ k ≤ w.toNat := Nat.div_mul_le_self _ _
  have hv : ((w >>> k) <<< k : Word).toNat = w.toNat / 2 ^ k * 2 ^ k := by
    rw [BitVec.toNat_shiftLeft, BitVec.toNat_ushiftRight, Nat.shiftRight_eq_div_pow, Nat.shiftLeft_eq,
      Nat.mod_eq_of_lt (Nat.lt_of_le_of_lt hle w.isLt)]
  unfold OpcodeRow.matches
  rw [beq_iff_eq, hm, and_highMask, ← BitVec.toNat_inj, hv, hp]
  exact Nat.mul_left_inj (by positivity)

/-- The top `32 - k` bits of a word are the number `q`. -/
@[irreducible] def topBits (w : Word) (k q : Nat) : Bool := w.toNat / 2 ^ k == q

theorem topBits_iff {w : Word} {k q : Nat} : topBits w k q = true ↔ w.toNat / 2 ^ k = q := by simp [topBits]

/-- Two different patterns of top bits exclude each other, the longer one first. -/
theorem topBits_exclusive {w : Word} {k q : Nat} (k' q' : Nat) (hk : k' ≤ k) (hq : q' / 2 ^ (k - k') ≠ q)
    (h : topBits w k q = true) : topBits w k' q' = false := by
  rw [topBits_iff] at h
  refine Bool.eq_false_iff.2 fun h' => hq ?_
  rw [topBits_iff] at h'
  rw [← h', ← h, Nat.div_div_eq_div_mul, ← pow_add, Nat.add_sub_cancel' hk]

theorem topBits_exclusive' {w : Word} {k q : Nat} (k' q' : Nat) (hk : k ≤ k') (hq : q / 2 ^ (k' - k) ≠ q')
    (h : topBits w k q = true) : topBits w k' q' = false := by
  rw [topBits_iff] at h
  refine Bool.eq_false_iff.2 fun h' => hq ?_
  rw [topBits_iff] at h'
  rw [← h', ← h, Nat.div_div_eq_div_mul, ← pow_add, Nat.add_sub_cancel' hk]

/-- The row that a search finds first, and what the decoder makes of it. -/
def decodeFrom (rows : List OpcodeRow) (w : Word) (chain : Chain) : Except Illegal Instr :=
  match rows.find? (·.matches w) with
  | some r => .ok (r.build w chain)
  | none => .error (illegalReason w)

theorem matches_eq_topBits {r : OpcodeRow} {w : Word} (k q : Nat) (hm : r.mask = BitVec.allOnes 32 <<< k)
    (hp : r.pattern.toNat = q * 2 ^ k) : r.matches w = topBits w k q :=
  Bool.eq_iff_iff.2 ((matches_iff k q hm hp).trans topBits_iff.symm)

theorem decodeFrom_cons_ok {r : OpcodeRow} {rows : List OpcodeRow} {w : Word} {chain : Chain} {i : Instr}
    (k q : Nat) (hm : r.mask = BitVec.allOnes 32 <<< k) (hp : r.pattern.toNat = q * 2 ^ k) :
    decodeFrom (r :: rows) w chain = .ok i ↔
      (topBits w k q = true ∧ i = r.build w chain) ∨
        (topBits w k q = false ∧ decodeFrom rows w chain = .ok i) := by
  unfold decodeFrom
  cases h : topBits w k q <;> simp [matches_eq_topBits k q hm hp, h, eq_comm]

theorem decodeFrom_cons_error {r : OpcodeRow} {rows : List OpcodeRow} {w : Word} {chain : Chain} {e : Illegal}
    (k q : Nat) (hm : r.mask = BitVec.allOnes 32 <<< k) (hp : r.pattern.toNat = q * 2 ^ k) :
    decodeFrom (r :: rows) w chain = .error e ↔
      topBits w k q = false ∧ decodeFrom rows w chain = .error e := by
  unfold decodeFrom
  cases h : topBits w k q <;> simp [matches_eq_topBits k q hm hp, h]

/-- R77 by number: a word decodes exactly when its top bits are those of a row, and to that row's command. -/
theorem decode_eq_ok {w : Word} {chain : Chain} {i : Instr} :
    decode w chain = .ok i ↔
      (topBits w 8 0x100000 = true ∧ i = .rxByte (field7to0 w)) ∨
      (topBits w 0 0x20000000 = true ∧ i = .txDone) ∨
      (topBits w 16 0x3000 = true ∧ i = .txStart (field15to0 w) chain) ∨
      (topBits w 0 0x40000000 = true ∧ i = .qPop) ∨
      (topBits w 0 0x50000000 = true ∧ i = .qHeadProto) ∨
      (topBits w 0 0x60000000 = true ∧ i = .qHeadLen) ∨
      (topBits w 16 0x7000 = true ∧ i = .qHeadByte (field15to0 w)) ∨
      (topBits w 8 0x800000 = true ∧ i = .regRead (field7to0 w)) ∨
      (topBits w 24 0x90 = true ∧ i = .regWrite (field23to16 w) (field15to0 w)) ∨
      (topBits w 0 0xA0000000 = true ∧ i = .crcSeed) ∨
      (topBits w 24 0xB0 = true ∧ i = .crcUpdate (field15to0 w) (field23to16 w)) ∨
      (topBits w 16 0xC000 = true ∧ i = .crcFinal (field15to0 w)) ∨
      (topBits w 0 0xD0000000 = true ∧ i = .reset) := by
  show decodeFrom opcodeTable w chain = _ ↔ _
  unfold opcodeTable
  rw [decodeFrom_cons_ok 8 0x100000 (by decide) (by decide),
    decodeFrom_cons_ok 0 0x20000000 (by decide) (by decide),
    decodeFrom_cons_ok 16 0x3000 (by decide) (by decide),
    decodeFrom_cons_ok 0 0x40000000 (by decide) (by decide),
    decodeFrom_cons_ok 0 0x50000000 (by decide) (by decide),
    decodeFrom_cons_ok 0 0x60000000 (by decide) (by decide),
    decodeFrom_cons_ok 16 0x7000 (by decide) (by decide),
    decodeFrom_cons_ok 8 0x800000 (by decide) (by decide),
    decodeFrom_cons_ok 24 0x90 (by decide) (by decide),
    decodeFrom_cons_ok 0 0xA0000000 (by decide) (by decide),
    decodeFrom_cons_ok 24 0xB0 (by decide) (by decide),
    decodeFrom_cons_ok 16 0xC000 (by decide) (by decide),
    decodeFrom_cons_ok 0 0xD0000000 (by decide) (by decide)]
  have hnil : ¬ decodeFrom [] w chain = .ok i := by simp [decodeFrom]
  constructor
  · intro hd
    iterate 12
      rcases hd with h | ⟨-, hd⟩
      · exact .inl h
      refine .inr ?_
    rcases hd with h | ⟨-, hd⟩
    · exact h
    · exact absurd hd hnil
  · rintro (⟨h, rfl⟩ | ⟨h, rfl⟩ | ⟨h, rfl⟩ | ⟨h, rfl⟩ | ⟨h, rfl⟩ | ⟨h, rfl⟩ | ⟨h, rfl⟩ | ⟨h, rfl⟩ | ⟨h, rfl⟩ |
      ⟨h, rfl⟩ | ⟨h, rfl⟩ | ⟨h, rfl⟩ | ⟨h, rfl⟩)
    all_goals
      repeat' first
        | exact .inl ⟨h, rfl⟩
        | refine .inr ⟨topBits_exclusive _ _ (by decide) (by decide) h, ?_⟩
        | refine .inr ⟨topBits_exclusive' _ _ (by decide) (by decide) h, ?_⟩

/-- R78 by number: a word is rejected exactly when it is no row's. -/
theorem decode_eq_error {w : Word} {chain : Chain} {e : Illegal} :
    decode w chain = .error e ↔
      topBits w 8 0x100000 = false ∧
      topBits w 0 0x20000000 = false ∧
      topBits w 16 0x3000 = false ∧
      topBits w 0 0x40000000 = false ∧
      topBits w 0 0x50000000 = false ∧
      topBits w 0 0x60000000 = false ∧
      topBits w 16 0x7000 = false ∧
      topBits w 8 0x800000 = false ∧
      topBits w 24 0x90 = false ∧
      topBits w 0 0xA0000000 = false ∧
      topBits w 24 0xB0 = false ∧
      topBits w 16 0xC000 = false ∧
      topBits w 0 0xD0000000 = false ∧ e = illegalReason w := by
  show decodeFrom opcodeTable w chain = _ ↔ _
  unfold opcodeTable
  rw [decodeFrom_cons_error 8 0x100000 (by decide) (by decide),
    decodeFrom_cons_error 0 0x20000000 (by decide) (by decide),
    decodeFrom_cons_error 16 0x3000 (by decide) (by decide),
    decodeFrom_cons_error 0 0x40000000 (by decide) (by decide),
    decodeFrom_cons_error 0 0x50000000 (by decide) (by decide),
    decodeFrom_cons_error 0 0x60000000 (by decide) (by decide),
    decodeFrom_cons_error 16 0x7000 (by decide) (by decide),
    decodeFrom_cons_error 8 0x800000 (by decide) (by decide),
    decodeFrom_cons_error 24 0x90 (by decide) (by decide),
    decodeFrom_cons_error 0 0xA0000000 (by decide) (by decide),
    decodeFrom_cons_error 24 0xB0 (by decide) (by decide),
    decodeFrom_cons_error 16 0xC000 (by decide) (by decide),
    decodeFrom_cons_error 0 0xD0000000 (by decide) (by decide)]
  have hnil : decodeFrom [] w chain = .error e ↔ e = illegalReason w := by
    unfold decodeFrom; simp only [List.find?_nil, Except.error.injEq]; exact eq_comm
  rw [hnil]

end Sys2Proof
end

