-- ==== Sys2Proof/Laws/Fcs.lean ====
section
/-! SUPPORT. The byte halves of a 16-bit value, and the CRC functions of 40_crc.md: the division is linear, so the
table form of the update is the bit-serial one (R110 (a)), and the fold runs over a concatenation. -/

namespace Sys2Proof.Machine

@[simp] theorem hiByte_append (a b : Byte) : hiByte (a ++ b) = a := by
  apply BitVec.eq_of_getLsbD_eq; intro i hi
  simp only [hiByte, BitVec.getLsbD_extractLsb', BitVec.getLsbD_append, hi]; simp

@[simp] theorem loByte_append (a b : Byte) : loByte (a ++ b) = b := by
  apply BitVec.eq_of_getLsbD_eq; intro i hi
  simp only [loByte, BitVec.getLsbD_extractLsb', BitVec.getLsbD_append, hi]; simp [hi]

theorem hiByte_xor (a b : U16) : hiByte (a ^^^ b) = hiByte a ^^^ hiByte b := by
  apply BitVec.eq_of_getLsbD_eq; intro i hi
  simp only [hiByte, BitVec.getLsbD_extractLsb', BitVec.getLsbD_xor, hi]; simp

theorem loByte_xor (a b : U16) : loByte (a ^^^ b) = loByte a ^^^ loByte b := by
  apply BitVec.eq_of_getLsbD_eq; intro i hi
  simp only [loByte, BitVec.getLsbD_extractLsb', BitVec.getLsbD_xor, hi]; simp

@[simp] theorem loByte_zext16 (b : Byte) : loByte (zext16 b) = b := by
  apply BitVec.eq_of_getLsbD_eq; intro i hi
  simp only [loByte, zext16, BitVec.getLsbD_extractLsb', BitVec.getLsbD_setWidth, hi]; simp; omega

@[simp] theorem hiByte_zext16 (b : Byte) : hiByte (zext16 b) = 0 := by
  apply BitVec.eq_of_getLsbD_eq; intro i hi
  simp only [hiByte, zext16, BitVec.getLsbD_extractLsb', BitVec.getLsbD_setWidth, hi]; simp

/-- A 16-bit value is its two halves. -/
theorem eq_halves (v : U16) : v = zext16 (loByte v) ^^^ (hiByte v ++ 0#8 : U16) := by
  apply BitVec.eq_of_getLsbD_eq; intro i hi
  simp only [zext16, loByte, hiByte, BitVec.getLsbD_append, BitVec.getLsbD_xor, BitVec.getLsbD_setWidth,
    BitVec.getLsbD_extractLsb']
  by_cases h : i < 8
  · simp [h, hi]
  · simp [h, hi, Nat.add_sub_cancel' (Nat.le_of_not_lt h)]; omega

theorem halves_inj {a b : U16} : a = b ↔ hiByte a = hiByte b ∧ loByte a = loByte b := by
  constructor
  · rintro rfl; exact ⟨rfl, rfl⟩
  · rintro ⟨h1, h2⟩; rw [eq_halves a, eq_halves b, h1, h2]

theorem ushiftRight_eight (c : U16) : c >>> 8 = zext16 (hiByte c) := by
  apply BitVec.eq_of_getLsbD_eq; intro i hi
  simp only [zext16, hiByte, BitVec.getLsbD_setWidth, BitVec.getLsbD_extractLsb', BitVec.getLsbD_ushiftRight]
  by_cases h : i < 8
  · simp [h, hi]
  · simp [h]; apply BitVec.getLsbD_of_ge; omega

/-- One step of the division is linear. -/
theorem fcsShift_xor (a b : U16) : fcsShift (a ^^^ b) = fcsShift a ^^^ fcsShift b := by
  unfold fcsShift
  rw [BitVec.getLsbD_xor, BitVec.ushiftRight_xor_distrib]
  cases a.getLsbD 0 <;> cases b.getLsbD 0 <;> simp
  · ac_rfl
  · ac_rfl
  · apply BitVec.eq_of_getLsbD_eq; intro i hi
    simp only [BitVec.getLsbD_xor]
    cases fcsPoly.getLsbD i <;> simp

theorem fcsShifts_xor (n : Nat) (a b : U16) : fcsShifts n (a ^^^ b) = fcsShifts n a ^^^ fcsShifts n b := by
  induction n generalizing a b with
  | zero => rfl
  | succ n ih => simp [fcsShifts, fcsShift_xor, ih]

/-- Eight steps move a high byte down. -/
theorem fcsShifts_high : ∀ h : Byte, fcsShifts 8 (h ++ 0#8 : U16) = zext16 h := by decide +kernel

/-- R110 (a): the table form equals the bit-serial form. -/
theorem crcUpdate_eq_bitSerial (c : U16) (b : Byte) : crcUpdate c b = crcUpdateBitSerial c b := by
  unfold crcUpdate crcUpdateBitSerial fcsTable
  have hh : hiByte (c ^^^ zext16 b) = hiByte c := by rw [hiByte_xor, hiByte_zext16]; exact BitVec.xor_zero
  conv_rhs => rw [eq_halves (c ^^^ zext16 b), fcsShifts_xor, fcsShifts_high, hh]
  rw [ushiftRight_eight, BitVec.xor_comm]

/-- R107: the fold of a concatenation. -/
theorem crcFold_append (c : U16) (s t : List Byte) : crcFold c (s ++ t) = crcFold (crcFold c s) t := by
  induction s generalizing c with
  | nil => rfl
  | cons b s ih => simp [crcFold, ih]

end Sys2Proof.Machine
end

