-- ==== Sys2Proof/Laws/PerInstr.lean ====
section
/-! SUPPORT. The per-instruction family EncodeLegal: the word and chain that encode an instruction are a command as
the interface defines it, each reserved bit of its format 0 (30_encoding.md R70, R71, R78) and a chain only with
TX_START (R73). The legality check reads R71 and the encoder's words are decoded by R77, so it holds two readings of
one encoding against each other. -/

namespace Sys2Proof.Laws.EncodeLegal

/-- The command that encodes `i` is well formed. -/
def Statement (i : Instr) : Prop := (encode i).wellFormed = true

/-- A word given as a number is legal when its opcode field and the reserved bits of its format are as R71 asks. -/
theorem of_toNat {w : Word} {n : Nat} (op : BitVec 4) {f : Format} {chain : Chain} {a : Agent} (hw : w.toNat = n)
    (hf : formatOf op = some f) (hop : n / 2 ^ 28 = op.toNat)
    (hr : (match f with
      | .fNone => n % 2 ^ 28
      | .fByte => n / 2 ^ 8 % 2 ^ 20
      | .fD16 => n / 2 ^ 16 % 2 ^ 12
      | .fReg => n / 2 ^ 8 % 2 ^ 20
      | .fRegw => n / 2 ^ 24 % 2 ^ 4
      | .fCrc => n / 2 ^ 24 % 2 ^ 4) = 0)
    (hc : op = 0x3 ∨ chain = []) :
    ({ agent := a, word := w, chain := chain } : Command).wellFormed = true := by
  have hopw : opField w = op := by
    apply BitVec.eq_of_toNat_eq
    rw [opField, BitVec.extractLsb'_toNat, Nat.shiftRight_eq_div_pow, hw, hop, Nat.mod_eq_of_lt op.isLt]
  have hres : f.reservedClear w = true := by
    cases f <;>
      (unfold Format.reservedClear
       rw [beq_iff_eq]
       apply BitVec.eq_of_toNat_eq
       rw [BitVec.extractLsb'_toNat, Nat.shiftRight_eq_div_pow, hw]
       simpa using hr)
  simp only [Command.wellFormed, wordLegal, hopw, hf, hres, chainPlaced, Bool.true_and]
  rcases hc with rfl | rfl <;> simp

theorem rxByte (b : Byte) : Statement (.rxByte b) := by
  have hb := b.isLt
  refine of_toNat (n := 0x10000000 + b.toNat) 0x1 ?_ rfl ?_ ?_ (.inr rfl)
  · simp only [encodeWord, toNat_append_mul, BitVec.toNat_ofNat]; omega
  · show _ = 0x1; omega
  · dsimp only; omega

theorem txDone : Statement (.txDone) := rfl

theorem txStart (p : U16) (chain : Chain) : Statement (.txStart p chain) := by
  have hp := p.isLt
  refine of_toNat (n := 0x30000000 + p.toNat) 0x3 ?_ rfl ?_ ?_ (.inl rfl)
  · simp only [encodeWord, toNat_append_mul, BitVec.toNat_ofNat]; omega
  · show _ = 0x3; omega
  · dsimp only; omega

theorem qPop : Statement (.qPop) := rfl

theorem qHeadProto : Statement (.qHeadProto) := rfl

theorem qHeadLen : Statement (.qHeadLen) := rfl

theorem qHeadByte (i : U16) : Statement (.qHeadByte i) := by
  have hi := i.isLt
  refine of_toNat (n := 0x70000000 + i.toNat) 0x7 ?_ rfl ?_ ?_ (.inr rfl)
  · simp only [encodeWord, toNat_append_mul, BitVec.toNat_ofNat]; omega
  · show _ = 0x7; omega
  · dsimp only; omega

theorem regRead (a : Byte) : Statement (.regRead a) := by
  have ha := a.isLt
  refine of_toNat (n := 0x80000000 + a.toNat) 0x8 ?_ rfl ?_ ?_ (.inr rfl)
  · simp only [encodeWord, toNat_append_mul, BitVec.toNat_ofNat]; omega
  · show _ = 0x8; omega
  · dsimp only; omega

theorem regWrite (a : Byte) (v : U16) : Statement (.regWrite a v) := by
  have ha := a.isLt
  have hv := v.isLt
  refine of_toNat (n := 0x90000000 + a.toNat * 65536 + v.toNat) 0x9 ?_ rfl ?_ ?_ (.inr rfl)
  · simp only [encodeWord, toNat_append_mul, BitVec.toNat_ofNat]; omega
  · show _ = 0x9; omega
  · dsimp only; omega

theorem crcSeed : Statement (.crcSeed) := rfl

theorem crcUpdate (c : U16) (b : Byte) : Statement (.crcUpdate c b) := by
  have hc := c.isLt
  have hb := b.isLt
  refine of_toNat (n := 0xB0000000 + b.toNat * 65536 + c.toNat) 0xB ?_ rfl ?_ ?_ (.inr rfl)
  · simp only [encodeWord, toNat_append_mul, BitVec.toNat_ofNat]; omega
  · show _ = 0xB; omega
  · dsimp only; omega

theorem crcFinal (c : U16) : Statement (.crcFinal c) := by
  have hc := c.isLt
  refine of_toNat (n := 0xC0000000 + c.toNat) 0xC ?_ rfl ?_ ?_ (.inr rfl)
  · simp only [encodeWord, toNat_append_mul, BitVec.toNat_ofNat]; omega
  · show _ = 0xC; omega
  · dsimp only; omega

theorem reset : Statement (.reset) := rfl

end Sys2Proof.Laws.EncodeLegal
end

