-- ==== Sys2Proof/Laws/Ring.lean ====
section
/-! SUPPORT. The ring arithmetic of 10_state.md R26 and R27, and the invariant taken apart by who may write what: the
receiver's registers with slot memory, the transmitter's registers, a commit, a pop. -/

namespace Sys2Proof.Machine

theorem Config.nSlots_range {c : Config} (h : c.wellFormed = true) : 1 ≤ c.nSlots ∧ c.nSlots ≤ 255 := by
  simp [Config.wellFormed] at h; omega

theorem Config.mtuMax_le {c : Config} (h : c.wellFormed = true) : c.mtuMax ≤ 65533 := by
  simp [Config.wellFormed] at h; omega

/-- R26: the advance of an index, as a number. -/
theorem nextIndex_toNat {c : Config} (h : c.wellFormed = true) (i : Byte) :
    (nextIndex c i).toNat = (i.toNat + 1) % c.nSlots := by
  have hn := Config.nSlots_range h
  have hm : (i.toNat + 1) % c.nSlots < c.nSlots := Nat.mod_lt _ (by omega)
  rw [nextIndex, BitVec.toNat_ofNat, Nat.mod_eq_of_lt (by omega)]

/-- A register that holds less than its bound takes one more without wrapping. -/
theorem succ_toNat {n : Nat} (v : BitVec n) (h : v.toNat + 1 < 2 ^ n) : (v + 1).toNat = v.toNat + 1 := by
  have h1 : (1 : BitVec n).toNat = 1 := by
    show (BitVec.ofNat n 1).toNat = 1
    rw [BitVec.toNat_ofNat, Nat.mod_eq_of_lt (by omega)]
  rw [BitVec.toNat_add, h1, Nat.mod_eq_of_lt h]

theorem pred_toNat {n : Nat} (v : BitVec n) (h : v ≠ 0) : (v - 1).toNat = v.toNat - 1 := by
  have hv : v.toNat ≠ 0 := fun e => h (BitVec.eq_of_toNat_eq (by simpa using e))
  have hn : v.toNat < 2 ^ n := v.isLt
  have h1 : (1 : BitVec n).toNat = 1 := by
    show (BitVec.ofNat n 1).toNat = 1
    rw [BitVec.toNat_ofNat, Nat.mod_eq_of_lt (by omega)]
  rw [BitVec.toNat_sub, h1, show 2 ^ n - 1 + v.toNat = v.toNat - 1 + 2 ^ n by omega, Nat.add_mod_right,
    Nat.mod_eq_of_lt (by omega)]

theorem Inv.ringIndex_lt {s : State} (h : Inv s) (j : Nat) : ringIndex s j < s.cfg.nSlots :=
  Nat.mod_lt _ (by have := Config.nSlots_range h.config; omega)

theorem Inv.wr_lt {s : State} (h : Inv s) : s.ring.wr.toNat < s.cfg.nSlots := by
  rw [h.fill]; exact Nat.mod_lt _ (by have := Config.nSlots_range h.config; omega)

/-- R27: the slot being filled is the one after the newest committed slot. -/
theorem Inv.wr_eq {s : State} (h : Inv s) : s.ring.wr.toNat = ringIndex s s.ring.count.toNat := h.fill

/-- R26: the head slot is the oldest committed slot. -/
theorem Inv.rd_eq {s : State} (h : Inv s) : s.ring.rd.toNat = ringIndex s 0 := by
  rw [ringIndex, Nat.add_zero, Nat.mod_eq_of_lt h.head]

/-- Fewer than N positions of the ring are different slots. -/
theorem Inv.ringIndex_inj {s : State} (h : Inv s) {i j : Nat} (hi : i < s.cfg.nSlots) (hj : j < s.cfg.nSlots)
    (he : ringIndex s i = ringIndex s j) : i = j := by
  have hr := h.head
  unfold ringIndex at he
  have key : ∀ k, k < s.cfg.nSlots → (s.ring.rd.toNat + k) % s.cfg.nSlots =
      if s.ring.rd.toNat + k < s.cfg.nSlots then s.ring.rd.toNat + k else s.ring.rd.toNat + k - s.cfg.nSlots := by
    intro k hk
    split
    · exact Nat.mod_eq_of_lt ‹_›
    · rw [Nat.mod_eq_sub_mod (by omega), Nat.mod_eq_of_lt (by omega)]
  rw [key i hi, key j hj] at he
  split at he <;> split at he <;> omega

theorem Inv.not_full_iff {s : State} (h : Inv s) : qFull s = false ↔ s.ring.count.toNat < s.cfg.nSlots := by
  have := h.count
  rw [Bool.eq_false_iff, ne_eq, qFull_iff]; omega

/-- R51: while the ring is not full the slot being filled is no committed slot. -/
theorem Inv.wr_ne {s : State} (h : Inv s) (hq : qFull s = false) {j : Nat} (hj : j < s.ring.count.toNat) :
    ringIndex s j ≠ s.ring.wr.toNat := by
  have hc := h.not_full_iff.1 hq
  intro e
  rw [h.wr_eq] at e
  have := h.ringIndex_inj (by omega) hc e
  omega

/-- R138: in every state the count is within two of the limit. -/
theorem Inv.count_le {s : State} (h : Inv s) : s.rx.count.toNat ≤ s.rx.limit.toNat + 2 := by
  have := h.counted
  unfold RxCountOk at this
  split at this <;> omega

/-- The receiver's registers and slot memory may be replaced by any that keep their part of the invariant. -/
theorem Inv.withRx {s : State} (h : Inv s) (r : Receiver) (m : Memory) (hm : m.wf) (hw : m.within s.cfg)
    (hl : r.limit.toNat ≤ s.cfg.mtuMax) (hc : RxCountOk { s with rx := r }) :
    Inv { s with rx := r, slotMem := m } :=
  ⟨h.config, h.headers, hm, hw, h.count, h.head, h.fill, h.mtu, hl, hc, h.committed, h.escape, h.payload, h.index⟩

/-- The transmitter's registers may be replaced by any that keep their part of the invariant. -/
theorem Inv.withTx {s : State} (h : Inv s) (x : Transmitter)
    (he : x.escPend = true → x.state ≠ .idle ∧ x.state ≠ .closingFlag) (hp : x.payload.length = x.len.toNat)
    (hi : TxIndexOk { s with tx := x }) : Inv { s with tx := x } :=
  ⟨h.config, h.headers, h.memory, h.located, h.count, h.head, h.fill, h.mtu, h.limit, h.counted, h.committed, he, hp, hi⟩

/-- The outputs of the last step, the commands still to come and the overflow count are free of the invariant. -/
theorem Inv.withOutputs {s : State} (h : Inv s) (w : Option Word) (b : Option Byte) (p : List Command) (n : U16) :
    Inv { s with response := w, txOut := b, pending := p, ovfCount := n } :=
  ⟨h.config, h.headers, h.memory, h.located, h.count, h.head, h.fill, h.mtu, h.limit, h.counted, h.committed, h.escape,
    h.payload, h.index⟩

/-- R137: a commit of the bytes stored keeps the ring. -/
theorem Inv.commit {s : State} (h : Inv s) {n : U16} (hq : qFull s = false) (hn : 2 ≤ n.toNat)
    (hn' : n.toNat ≤ s.cfg.mtuMax + 2) : Inv (Machine.commit n s) := by
  have hN := Config.nSlots_range h.config
  have hc := h.not_full_iff.1 hq
  have hwr := h.wr_lt
  have hcount : (s.ring.count + 1).toNat = s.ring.count.toNat + 1 := succ_toNat _ (by show _ < 256; omega)
  have hlen : (n - 2).toNat = n.toNat - 2 := by
    have := n.isLt
    rw [BitVec.toNat_sub]
    show (65536 - 2 + n.toNat) % 65536 = _
    omega
  refine ⟨h.config, ?_, h.memory, h.located, ?_, h.head, ?_, h.mtu, h.limit, h.counted, ?_, h.escape, h.payload, h.index⟩
  · rw [commit_slotHdrs, List.length_set]; exact h.headers
  · rw [commit_ring]; show (s.ring.count + 1).toNat ≤ s.cfg.nSlots; omega
  · rw [commit_ring]
    show (nextIndex s.cfg s.ring.wr).toNat = (s.ring.rd.toNat + (s.ring.count + 1).toNat) % s.cfg.nSlots
    rw [nextIndex_toNat h.config, hcount, h.fill, Nat.mod_add_mod, Nat.add_assoc]
  · intro j hj
    replace hj : j < s.ring.count.toNat + 1 := by rw [← hcount]; exact hj
    show HoldsFrame _ (ringIndex s j)
    by_cases hjc : j < s.ring.count.toNat
    · obtain ⟨hd, h1, h2⟩ := h.committed j hjc
      refine ⟨hd, ?_, h2⟩
      rw [commit_slotHdrs, List.getElem?_set_ne (fun e => h.wr_ne hq hjc e.symm)]; exact h1
    · obtain rfl : j = s.ring.count.toNat := by omega
      rw [← h.wr_eq]
      refine ⟨{ len := n - 2, proto := s.rx.proto }, ?_, ?_⟩
      · rw [commit_slotHdrs, List.getElem?_set_self (by rw [h.headers]; exact hwr)]
      · show (n - 2).toNat ≤ s.cfg.mtuMax; omega

/-- R190: a pop keeps the ring. -/
theorem Inv.pop {s : State} (h : Inv s) (hc : s.ring.count ≠ 0) :
    Inv { s with ring.rd := nextIndex s.cfg s.ring.rd, ring.count := s.ring.count - 1 } := by
  have hcount := pred_toNat _ hc
  have hpos : s.ring.count.toNat ≠ 0 := fun e => hc (BitVec.eq_of_toNat_eq (by simpa using e))
  have hcN := h.count
  have hidx : ∀ j, ((nextIndex s.cfg s.ring.rd).toNat + j) % s.cfg.nSlots = ringIndex s (j + 1) := by
    intro j
    rw [nextIndex_toNat h.config, Nat.mod_add_mod, ringIndex, Nat.add_assoc, Nat.add_comm 1 j]
  refine ⟨h.config, h.headers, h.memory, h.located, ?_, ?_, ?_, h.mtu, h.limit, h.counted, ?_, h.escape, h.payload,
    h.index⟩
  · show (s.ring.count - 1).toNat ≤ s.cfg.nSlots; omega
  · show (nextIndex s.cfg s.ring.rd).toNat < s.cfg.nSlots
    rw [nextIndex_toNat h.config]; exact Nat.mod_lt _ (by have := Config.nSlots_range h.config; omega)
  · show s.ring.wr.toNat = ((nextIndex s.cfg s.ring.rd).toNat + (s.ring.count - 1).toNat) % s.cfg.nSlots
    rw [hidx, hcount, Nat.sub_add_cancel (by omega)]; exact h.fill
  · intro j hj
    replace hj : j < s.ring.count.toNat - 1 := by rw [← hcount]; exact hj
    show HoldsFrame s (((nextIndex s.cfg s.ring.rd).toNat + j) % s.cfg.nSlots)
    rw [hidx]; exact h.committed _ (by omega)

end Sys2Proof.Machine
end

