-- ==== Sys2Proof/Laws/Wire.lean ====
section
/-! SUPPORT. The escape functions byte by byte (30_encoding.md R83, R84), and a sequence of commands cut in two. -/

namespace Sys2Proof.Machine

/-- R83: the escape XOR undoes itself. -/
@[simp] theorem xor_escXor (b : Byte) : b ^^^ escXor ^^^ escXor = b := by
  rw [BitVec.xor_assoc, BitVec.xor_self, BitVec.xor_zero]

theorem needsEscape_iff (b : Byte) : needsEscape b = true ↔ b = 0x7E ∨ b = 0x7D := by
  simp [needsEscape, flagByte, escByte]

/-- R83: the second byte of an escape pair is neither a flag nor an escape byte. -/
theorem xor_escXor_ne {b : Byte} (h : needsEscape b = true) : b ^^^ escXor ≠ 0x7E ∧ b ^^^ escXor ≠ 0x7D := by
  rcases (needsEscape_iff b).1 h with rfl | rfl <;> decide

theorem escape_append (s t : List Byte) : escape (s ++ t) = escape s ++ escape t := by
  induction s with
  | nil => rfl
  | cons b s ih => simp [escape, ih]

theorem runAll_append (is js : List Instr) (s : State) :
    runAll (is ++ js) s = match runAll is s with
      | some (t, bytes) => (runAll js t).map (fun p => (p.1, bytes ++ p.2))
      | none => none := by
  induction is generalizing s with
  | nil =>
    show runAll js s = (runAll js s).map (fun p => (p.1, [] ++ p.2))
    cases runAll js s <;> rfl
  | cons i is ih =>
    simp only [List.cons_append, runAll]
    cases exec i s with
    | next t =>
      dsimp only
      rw [ih]
      cases runAll is t with
      | none => rfl
      | some p =>
        dsimp only
        cases runAll js p.1 <;> simp
    | fault e => rfl
    | refused e => rfl

/-- Two sequences run one after the other. -/
theorem runAll_append_eq {is js : List Instr} {s t u : State} {b c : List Byte} (h : runAll is s = some (t, b))
    (h' : runAll js t = some (u, c)) : runAll (is ++ js) s = some (u, b ++ c) := by
  rw [runAll_append, h]
  simp [h']

theorem rxStream_append (a b : List Byte) : rxStream (a ++ b) = rxStream a ++ rxStream b := List.map_append

end Sys2Proof.Machine
end

