-- ==== Sys2Proof/Machine/Assembler.lean ====
section
/-! DEFINITION. The assembler text of a command (30_encoding.md R79), with every operand in decimal, and the CSR names of
10_state.md R32. It describes how test programs are written; no step reads it. -/

namespace Sys2Proof.Machine

/-- R32: the name of a CSR. -/
def Csr.name : Csr → String
  | .status => "STATUS"
  | .mtu => "MTU"
  | .qCount => "Q_COUNT"
  | .qRd => "Q_RD"
  | .qWr => "Q_WR"
  | .ovfCount => "OVF_COUNT"
  | .rxCount => "RX_COUNT"
  | .rxProto => "RX_PROTO"
  | .rxLimit => "RX_LIMIT"
  | .txProto => "TX_PROTO"
  | .txFcs => "TX_FCS"
  | .txIndex => "TX_INDEX"
  | .txLen => "TX_LEN"
  | .txEscByte => "TX_ESC_BYTE"
  | .mtuMax => "MTU_MAX"
  | .nSlots => "N_SLOTS"

/-- R79: a CSR operand, by name where the number is assigned and by number elsewhere. -/
def csrText (a : Byte) : String :=
  match csrOf a with
  | some r => r.name
  | none => Nat.repr a.toNat

/-- Texts with a comma and a space between them. -/
def commas : List String → String
  | [] => ""
  | [t] => t
  | t :: ts => t ++ ", " ++ commas ts

/-- R79: `seg` is `[b, b, ...]`. -/
def segText (seg : List Byte) : String := "[" ++ commas (seg.map (fun b => Nat.repr b.toNat)) ++ "]"

/-- R79: the chain operand, its segments between braces (character codes 123 and 125). -/
def chainText (chain : Chain) : String :=
  String.singleton (Char.ofNat 123) ++ commas (chain.map segText) ++ String.singleton (Char.ofNat 125)

/-- R79: the line of a command. -/
def assembly : Instr → String
  | .rxByte b => "RX_BYTE " ++ Nat.repr b.toNat
  | .txDone => "TX_DONE"
  | .txStart p chain => "TX_START " ++ commas [Nat.repr p.toNat, chainText chain]
  | .qPop => "Q_POP"
  | .qHeadProto => "Q_HEAD_PROTO"
  | .qHeadLen => "Q_HEAD_LEN"
  | .qHeadByte i => "Q_HEAD_BYTE " ++ Nat.repr i.toNat
  | .regRead a => "REG_READ " ++ csrText a
  | .regWrite a v => "REG_WRITE " ++ commas [csrText a, Nat.repr v.toNat]
  | .crcSeed => "CRC_SEED"
  | .crcUpdate c b => "CRC_UPDATE " ++ commas [Nat.repr c.toNat, Nat.repr b.toNat]
  | .crcFinal c => "CRC_FINAL " ++ Nat.repr c.toNat
  | .reset => "RESET"

/-- R79: the agent that may be written before a line. -/
def agentTag : Agent → String
  | .transport => "T:"
  | .host => "H:"

end Sys2Proof.Machine
end

