-- ==== Sys2Proof/Tests/Slice0.lean ====
section
/-! SUPPORT. The model's own tests. Expected values come from the spec's vectors (95_test_vectors.md) or from its
encoding tables (30_encoding.md R71, R77), never from the model. The last part shows, for each obligation with
hypotheses, a concrete state and operands that meet them together, clause by clause. -/

open Sys2Proof Sys2Proof.Machine Sys2Proof.Spec

namespace Sys2Proof.Tests

/-! ### Helpers -/

/-- The next state of a step, if it has one. -/
def nextOf : Host.Outcome State Fault Refusal → Option State
  | .next t => some t
  | .fault _ => none
  | .refused _ => none

/-- What a command answers and drives. -/
def answer (i : Instr) (s : State) : Option (Option Word × Option Byte) :=
  (nextOf (exec i s)).map (fun t => (t.response, t.txOut))

/-- Reset, with one command issued. -/
def issued (w : Word) (chain : Chain) : State :=
  { State.reset with pending := [{ agent := .host, word := w, chain := chain }] }

/-- Reset, with the receiver in a state and `n` field bytes of a frame of protocol 0x0021 counted. -/
def receiving (st : RxState) (n : U16) : State :=
  { State.reset with rx := { state := st, esc := false, count := n, limit := 8, proto := 0x0021, drop := false } }

/-- Reset, with the transmitter in a state of sending the payload `45` under protocol 0x0021. -/
def sending (st : TxState) (fcs index : U16) : State :=
  { State.reset with
    tx :=
      { state := st, escPend := false, escByte := 0, fcs := fcs, proto := 0x0021, index := index, len := 1
        payload := [0x45] } }

/-- A ring with its N = 2 slots committed. -/
def fullRing (s : State) : State := { s with ring := { count := 2, rd := 0, wr := 0 } }

/-- The IP frame of 95_test_vectors.md 3.2, payload `45`, committed to slot 0; the same frame stored in slot 1 up to its
FCS, its closing flag still to come; and the same frame on transmit, its payload sent. -/
def busyState : State :=
  { sending .data 0xCF5D 1 with
    rx := (receiving .data 3).rx
    ring := { count := 1, rd := 0, wr := 1 }
    slotHdrs := [{ len := 1, proto := 0x0021 }, { len := 0, proto := 0 }]
    slotMem := [(0, 0x45), (1, 0xA2), (2, 0x30), (65536, 0x45), (65537, 0xA2), (65538, 0x30)] }

/-! ### Decoding: words written out bit by bit from the formats of R71 and the OP values of R77 -/

theorem test_decode_rx_byte : decode 0b0001_00000000000000000000_01111110 [] = .ok (.rxByte 0x7E) := by decide
theorem test_decode_tx_done : decode 0b0010_0000000000000000000000000000 [] = .ok .txDone := by decide
theorem test_decode_tx_start :
    decode 0b0011_000000000000_1100000000100001 [[1, 2], [3]] = .ok (.txStart 0xC021 [[1, 2], [3]]) := by decide
theorem test_decode_q_pop : decode 0b0100_0000000000000000000000000000 [] = .ok .qPop := by decide
theorem test_decode_q_head_proto : decode 0b0101_0000000000000000000000000000 [] = .ok .qHeadProto := by decide
theorem test_decode_q_head_len : decode 0b0110_0000000000000000000000000000 [] = .ok .qHeadLen := by decide
theorem test_decode_q_head_byte :
    decode 0b0111_000000000000_1000000000000011 [] = .ok (.qHeadByte 0x8003) := by decide
theorem test_decode_reg_read : decode 0b1000_00000000000000000000_10001110 [] = .ok (.regRead 0x8E) := by decide
theorem test_decode_reg_write :
    decode 0b1001_0000_10000001_0000010111010100 [] = .ok (.regWrite 0x81 1492) := by decide
theorem test_decode_crc_seed : decode 0b1010_0000000000000000000000000000 [] = .ok .crcSeed := by decide
theorem test_decode_crc_update :
    decode 0b1011_0000_01010110_0001001000110100 [] = .ok (.crcUpdate 0x1234 0x56) := by decide
theorem test_decode_crc_final : decode 0b1100_000000000000_0001100100011100 [] = .ok (.crcFinal 0x191C) := by decide
theorem test_decode_reset : decode 0b1101_0000000000000000000000000000 [] = .ok .reset := by decide

/-- R78 and 95_test_vectors.md 6: reserved OP values. -/
theorem test_reserved_opcodes :
    [0x00000000, 0xE0000000, 0xF0000000].map (fun w => decode w []) =
      [.error .reservedOpcode, .error .reservedOpcode, .error .reservedOpcode] := by decide

/-- 95_test_vectors.md 2.3, 4.2, 5 and 6: words with a reserved bit set. -/
theorem test_reserved_bits :
    ([0x10000100, 0x20000001, 0x30010021, 0x40000001, 0x81000000, 0x9F000000, 0xA0000001, 0xB1000000,
      0xD8000000].all (fun w => decode w [] == .error .reservedBit)) = true := by decide

/-- R77: no word matches two rows. -/
theorem test_rows_disjoint :
    opcodeTable.Pairwise (fun r q => (r.pattern ^^^ q.pattern) &&& r.mask &&& q.mask ≠ 0) := by decide

/-- R79: the assembler's lines, and that the operands of R77's example words come out where it puts them. -/
theorem test_assembly :
    assembly (.regWrite 0x01 1492) = "REG_WRITE MTU, 1492" ∧ assembly (.regRead 0x10) = "REG_READ 16" ∧
      assembly (.txStart 33 [[69, 126], [], [125, 0]]) =
        "TX_START 33, " ++ chainText [[69, 126], [], [125, 0]] ∧
      agentTag (encode .txDone).agent = "T:" := by decide

/-- The host's reading of a table row: the row's bits are the whole word. -/
theorem test_decode_table_word :
    decodeTableWord 32 0x9000C021 = some (.regWrite 0 0xC021) ∧ decodeTableWord 32 0xE0000000 = none := by decide

/-! ### WellFormed: an ill-formed term for each check -/

theorem smoke_no_slots : ({ nSlots := 0, mtuMax := 1492 } : Config).wellFormed = false := by decide
theorem smoke_too_many_slots : ({ nSlots := 256, mtuMax := 1492 } : Config).wellFormed = false := by decide
theorem smoke_mtu_max_too_large : ({ nSlots := 2, mtuMax := 65534 } : Config).wellFormed = false := by decide
theorem smoke_config_edges :
    ({ nSlots := 1, mtuMax := 0 } : Config).wellFormed = true ∧
      ({ nSlots := 255, mtuMax := 65533 } : Config).wellFormed = true := by decide
theorem smoke_reserved_opcode : wordLegal 0x00000000 = false ∧ wordLegal 0xE0000000 = false ∧
    wordLegal 0xF0000000 = false := by decide
theorem smoke_reserved_none : wordLegal 0x20000001 = false ∧ wordLegal 0xD8000000 = false := by decide
theorem smoke_reserved_byte : wordLegal 0x10000100 = false := by decide
theorem smoke_reserved_d16 : wordLegal 0x30010021 = false := by decide
theorem smoke_reserved_reg : wordLegal 0x81000000 = false := by decide
theorem smoke_reserved_regw : wordLegal 0x9F000000 = false := by decide
theorem smoke_reserved_crc : wordLegal 0xB1000000 = false := by decide
theorem smoke_chain_misplaced :
    ({ agent := .host, word := 0x40000000, chain := [[1]] } : Command).wellFormed = false := by decide
theorem smoke_chain_placed :
    ({ agent := .host, word := 0x30000021, chain := [[1]] } : Command).wellFormed = true := by decide

/-! ### One step of each command -/

/-- 95_test_vectors.md 3.2, back-to-back frames: the closing flag commits slot 1. -/
theorem test_rx_byte_commit :
    (nextOf (exec (.rxByte 0x7E) busyState)).map (fun t => (t.response, t.ring, t.slotHdrs, t.rx.state)) =
      some (some 0x00010001, { count := 2, rd := 0, wr := 0 },
        [{ len := 1, proto := 0x0021 }, { len := 1, proto := 0x0021 }], .addr) := by decide

/-- 95_test_vectors.md 3.1, "escaped address 0x7D 0xDF = 0xFF". -/
theorem test_rx_byte_escaped_address :
    (nextOf (exec (.rxByte 0xDF) { receiving .addr 0 with rx.esc := true })).map (fun t => (t.response, t.rx.state)) =
      some (some 0x00000000, .ctrl) := by decide

/-- 95_test_vectors.md 7 P1, step 12: with the payload exhausted TX_DONE finalizes the FCS; here
0xE581 ^ 0xFFFF = 0x1A7E, whose low byte is escaped. -/
theorem test_tx_done_escaped_fcs :
    (nextOf (exec .txDone { busyState with tx.fcs := 0xE581 })).map
        (fun t => (t.response, t.tx.escByte, t.tx.fcs, t.tx.state)) =
      some (some 0x0001007D, 0x5E, 0x1A7E, .fcsLo) := by decide

/-- 42_tx.md R176: the payload byte `45`, the FCS 0x191C before it and 0xCF5D after. -/
theorem test_tx_done_payload :
    (nextOf (exec .txDone (sending .protoLo 0x191C 0))).map (fun t => (t.response, t.tx.fcs, t.tx.index)) =
      some (some 0x00010045, 0xCF5D, 1) := by decide

/-- 95_test_vectors.md 7 P1, step 1: three segments, one of them empty. -/
theorem test_tx_start_segments :
    (nextOf (exec (.txStart 0x0021 [[0x45, 0x7E], [], [0x7D, 0x00]]) State.reset)).map
        (fun t => (t.response, t.txOut, t.tx.payload, t.tx.len)) =
      some (some 0x0001007E, some 0x7E, [0x45, 0x7E, 0x7D, 0x00], 4) := by decide

/-- 95_test_vectors.md 4.2: an empty chain. -/
theorem test_tx_start_empty : answer (.txStart 0x0021 [[], []]) State.reset = some (some 0x10000000, none) := by
  decide

/-- 95_test_vectors.md 5. -/
theorem test_q_pop :
    (nextOf (exec .qPop busyState)).map (fun t => (t.response, t.ring)) =
      some (some 0x00000000, { count := 0, rd := 1, wr := 1 }) := by decide
theorem test_q_pop_empty : answer .qPop State.reset = some (some 0x20000000, none) := by decide
theorem test_q_head_proto : answer .qHeadProto busyState = some (some 0x00010021, none) := by decide
theorem test_q_head_proto_lcp :
    answer .qHeadProto { busyState with slotHdrs := [{ len := 1, proto := 0xC021 }, { len := 0, proto := 0 }] } =
      some (some 0x0002C021, none) := by decide
theorem test_q_head_len : answer .qHeadLen busyState = some (some 0x00000001, none) := by decide
theorem test_q_head_byte_fcs : answer (.qHeadByte 2) busyState = some (some 0x00000030, none) := by decide
theorem test_q_head_byte_range : answer (.qHeadByte 3) busyState = some (some 0x30000000, none) := by decide

/-- 95_test_vectors.md 6: STATUS 0x1401 (receiver in ADDR, ring full). -/
theorem test_reg_read_status : answer (.regRead 0x00) (fullRing (receiving .addr 0)) = some (some 0x00001401, none) := by
  decide
/-- 95_test_vectors.md 6: STATUS 0x0225. -/
theorem test_reg_read_status_both_busy :
    answer (.regRead 0x00) { sending .address 0x00FF 0 with rx := (receiving .data 0).rx } =
      some (some 0x00000225, none) := by decide
/-- 95_test_vectors.md 6, steps 7 and 13. -/
theorem test_reg_write_too_large : answer (.regWrite 0x01 1493) State.reset = some (some 0x30000000, none) := by decide
theorem test_reg_write_read_only : answer (.regWrite 0x02 65535) State.reset = some (some 0x40000000, none) := by decide

/-- 95_test_vectors.md 2. -/
theorem test_crc_seed : answer .crcSeed State.reset = some (some 0x0000FFFF, none) := by decide
theorem test_crc_update : answer (.crcUpdate 0x1234 0x56) State.reset = some (some 0x00004006, none) := by decide
theorem test_crc_update_last_entry : answer (.crcUpdate 0x0000 0xFF) State.reset = some (some 0x00000F78, none) := by
  decide
theorem test_crc_final : answer (.crcFinal 0x191C) State.reset = some (some 0x0000E6E3, none) := by decide
/-- R50: a location that no command has written holds a byte, and a head read returns it. -/
theorem test_unwritten_location_reads :
    answer (.qHeadByte 1) { busyState with
        slotHdrs := [{ len := 2, proto := 0x0021 }, { len := 0, proto := 0 }]
        slotMem := [(0, 0x45)] } =
      some (some (0x000000#24 ++ unlistedByte), none) := by decide
/-- The canonical form: the byte an unlisted address reads as is not listed. -/
theorem test_write_unlisted : Memory.write [(0, 0x45), (1, 0xA2)] 0 unlistedByte = [(1, 0xA2)] := by decide
/-- 95_test_vectors.md 2.2: the published check value. -/
theorem test_fcs16_check_value : fcs16 [0x31, 0x32, 0x33, 0x34, 0x35, 0x36, 0x37, 0x38, 0x39] = 0x906E := by decide
/-- 95_test_vectors.md 1.3. -/
theorem test_escape : escape [0x7E, 0x41, 0x7D] = [0x7D, 0x5E, 0x41, 0x7D, 0x5D] := by decide
/-- 95_test_vectors.md 4.1, the last row. -/
theorem test_encode_frame :
    encodeFrame 0x7E7D [0x7E] =
      [0x7E, 0xFF, 0x03, 0x7D, 0x5E, 0x7D, 0x5D, 0x7D, 0x5E, 0x66, 0x55, 0x7E] := by decide

/-- 95_test_vectors.md 7 P3, steps 31 to 34. -/
theorem test_reset :
    (nextOf (exec .reset busyState)).map (fun t => (t.response, t.mtu, t.ring, statusWord t)) =
      some (some 0x00000000, 1492, { count := 0, rd := 0, wr := 0 }, 0x0000) := by decide

/-- A step takes the command from the head of the line; 95_test_vectors.md 2.3. -/
theorem test_step_runs_fetched_word :
    (nextOf (step (State.reset.withFetchWord 32 0xC000191C))).map (fun t => (t.response, t.pending)) =
      some (some 0x0000E6E3, []) := by decide
/-- 95_test_vectors.md 6: an illegal word. -/
theorem test_step_illegal_word :
    (nextOf (step (issued 0x9F000000 []))).map (fun t => t.response) = some (some 0xF0000000) := by decide

/-! ### Witnesses: concrete states and operands that meet the hypotheses of the obligations -/

theorem reset_inv : Inv State.reset where
  config := by decide
  headers := by decide
  memory := Memory.wf_nil
  located := by decide
  count := by decide
  head := by decide
  fill := by decide
  mtu := by decide
  limit := by decide
  counted := Nat.le_of_ble_eq_true rfl
  committed := fun j hj => absurd hj (Nat.not_lt_zero j)
  escape := by decide
  payload := by decide
  index := rfl

theorem busyState_inv : Inv busyState where
  config := by decide
  headers := by decide
  memory := by decide
  located := by decide
  count := by decide
  head := by decide
  fill := by decide
  mtu := by decide
  limit := by decide
  counted := by show (_ : Nat) < _; decide
  committed := by
    intro j hj
    obtain rfl : j = 0 := Nat.lt_one_iff.1 hj
    exact ⟨{ len := 1, proto := 0x0021 }, by decide, by decide⟩
  escape := by decide
  payload := by decide
  index := by show (_ : Nat) < _ ∧ (_ : Nat) ≤ _; decide

/-- The two slots of `busyState` with another byte in slot 1 beyond the three that the current frame has stored. -/
def busyState' : State := { busyState with slotMem := busyState.slotMem.write 65539 0xEE }

theorem busyState'_inv : Inv busyState' where
  config := by decide
  headers := by decide
  memory := by decide
  located := by decide
  count := by decide
  head := by decide
  fill := by decide
  mtu := by decide
  limit := by decide
  counted := by show (_ : Nat) < _; decide
  committed := by
    intro j hj
    obtain rfl : j = 0 := Nat.lt_one_iff.1 hj
    exact ⟨{ len := 1, proto := 0x0021 }, by decide, by decide⟩
  escape := by decide
  payload := by decide
  index := by show (_ : Nat) < _ ∧ (_ : Nat) ≤ _; decide

theorem witness_EncodeOfDecode :
    (chainPlaced 0x30000021 [[0x45]] = true ∧ decode 0x30000021 [[0x45]] = .ok (.txStart 0x0021 [[0x45]])) ∧
      chainPlaced 0x10000000 [] = true ∧ decode 0x10000000 [] = .ok (.rxByte 0) := by decide

/-- Each clause of the illegal words, at the ends of the reserved fields. -/
theorem witness_reservedBitSet :
    reservedBitSet 0x20000001 ∧ reservedBitSet 0xD8000000 ∧ reservedBitSet 0x10000100 ∧ reservedBitSet 0x88000000 ∧
      reservedBitSet 0x30010000 ∧ reservedBitSet 0xC8000000 ∧ reservedBitSet 0x91000000 ∧
      reservedBitSet 0xB8000000 := by
  unfold reservedBitSet
  refine ⟨?_, ?_, ?_, ?_, ?_, ?_, ?_, ?_⟩ <;> decide

theorem witness_StepRunsDecodedCommand :
    startOk (issued 0xA0000000 []) = true ∧
      (issued 0xA0000000 []).pending = { agent := .host, word := 0xA0000000, chain := [] } :: [] ∧
      decode 0xA0000000 [] = .ok .crcSeed := by decide

theorem witness_StepAnswersIllegalWord :
    startOk (issued 0xE0000000 []) = true ∧ (0xE0000000 : Word).extractLsb' 28 4 ∈ [0x0#4, 0xE#4, 0xF#4] ∧
      startOk (issued 0x20000001 []) = true ∧ reservedBitSet 0x20000001 := by unfold reservedBitSet; decide

theorem witness_StepWithoutCommand : startOk State.reset = true ∧ State.reset.pending = [] := by decide

theorem witness_StepRefusesUnreachableStart :
    (let s := { State.reset with tx.escPend := true };
      s.tx.escPend = true ∧ s.tx.state = .idle) ∧
    (let s := { sending .closingFlag 0 1 with tx.escPend := true };
      s.tx.escPend = true ∧ s.tx.state = .closingFlag) ∧
    (let s := { State.reset with ring.count := 3 };
      s.cfg.nSlots < s.ring.count.toNat) ∧
    (let s := { State.reset with ring.rd := 2 };
      s.cfg.nSlots ≤ s.ring.rd.toNat) ∧
    (let s := { State.reset with ring.wr := 2 };
      s.cfg.nSlots ≤ s.ring.wr.toNat) ∧
    (let s := receiving .hunt 11;
      s.rx.limit.toNat + 2 < s.rx.count.toNat) := by decide

theorem witness_FcsCheckIsResidue : 2 ≤ ([0xA2, 0x30] : List Byte).length ∧ fcsOk 0x0021 [0xE3, 0xE6] = true := by
  decide

theorem witness_UnescapeUndoesEscape : ∀ b ∈ ([0x45, 0x00, 0x20, 0xFF] : List Byte), b ≠ 0x7E ∧ b ≠ 0x7D := by
  decide

/-- Both ends of the accepted lengths. -/
theorem witness_TxStartBeginsFrame :
    State.reset.tx.state = .idle ∧ 1 ≤ ([[0x45]] : Chain).flatten.length ∧
      ([[0x45]] : Chain).flatten.length ≤ 65535 ∧
      ([List.replicate 65535 0] : Chain).flatten.length = 65535 := by
  refine ⟨by decide, by decide, by decide, ?_⟩
  rw [List.flatten_cons, List.flatten_nil, List.append_nil, List.length_replicate]

/-- Busy, empty, and one byte too long. -/
theorem witness_TxStartRefusals :
    (sending .flag 0 0).tx.state ≠ .idle ∧ ([[], []] : Chain).flatten.length = 0 ∧
      State.reset.tx.state = .idle ∧ 65535 < ([List.replicate 65536 0] : Chain).flatten.length := by
  refine ⟨by decide, by decide, by decide, ?_⟩
  rw [List.flatten_cons, List.flatten_nil, List.append_nil, List.length_replicate]
  decide

theorem witness_TxDoneInIdle : State.reset.tx.state = .idle := by decide

theorem witness_TxDoneSendsPendingEscape :
    (let s := { sending .data 0 1 with tx.escPend := true };
      s.tx.state ≠ .idle ∧ s.tx.escPend = true) := by decide

theorem witness_TxDoneHeader :
    [TxState.flag, .address, .control, .protoHi].all (fun st =>
      (sending st 0xFFFF 0).tx.escPend == false && (sending st 0xFFFF 0).tx.state == st) = true := by decide

theorem witness_TxDonePayload :
    [TxState.protoLo, .data].all (fun st =>
      let s := sending st 0x191C 0
      s.tx.escPend == false && s.tx.state == st && s.tx.index.toNat < s.tx.len.toNat &&
        s.tx.payload[s.tx.index.toNat]? == some 0x45) = true := by decide

theorem witness_TxDoneFcs :
    (let s := { State.reset with tx.state := .protoLo };
      s.tx.escPend = false ∧ s.tx.state = .protoLo ∧ s.tx.index = s.tx.len) ∧
    (let s := sending .data 0xCF5D 1;
      s.tx.escPend = false ∧ s.tx.state = .data ∧ s.tx.index = s.tx.len) ∧
    (let s := sending .fcsLo 0x30A2 1;
      s.tx.escPend = false ∧ s.tx.state = .fcsLo) := by decide

theorem witness_TxDoneClosing :
    (let s := sending .fcsHi 0x30A2 1;
      s.tx.escPend = false ∧ s.tx.state = .fcsHi) ∧
    (let s := sending .closingFlag 0x30A2 1;
      s.tx.escPend = false ∧ s.tx.state = .closingFlag) ∧
    1 ≤ ([[0x45]] : Chain).flatten.length ∧ ([[0x45]] : Chain).flatten.length ≤ 65535 := by decide

theorem witness_TxSendsEncodedFrame :
    State.reset.tx.state = .idle ∧ 1 ≤ ([[0x7E], [], [0x7D]] : Chain).flatten.length ∧
      ([[0x7E], [], [0x7D]] : Chain).flatten.length ≤ 65535 := by decide

/-- The fold over the header and the payload byte is the 0xCF5D of 95_test_vectors.md 2.2. -/
theorem witness_RunningFcsKept : Inv busyState ∧ RunningFcs busyState ∧ (nextOf (step busyState)).isSome = true := by
  refine ⟨busyState_inv, ?_, by decide⟩
  show (_ : U16) = _
  decide

theorem witness_TxIndependentOfReceiver :
    (sending .flag 0xFFFF 0).tx = { sending .flag 0xFFFF 0 with mtu := 8, rx := (receiving .data 3).rx }.tx ∧
      (nextOf (exec .txDone (sending .flag 0xFFFF 0))).isSome = true ∧
      (nextOf (exec (.txStart 0x0021 [[0x45]]) (sending .flag 0xFFFF 0))).isSome = true := by decide

theorem witness_RxFlagResynchronizes :
    [RxState.hunt, .addr, .ctrl, .protoHi, .protoLo, .fcsLo, .fcsHi].all (fun st =>
      (receiving st 2).rx.state == st) = true ∧
    (receiving .data 2).rx.state = .data ∧ (nextOf (exec (.rxByte 0x7E) (receiving .data 1))).isSome = true := by decide

/-- A plain byte and an escaped one in each clause. -/
theorem witness_RxHuntAddressControl :
    (receiving .hunt 0).rx.state = .hunt ∧ fieldByte (receiving .addr 0) 0xFF = 0xFF ∧
      fieldByte { receiving .addr 0 with rx.esc := true } 0xDF = 0xFF ∧ fieldByte (receiving .ctrl 0) 0x03 = 0x03 ∧
      fieldByte { receiving .ctrl 0 with rx.esc := true } 0x23 = 0x03 ∧ fieldByte (receiving .addr 0) 0xFE ≠ 0xFF ∧
      fieldByte (receiving .ctrl 0) 0x13 ≠ 0x03 ∧ (0xDF : Byte) ≠ 0x7E ∧ (0xDF : Byte) ≠ 0x7D := by decide

theorem witness_RxProtocolBytes :
    (receiving .protoHi 0).rx.state = .protoHi ∧ (receiving .protoLo 0).rx.state = .protoLo ∧
      (0x21 : Byte) ≠ 0x7E ∧ (0x21 : Byte) ≠ 0x7D := by decide

/-- With room, at the first and the last byte of the last slot; and with the ring full. -/
theorem witness_RxStoresFieldByte :
    (¬ full busyState ∧ roomForByte busyState ∧ busyState.rx.state = .data) ∧
    (let s := { receiving .fcsLo 1493 with ring.wr := 1 };
      ¬ full s ∧ roomForByte s ∧ s.rx.state = .fcsLo) ∧
    (let s := fullRing (receiving .data 0);
      full s ∧ s.rx.state = .data) ∧
    (let s := fullRing (receiving .fcsLo 8);
      full s ∧ s.rx.state = .fcsLo) := by unfold full roomForByte; decide

/-- The frame of 95_test_vectors.md 3.3 with `mtu` 0, at its FCS-high byte: 0xE6 commits it, another byte does not. -/
theorem witness_RxExplicitFcsEndsFrame :
    (let s := { receiving .fcsHi 1 with slotMem := [(0, 0xE3)] };
      s.cfg.wellFormed = true ∧ s.rx.state = .fcsHi ∧ 1 ≤ s.rx.count.toNat ∧ s.rx.drop = false ∧ ¬ full s ∧
        roomForByte s ∧ (slotBytes s.ring.wr.toNat s 0 s.rx.count.toNat).toOption = some [0xE3] ∧
        fcsOk s.rx.proto ([0xE3] ++ [fieldByte s 0xE6]) = true ∧
        fcsOk s.rx.proto ([0xE3] ++ [fieldByte s 0x00]) = false) := by unfold full roomForByte; decide

theorem witness_RxRuntDiscarded :
    (receiving .data 0).rx.state = .data ∧ (receiving .data 0).rx.count.toNat < 2 ∧
      (receiving .data 1).rx.count.toNat < 2 := by decide

theorem witness_RxOverflowCounted :
    (let s := { receiving .data 2 with rx.drop := true };
      s.rx.state = .data ∧ 2 ≤ s.rx.count.toNat ∧ s.rx.drop = true) ∧
    (let s := fullRing (receiving .data 2);
      s.rx.state = .data ∧ 2 ≤ s.rx.count.toNat ∧ full s) ∧
    (let s := fullRing (receiving .fcsHi 1);
      s.rx.state = .fcsHi ∧ 1 ≤ s.rx.count.toNat ∧ s.rx.count.toNat < 65535 ∧ full s) ∧
    (let s := { receiving .fcsHi 1 with rx.drop := true };
      s.cfg.wellFormed = true ∧ s.rx.state = .fcsHi ∧ 1 ≤ s.rx.count.toNat ∧ s.rx.drop = true ∧ ¬ full s ∧
        roomForByte s) := by unfold full roomForByte; decide

/-- The stored frame whose FCS checks, and the same with a corrupted payload byte (95_test_vectors.md 3.1, 3.2). -/
theorem witness_RxClosingFlagChecksFcs :
    (busyState.rx.state = .data ∧ 2 ≤ busyState.rx.count.toNat ∧ busyState.rx.drop = false ∧ ¬ full busyState ∧
      (slotBytes busyState.ring.wr.toNat busyState 0 busyState.rx.count.toNat).toOption = some [0x45, 0xA2, 0x30] ∧
      fcsOk 0x0021 [0x45, 0xA2, 0x30] = true) ∧
    (let s := { busyState with slotMem := busyState.slotMem.write 65536 0x44 };
      s.rx.state = .data ∧ ¬ full s ∧
        (slotBytes s.ring.wr.toNat s 0 s.rx.count.toNat).toOption = some [0x44, 0xA2, 0x30] ∧
        fcsOk s.rx.proto [0x44, 0xA2, 0x30] = false) := by unfold full; decide

/-- The lengths of 95_test_vectors.md 3.3 with `mtu` 8. -/
theorem witness_RxReceives :
    ∃ s : State, Inv s ∧ (s.rx.state = .hunt ∨ s.rx.state = .addr) ∧ ¬ full s ∧ s.mtu.toNat = 8 ∧
      (List.replicate 5 0 : List Byte).length + 3 ≤ s.mtu.toNat ∧
      (List.replicate 8 0 : List Byte).length = s.mtu.toNat ∧
      (List.replicate 6 0 : List Byte).length + 2 = s.mtu.toNat ∧
      (List.replicate 7 0 : List Byte).length + 1 = s.mtu.toNat :=
  ⟨{ State.reset with mtu := 8 }, { reset_inv with mtu := by decide }, by decide, by unfold full; decide, by decide,
    by decide, by decide, by decide, by decide⟩

theorem witness_RxCommutesWithTxAndCrc :
    [Instr.txDone, .txStart 0x0021 [[0x45]], .crcSeed, .crcUpdate 0 1, .crcFinal 0].all (fun i =>
      match nextOf (exec (.rxByte 0x45) busyState) with
      | some t => (nextOf (exec i t)).isSome
      | none => false) = true := by decide

/-- A committed slot beside the one being filled, at its first and its last byte. -/
theorem witness_CommittedSlotsUntouched :
    Inv busyState ∧ (nextOf (exec (.rxByte 0x45) busyState)).isSome = true ∧ 0 < busyState.ring.count.toNat ∧
      0 < busyState.cfg.slotCap ∧ 1493 < busyState.cfg.slotCap :=
  ⟨busyState_inv, by decide, by decide, by decide, by decide⟩

theorem witness_QPopResult : busyState.ring.count ≠ 0 ∧ State.reset.ring.count = 0 := by decide

theorem witness_HeadProtoAndLen :
    busyState.ring.count ≠ 0 ∧ busyState.slotHdrs[busyState.ring.rd.toNat]? = some { len := 1, proto := 0x0021 } ∧
      State.reset.ring.count = 0 := by decide

/-- The last index of the head frame, and the first beyond it. -/
theorem witness_HeadByte :
    busyState.ring.count ≠ 0 ∧ busyState.slotHdrs[busyState.ring.rd.toNat]? = some { len := 1, proto := 0x0021 } ∧
      (3 : U16).toNat = (1 : U16).toNat + 2 ∧ (2 : U16).toNat < (1 : U16).toNat + 2 ∧
      (slotRead busyState.ring.rd.toNat 2 busyState).toOption = some 0x30 ∧ State.reset.ring.count = 0 := by decide

/-- A commit to slot 1 and a pop of slot 0. -/
theorem witness_RingCountsCommitsAndPops :
    Inv busyState ∧ (∀ i ∈ [Instr.rxByte 0x7E, .qPop], i ≠ .reset) ∧
      (ringEvents [.rxByte 0x7E, .qPop] busyState).map (fun r => r.2) = some (1, 1) :=
  ⟨busyState_inv, by decide, by decide⟩

/-- The edges of the CSR numbers. -/
theorem witness_RegReadContents : 0x0F < (0x10 : Byte).toNat ∧ 0x0F < (0xFF : Byte).toNat := by decide

/-- Each clause, at `v = MTU_MAX`, `v = MTU_MAX + 1`, the CSRs beside MTU, the last assigned and the first unassigned. -/
theorem witness_RegWriteMtuOnly :
    (1492 : U16).toNat ≤ State.reset.cfg.mtuMax ∧ State.reset.cfg.mtuMax < (1493 : U16).toNat ∧
      0x0F < (0x10 : Byte).toNat ∧ (0x0F : Byte).toNat ≤ 0x0F ∧ (0x0F : Byte) ≠ 0x01 ∧ (0x00 : Byte) ≠ 0x01 ∧
      (0x02 : Byte) ≠ 0x01 := by decide

/-- The largest parameters, with a byte in the last location of the last slot; and the example ones, with headers no
frame could have. -/
theorem witness_InvAtPowerOn :
    (({ nSlots := 255, mtuMax := 65533 } : Config).wellFormed = true ∧
      powerOnStorage { nSlots := 255, mtuMax := 65533 } (List.replicate 255 { len := 0, proto := 0 })
        [(slotAddr 254 65534, 0xEE)]) ∧
    Config.specExample.wellFormed = true ∧
      powerOnStorage Config.specExample [{ len := 0xFFFF, proto := 0x1234 }, { len := 7, proto := 0 }]
        [(0, 0xAA), (65536, 0x55)] := by
  refine ⟨⟨by decide, List.length_replicate, by decide, by decide⟩, by decide, by decide⟩

theorem witness_StepKeepsInv : Inv busyState ∧ (nextOf (step busyState)).isSome = true := ⟨busyState_inv, by decide⟩

theorem witness_EveryCommandCompletes : Inv busyState := busyState_inv

/-- A state reached by issuing a command and taking it, from a power-on with a slot byte other than 0. -/
theorem witness_Reachable :
    Config.specExample.wellFormed = true ∧ ∃ s : State, Reachable Config.specExample s ∧ s.response = some 0x0001007E :=
  ⟨by decide, _,
    .step _ _ (.issue _ { agent := .host, word := 0x30000021, chain := [[0x45]] }
      (.powerOn [{ len := 7, proto := 0 }, { len := 0, proto := 0 }] [(0, 0xAA)] (by decide))) rfl, by decide⟩

theorem witness_UnseenStorageUnobservable :
    Inv busyState ∧ Inv busyState' ∧ busyState ≠ busyState' ∧ SameButUnseenStorage busyState busyState' ∧
      (nextOf (exec (.rxByte 0x7E) busyState)).isSome = true := by
  refine ⟨busyState_inv, busyState'_inv, by decide, ⟨by decide, by decide, by decide, ?_, by decide⟩, by decide⟩
  intro j hj h hh
  obtain rfl : j = 0 := Nat.lt_one_iff.1 hj
  obtain rfl : { len := 1, proto := 0x0021 } = h := Option.some.inj hh
  decide

/-- The head reads, REG_READ and the CRC commands. -/
theorem witness_ReadsHaveNoSideEffect :
    [Instr.qHeadProto, .qHeadLen, .qHeadByte 0, .regRead 0, .crcSeed, .crcUpdate 0 1, .crcFinal 0].all (fun i =>
      (nextOf (exec i busyState)).isSome) = true := by decide

/-- Every command takes a step from `busyState`: the hypothesis of ResultCodes and of WritersOfEachRegister. -/
theorem witness_every_command_steps :
    [Instr.rxByte 0x45, .txDone, .txStart 0x0021 [[0x45]], .qPop, .qHeadProto, .qHeadLen, .qHeadByte 0, .regRead 0,
      .regWrite 1 8, .crcSeed, .crcUpdate 0 1, .crcFinal 0, .reset].all (fun i =>
      (nextOf (exec i busyState)).isSome) = true := by decide

/-- Two storages that differ in a header and in a byte, and the answers the spec gives to an empty ring
(95_test_vectors.md 5). -/
theorem witness_PowerOnStorageNeverShown :
    (let hdrs := [{ len := 0xFFFF, proto := 0x1234 }, { len := 0, proto := 0 }];
      powerOnStorage Config.specExample hdrs [(0, 0xAA)] ∧
        responsesOf [.qHeadLen, .qHeadByte 0] (State.powerOn Config.specExample hdrs [(0, 0xAA)]) =
          some [0x20000000, 0x20000000]) ∧
    (let hdrs := [{ len := 0, proto := 0 }, { len := 0, proto := 0 }];
      powerOnStorage Config.specExample hdrs [] ∧
        responsesOf [.qHeadLen, .qHeadByte 0] (State.powerOn Config.specExample hdrs []) =
          some [0x20000000, 0x20000000]) := by decide

end Sys2Proof.Tests
end

namespace Sys2Proof.Machine

/-- R5, R61: in an allowed start state the first command of the line is taken off it and run. -/
theorem step_of_pending_cons {s : State} {c : Command} {rest : List Command} (hs : startOk s = true)
    (hp : s.pending = c :: rest) : step s = runCommand c { s with pending := rest } := by
  simp only [step, hs, hp, if_true]

/-- R77: a command whose word and chain decode to `i` runs the meaning of `i`. -/
theorem runCommand_of_decode_ok {c : Command} {i : Instr} (hd : decode c.word c.chain = .ok i) (s : State) :
    runCommand c s = exec i s := by
  simp only [runCommand, hd]

/-- Settles O5: the step runs the command at the head of the line, and running a command is `exec` of what it
decodes to. -/
theorem stepRunsDecodedCommand : Obligations.StepRunsDecodedCommand := by
  intro s c rest i hs hp hd
  calc step s = runCommand c { s with pending := rest } := step_of_pending_cons hs hp
    _ = exec i { s with pending := rest } := runCommand_of_decode_ok hd _

end Sys2Proof.Machine

namespace Sys2Proof.Machine

/-! ### Replacing parts of a state of the invariant -/

/-- R141, R175: what a step answers and drives is free of the invariant. -/
theorem Inv.withReply {s : State} (h : Inv s) (rc : Rc) (aux : Byte) (data : U16) : Inv (reply s rc aux data) :=
  h.withOutputs _ _ _ _

theorem Inv.withEmit {s : State} (h : Inv s) (b : Byte) : Inv (emit s b) := h.withOutputs _ _ _ _

/-- The receiver's registers alone may be replaced by any that keep R138. -/
theorem Inv.withReceiver {s : State} (h : Inv s) (r : Receiver) (hl : r.limit.toNat ≤ s.cfg.mtuMax)
    (hc : RxCountOk { s with rx := r }) : Inv { s with rx := r } :=
  h.withRx r s.slotMem h.memory h.located hl hc

/-- R138: outside the data phase the receiver may move to any state outside it. -/
theorem RxCountOk.of_not_inDataPhase {s : State} (hst : inDataPhase s.rx.state = false)
    (hc : s.rx.count.toNat ≤ s.rx.limit.toNat + 2) : RxCountOk s := by
  unfold RxCountOk
  cases hs : s.rx.state <;> simp [hs, inDataPhase] at hst ⊢ <;> exact hc

/-- R23: the states outside the data phase put no demand on `rx_count` that is not met in every state. -/
theorem Inv.withRxState {s : State} (h : Inv s) {st : RxState} (hst : inDataPhase st = false) :
    Inv { s with rx.state := st } :=
  h.withReceiver _ h.limit (.of_not_inDataPhase hst h.count_le)

theorem Inv.withRxEsc {s : State} (h : Inv s) (e : Bool) : Inv { s with rx.esc := e } :=
  h.withReceiver _ h.limit h.counted

/-- R31: `mtu` may be replaced by any value up to MTU_MAX. -/
theorem Inv.withMtu {s : State} (h : Inv s) {v : U16} (hv : v.toNat ≤ s.cfg.mtuMax) : Inv { s with mtu := v } :=
  ⟨h.config, h.headers, h.memory, h.located, h.count, h.head, h.fill, hv, h.limit, h.counted, h.committed, h.escape,
    h.payload, h.index⟩

/-- R34, R216: with legal parameters and any storage, power-on is a state of the invariant. -/
theorem inv_powerOn {c : Config} {hdrs : List SlotHeader} {mem : Memory} (hc : c.wellFormed = true)
    (hs : powerOnStorage c hdrs mem) : Inv (State.powerOn c hdrs mem) := by
  obtain ⟨hlen, hwf, hin⟩ := hs
  have hN := Config.nSlots_range hc
  refine ⟨hc, hlen, hwf, hin, Nat.zero_le _, ?_, (Nat.zero_mod _).symm, ?_, Nat.zero_le _, Nat.zero_le _,
    fun j hj => absurd hj (Nat.not_lt_zero j), nofun, rfl, rfl⟩
  · show 0 < c.nSlots; omega
  · exact Nat.mod_le _ _

/-- R215: RESET leaves a state of the invariant. -/
theorem Inv.withReset {s : State} (h : Inv s) : Inv (resetRegisters s) :=
  (inv_powerOn h.config ⟨h.headers, h.memory, h.located⟩).withOutputs none none s.pending 0

/-! ### The receiver completes and keeps the invariant -/

/-- R50, R138: the slot byte the receiver stores to next exists. -/
theorem Inv.slotExists_wr {s : State} (h : Inv s) {k : Nat} (hk : k < s.cfg.mtuMax + 2) :
    slotExists s s.ring.wr.toNat k = true :=
  (slotExists_iff _ _ _).2 ⟨h.wr_lt, hk⟩

/-- R131: a data-phase byte that the slot has room for is counted, and what is stored keeps slot memory canonical; the
state the receiver moves to must fit the new count (R138). -/
theorem Inv.rxStore_completes {s : State} (h : Inv s) (f : Byte) (hk : s.rx.count.toNat < s.cfg.mtuMax + 2) :
    ∃ t, rxStore f s = .ok t ∧ t.rx.count.toNat = s.rx.count.toNat + 1 ∧ t.rx.limit = s.rx.limit ∧ t.cfg = s.cfg ∧
      ∀ st, RxCountOk { t with rx.state := st } → Inv { t with rx.state := st } := by
  have he := h.slotExists_wr hk
  have hM := Config.mtuMax_le h.config
  have hcount : (s.rx.count + 1).toNat = s.rx.count.toNat + 1 := succ_toNat _ (by omega)
  cases hq : qFull s with
  | true => exact ⟨_, rxStore_full hq, hcount, rfl, rfl, fun st hc => h.withReceiver _ h.limit hc⟩
  | false =>
    exact ⟨_, rxStore_free hq he, hcount, rfl, rfl, fun st hc =>
      h.withRx _ _ (Memory.wf_write _ _ _ h.memory) (within_write h.config he h.located) h.limit hc⟩

/-- R138: a receiver that leaves the data phase with a byte stored, of which at most `rx_limit + 1` came before it. -/
theorem Inv.rxStore_leave {s t : State} {f : Byte} (h : Inv s) (hk : s.rx.count.toNat ≤ s.rx.limit.toNat + 1)
    (ht : rxStore f s = .ok t) {st : RxState} (hst : inDataPhase st = false) : Inv { t with rx.state := st } := by
  have hl := h.limit
  obtain ⟨u, hu, hcount, hlimit, -, hinv⟩ := h.rxStore_completes f (by omega)
  cases hu.symm.trans ht
  refine hinv st (.of_not_inDataPhase hst ?_)
  show t.rx.count.toNat ≤ t.rx.limit.toNat + 2
  rw [hcount, hlimit]; omega

/-- R133: the end of a frame of at most `MTU_MAX + 2` bytes completes. -/
theorem Inv.finalize_completes {s : State} (h : Inv s) {n : U16} (hn : n.toNat ≤ s.cfg.mtuMax + 2) :
    ∃ t ev, finalize n s = .ok (t, ev) ∧ Inv t := by
  by_cases hr : n.toNat < 2
  · exact ⟨_, _, finalize_runt hr, h⟩
  by_cases ho : s.rx.drop = true ∨ qFull s = true
  · exact ⟨_, _, finalize_overflow (by omega) ho, h.withOutputs _ _ _ _⟩
  obtain ⟨hd, hq⟩ := not_or.1 ho
  rw [Bool.not_eq_true] at hd hq
  obtain ⟨d, hb⟩ := slotBytes_total (i := s.ring.wr.toNat) (s := s) (n := n.toNat) (k := 0)
    (fun j hj => h.slotExists_wr (by omega))
  rw [finalize_checked (by omega) hd hq hb]
  split
  · exact ⟨_, _, rfl, h.commit hq (by omega) hn⟩
  · exact ⟨_, _, rfl, h⟩

/-- R122: a flag completes in every state. -/
theorem Inv.onFlag_completes {s : State} (h : Inv s) : ∃ t ev, onFlag s = .ok (t, ev) ∧ Inv t := by
  have ha : Inv { s with rx.state := .addr } := h.withRxState rfl
  unfold onFlag
  cases s.rx.state
  case data =>
    have hc := h.count_le
    have hl := h.limit
    exact ha.finalize_completes (show s.rx.count.toNat ≤ s.cfg.mtuMax + 2 by omega)
  all_goals exact ⟨_, _, rfl, ha⟩

/-- R127: the data phase begins with no byte counted. -/
theorem Inv.withDataPhase {s : State} (h : Inv s) : Inv (startDataPhase s) := by
  refine h.withReceiver _ h.mtu ?_
  by_cases hm : s.mtu = 0#16
  · simp [RxCountOk, hm]
  · have : 0 < s.mtu.toNat := Nat.pos_of_ne_zero fun e => hm (BitVec.eq_of_toNat_eq e)
    simpa [RxCountOk, hm] using this

/-- R123 to R130: a field byte completes in every state. -/
theorem Inv.onField_completes {s : State} (h : Inv s) (f : Byte) : ∃ t ev, onField f s = .ok (t, ev) ∧ Inv t := by
  have hl := h.limit
  have hc := h.counted
  unfold RxCountOk at hc
  unfold onField
  cases hs : s.rx.state <;> rw [hs] at hc <;> dsimp only
  case hunt => exact ⟨_, _, rfl, h⟩
  case addr => split <;> exact ⟨_, _, rfl, h.withRxState rfl⟩
  case ctrl => split <;> exact ⟨_, _, rfl, h.withRxState rfl⟩
  case protoHi => exact ⟨_, _, rfl, h.withReceiver _ h.limit (.of_not_inDataPhase rfl h.count_le)⟩
  case protoLo =>
    have hout : inDataPhase s.rx.state = false := by rw [hs]; rfl
    exact ⟨_, _, rfl, Inv.withDataPhase (h.withReceiver _ h.limit (.of_not_inDataPhase hout h.count_le))⟩
  case data =>
    obtain ⟨t, ht, hcount, hlimit, -, hinv⟩ := h.rxStore_completes f (by omega)
    rw [ht]
    refine ⟨_, _, rfl, hinv _ ?_⟩
    by_cases he : t.rx.count = t.rx.limit
    · simp [RxCountOk, he]
    · have hne : t.rx.count.toNat ≠ t.rx.limit.toNat := fun e => he (BitVec.eq_of_toNat_eq e)
      have : t.rx.count.toNat < t.rx.limit.toNat := by rw [hlimit] at hne ⊢; omega
      simpa [RxCountOk, he] using this
  case fcsLo =>
    obtain ⟨t, ht, hcount, hlimit, -, hinv⟩ := h.rxStore_completes f (by omega)
    rw [ht]
    refine ⟨_, _, rfl, hinv _ ?_⟩
    show t.rx.count.toNat = t.rx.limit.toNat + 1
    rw [hcount, hlimit, hc]
  case fcsHi =>
    obtain ⟨t, ht, hcount, -, hcfg, -⟩ := h.rxStore_completes f (by omega)
    rw [ht]
    exact (h.rxStore_leave (by omega) ht rfl).finalize_completes
      (show t.rx.count.toNat ≤ t.cfg.mtuMax + 2 by rw [hcfg]; omega)

/-- R120: RX_BYTE completes in every state of the invariant. -/
theorem Inv.rxByte_completes {s : State} (h : Inv s) (b : Byte) : ∃ t ev, rxByte b s = .ok (t, ev) ∧ Inv t := by
  unfold rxByte
  split
  · exact (h.withRxEsc false).onFlag_completes
  · split
    · exact ⟨_, _, rfl, h.withRxEsc true⟩
    · exact (h.withRxEsc false).onField_completes _

/-! ### The transmitter completes and keeps the invariant -/

@[simp] theorem emitStuffed_tx_index (s : State) (b : Byte) : (emitStuffed s b).tx.index = s.tx.index := by
  unfold emitStuffed; split <;> rfl
@[simp] theorem emitStuffed_tx_len (s : State) (b : Byte) : (emitStuffed s b).tx.len = s.tx.len := by
  unfold emitStuffed; split <;> rfl
@[simp] theorem emitField_tx_index (s : State) (b : Byte) : (emitField s b).tx.index = s.tx.index := by simp [emitField]
@[simp] theorem emitField_tx_len (s : State) (b : Byte) : (emitField s b).tx.len = s.tx.len := by simp [emitField]

/-- The states in which TX_DONE sends a byte of the frame and may leave its second byte pending (R164, R238). -/
abbrev TxState.inFrame (st : TxState) : Prop := st ≠ .idle ∧ st ≠ .closingFlag

/-- `TxIndexOk` speaks of three registers only. -/
theorem TxIndexOk.congr {s t : State} (h : TxIndexOk s) (hst : t.tx.state = s.tx.state)
    (hi : t.tx.index = s.tx.index) (hl : t.tx.len = s.tx.len) : TxIndexOk t := by
  unfold TxIndexOk at *
  rw [hst, hi, hl]; exact h

/-- R164: in the middle of a frame a byte may be stuffed. -/
theorem Inv.withStuffed {s : State} (h : Inv s) (hst : s.tx.state.inFrame) (b : Byte) : Inv (emitStuffed s b) := by
  unfold emitStuffed
  split
  · exact (h.withEmit escByte).withTx _ (fun _ => hst) h.payload h.index
  · exact h.withEmit b

/-- The running FCS is free of the invariant. -/
theorem Inv.withTxFcs {s : State} (h : Inv s) (c : U16) : Inv { s with tx.fcs := c } :=
  h.withTx _ h.escape h.payload h.index

/-- R163: in the middle of a frame a byte may be fed to the FCS and stuffed. -/
theorem Inv.withField {s : State} (h : Inv s) (hst : s.tx.state.inFrame) (b : Byte) : Inv (emitField s b) :=
  (h.withTxFcs (crcUpdate s.tx.fcs b)).withStuffed hst b

/-- R25, R169: in the middle of a frame the transmitter may move on, with `tx_index` as R24 says. -/
theorem Inv.moveTx {s : State} (h : Inv s) (k : U16) (st : TxState) (hst : st.inFrame)
    (hi : TxIndexOk { s with tx.index := k, tx.state := st }) : Inv { s with tx.index := k, tx.state := st } :=
  h.withTx _ (fun _ => hst) h.payload hi

/-- R168: a header byte is sent. -/
theorem Inv.sendHeaderByte {s : State} (h : Inv s) (b : Byte) {st : TxState} (hs : s.tx.state.inFrame)
    (hst : st.inFrame) (hi : TxIndexOk { s with tx.state := st }) : Inv { emitField s b with tx.state := st } :=
  (h.withField hs b).moveTx _ st hst (hi.congr rfl (emitField_tx_index s b) (emitField_tx_len s b))

/-- R170: a byte of the finalized FCS is sent. -/
theorem Inv.sendFcsByte {s : State} (h : Inv s) (b : Byte) {st : TxState} (hs : s.tx.state.inFrame)
    (hst : st.inFrame) (hi : TxIndexOk { s with tx.state := st }) : Inv { emitStuffed s b with tx.state := st } :=
  (h.withStuffed hs b).moveTx _ st hst (hi.congr rfl (emitStuffed_tx_index s b) (emitStuffed_tx_len s b))

/-- R169, R170: the step from `PROTO_LO` or `DATA` completes, since `tx_payload` has `tx_len` bytes (R24). -/
theorem Inv.txPayloadStep_completes {s : State} (h : Inv s) (hs : s.tx.state.inFrame) (hpos : 0 < s.tx.len.toNat)
    (hle : s.tx.index.toNat ≤ s.tx.len.toNat) : ∃ t, txPayloadStep s = .next t ∧ Inv t := by
  have hlen := s.tx.len.isLt
  unfold txPayloadStep payloadByte
  split
  case isTrue hi =>
    rw [List.getElem?_eq_getElem (by rw [h.payload]; exact hi)]
    refine ⟨_, rfl, (h.withField hs _).moveTx _ .data (by decide) ?_⟩
    show 0 < (s.tx.index + 1).toNat ∧ (s.tx.index + 1).toNat ≤ (emitField s _).tx.len.toNat
    rw [emitField_tx_len, succ_toNat _ (by omega)]
    omega
  case isFalse hi =>
    have he : s.tx.index = s.tx.len := BitVec.eq_of_toNat_eq (by omega)
    exact ⟨_, rfl, (h.withTxFcs _).sendFcsByte _ hs (by decide) ⟨he, hpos⟩⟩

/-- R166: TX_DONE completes in every state of the invariant. -/
theorem Inv.execTxDone_completes {s : State} (h : Inv s) : ∃ t, execTxDone s = .next t ∧ Inv t := by
  have hi := h.index
  unfold TxIndexOk at hi
  unfold execTxDone
  split
  case isTrue => exact ⟨_, rfl, h.withReply _ _ _⟩
  case isFalse hidle =>
  split
  case isTrue => exact ⟨_, rfl, (h.withEmit _).withTx _ nofun h.payload h.index⟩
  case isFalse hesc =>
  have inFrame : s.tx.state ≠ .closingFlag → s.tx.state.inFrame := fun hc => ⟨hidle, hc⟩
  cases hs : s.tx.state <;> rw [hs] at hi
  case idle => exact absurd hs hidle
  case flag | address | control | protoHi =>
    exact ⟨_, rfl, h.sendHeaderByte _ (inFrame (by simp [hs])) (by decide) hi⟩
  case protoLo => exact h.txPayloadStep_completes (inFrame (by simp [hs])) hi.2 (by simp [hi.1])
  case data => exact h.txPayloadStep_completes (inFrame (by simp [hs])) (by omega) hi.2
  case fcsLo => exact ⟨_, rfl, h.sendFcsByte _ (inFrame (by simp [hs])) (by decide) hi⟩
  case fcsHi => exact ⟨_, rfl, (h.withEmit flagByte).withTx _ (fun he => absurd he hesc) h.payload hi⟩
  case closingFlag =>
    have ht := h.withTx { s.tx with state := .idle } (fun he => absurd he hesc) h.payload hi.1
    exact ⟨_, rfl, ht.withReply _ _ _⟩

/-- R160, R162: TX_START completes, and an accepted one captures `tx_len` bytes. -/
theorem Inv.execTxStart_completes {s : State} (h : Inv s) (p : U16) (chain : Chain) :
    ∃ t, execTxStart p chain s = .next t ∧ Inv t := by
  unfold execTxStart Config.txLenMax
  split
  case isTrue => exact ⟨_, rfl, h.withReply _ _ _⟩
  case isFalse hb =>
  split
  case isTrue => exact ⟨_, rfl, h.withReply _ _ _⟩
  case isFalse hr =>
  simp only [Bool.or_eq_true, bne_iff_ne, beq_iff_eq, not_or, not_not] at hb
  have hlen : (BitVec.ofNat 16 (chainLength chain)).toNat = chainLength chain := by
    rw [BitVec.toNat_ofNat, Nat.mod_eq_of_lt (by omega)]
  refine ⟨_, rfl, (h.withTx _ ?_ ?_ ?_).withEmit flagByte⟩
  · exact nofun
  · rw [length_capture, hlen]
  · refine ⟨rfl, ?_⟩
    show 0 < (BitVec.ofNat 16 (chainLength chain)).toNat
    rw [hlen]; omega

/-! ### Every command completes and keeps the invariant -/

theorem ring_count_pos {s : State} (hc : s.ring.count ≠ 0) : 0 < s.ring.count.toNat :=
  Nat.pos_of_ne_zero fun e => hc (BitVec.eq_of_toNat_eq e)

/-- R26, R29: a non-empty ring has a head slot, whose frame fits it. -/
theorem Inv.slotHeader_rd {s : State} (h : Inv s) (hc : s.ring.count ≠ 0) :
    ∃ hd, slotHeader s.ring.rd.toNat s = .ok hd ∧ hd.len.toNat ≤ s.cfg.mtuMax := by
  obtain ⟨hd, hh, hl⟩ := h.committed 0 (ring_count_pos hc)
  rw [← h.rd_eq] at hh
  exact ⟨hd, slotHeader_eq_ok.2 hh, hl⟩

/-- R193: a byte of the head slot's frame exists, so Q_HEAD_BYTE completes. -/
theorem Inv.execQHeadByte_completes {s : State} (h : Inv s) (i : U16) :
    ∃ t, execQHeadByte i s = .next t ∧ Inv t := by
  unfold execQHeadByte
  split
  case isTrue => exact ⟨_, rfl, h.withReply _ _ _⟩
  case isFalse hc =>
  obtain ⟨hd, hh, hl⟩ := h.slotHeader_rd hc
  rw [hh]; dsimp only
  split
  case isTrue => exact ⟨_, rfl, h.withReply _ _ _⟩
  case isFalse hi =>
  have he : slotExists s s.ring.rd.toNat i.toNat = true :=
    (slotExists_iff _ _ _).2 ⟨h.head, by unfold Config.slotCap; omega⟩
  rw [slotRead_eq_ok.2 ⟨he, rfl⟩]
  exact ⟨_, rfl, h.withReply _ _ _⟩

/-- R230 and the invariant in one: every command completes in every state of the invariant, and leaves one. -/
theorem Inv.exec_completes {s : State} (h : Inv s) (i : Instr) : ∃ t, exec i s = .next t ∧ Inv t := by
  cases i with
  | rxByte b =>
    obtain ⟨t, ev, ht, hi⟩ := h.rxByte_completes b
    exact ⟨_, by rw [exec, execRxByte, ht], hi.withReply _ _ _⟩
  | txDone => exact h.execTxDone_completes
  | txStart p chain => exact h.execTxStart_completes p chain
  | qPop =>
    by_cases hc : s.ring.count = 0
    · exact ⟨_, if_pos hc, h.withReply _ _ _⟩
    · exact ⟨_, if_neg hc, (h.pop hc).withReply _ _ _⟩
  | qHeadProto =>
    by_cases hc : s.ring.count = 0
    · exact ⟨_, if_pos hc, h.withReply _ _ _⟩
    · obtain ⟨hd, hh, -⟩ := h.slotHeader_rd hc
      exact ⟨_, by rw [exec, execQHeadProto, if_neg hc, hh], h.withReply _ _ _⟩
  | qHeadLen =>
    by_cases hc : s.ring.count = 0
    · exact ⟨_, if_pos hc, h.withReply _ _ _⟩
    · obtain ⟨hd, hh, -⟩ := h.slotHeader_rd hc
      exact ⟨_, by rw [exec, execQHeadLen, if_neg hc, hh], h.withReply _ _ _⟩
  | qHeadByte k => exact h.execQHeadByte_completes k
  | regRead a =>
    rw [exec, execRegRead]
    split <;> exact ⟨_, rfl, h.withReply _ _ _⟩
  | regWrite a v =>
    rw [exec, execRegWrite]
    split
    · exact ⟨_, rfl, h.withReply _ _ _⟩
    · split
      · exact ⟨_, rfl, h.withReply _ _ _⟩
      · split
        · exact ⟨_, rfl, h.withReply _ _ _⟩
        · exact ⟨_, rfl, (h.withMtu (by omega)).withReply _ _ _⟩
  | crcSeed => exact ⟨_, rfl, h.withReply _ _ _⟩
  | crcUpdate c b => exact ⟨_, rfl, h.withReply _ _ _⟩
  | crcFinal c => exact ⟨_, rfl, h.withReply _ _ _⟩
  | reset => exact ⟨_, rfl, h.withReset.withReply _ _ _⟩

/-- R27, R138, R175, R238: no command leaves the invariant. -/
theorem exec_keeps_inv {s t : State} {i : Instr} (h : Inv s) (he : exec i s = .next t) : Inv t := by
  obtain ⟨u, hu, hi⟩ := h.exec_completes i
  cases hu.symm.trans he
  exact hi

/-- Settles O52: the command a step takes completes in a state of the invariant; a word of no command and a step without
one change no register. -/
theorem stepKeepsInv : Obligations.StepKeepsInv := by
  intro s t h hs
  unfold step at hs
  split at hs
  case isFalse => cases hs
  case isTrue =>
  split at hs
  · cases hs
    exact h.withOutputs none none s.pending s.ovfCount
  · rename_i c rest hp
    have hr : Inv { s with pending := rest } := h.withOutputs s.response s.txOut rest s.ovfCount
    unfold runCommand at hs
    split at hs
    · exact exec_keeps_inv hr hs
    · cases hs
      exact hr.withReply _ _ _

end Sys2Proof.Machine

namespace Sys2Proof.Machine

/-! ### Slot storage that no rule lets anyone see (R34, U5, U6) -/

/-- `s` with other slot storage. -/
def State.withStorage (s : State) (hdrs : List SlotHeader) (mem : Memory) : State :=
  { s with slotHdrs := hdrs, slotMem := mem }

section WithStorageFields

variable (s : State) (hdrs : List SlotHeader) (mem : Memory)

@[simp] theorem State.withStorage_rx : (s.withStorage hdrs mem).rx = s.rx := rfl
@[simp] theorem State.withStorage_ring : (s.withStorage hdrs mem).ring = s.ring := rfl
@[simp] theorem State.withStorage_slotHdrs : (s.withStorage hdrs mem).slotHdrs = hdrs := rfl
@[simp] theorem State.withStorage_slotMem : (s.withStorage hdrs mem).slotMem = mem := rfl

/-- R50: which slot bytes exist is a matter of the parameters. -/
@[simp] theorem slotExists_withStorage : slotExists (s.withStorage hdrs mem) = slotExists s := rfl

/-- R32: no CSR shows slot storage. -/
@[simp] theorem csrValue_withStorage (r : Csr) : csrValue (s.withStorage hdrs mem) r = csrValue s r := by
  cases r <;> rfl

end WithStorageFields

/-- The storage `hdrs`, `mem` agrees with that of `s` on each committed frame and on the bytes the current frame has
stored: what `SameButUnseenStorage` says of the two storages, clause by clause. -/
structure AgreesWhereSeen (s : State) (hdrs : List SlotHeader) (mem : Memory) : Prop where
  length : hdrs.length = s.slotHdrs.length
  header : ∀ j < s.ring.count.toNat, hdrs[ringIndex s j]? = s.slotHdrs[ringIndex s j]?
  bytes : ∀ j < s.ring.count.toNat, ∀ h, s.slotHdrs[ringIndex s j]? = some h → ∀ k < h.len.toNat + 2,
    mem.read (slotAddr (ringIndex s j) k) = s.slotMem.read (slotAddr (ringIndex s j) k)
  current : inDataPhase s.rx.state = true → s.rx.drop = false → ∀ k < s.rx.count.toNat,
    mem.read (slotAddr s.ring.wr.toNat k) = s.slotMem.read (slotAddr s.ring.wr.toNat k)

/-- Two states differ only in unseen storage exactly if one is the other with a storage that agrees where seen. -/
theorem sameButUnseenStorage_iff {s t : State} :
    SameButUnseenStorage s t ↔ ∃ hdrs mem, t = s.withStorage hdrs mem ∧ AgreesWhereSeen s hdrs mem := by
  constructor
  · rintro ⟨ht, hlen, hhdr, hbytes, hcur⟩
    exact ⟨_, _, ht, hlen, hhdr, hbytes, hcur⟩
  · rintro ⟨hdrs, mem, rfl, ha⟩
    exact ⟨rfl, ha.length, ha.header, ha.bytes, ha.current⟩

/-! ### Agreement is kept when registers are replaced -/

section Agreement

variable {s : State} {hdrs : List SlotHeader} {mem : Memory}

/-- The transmitter, `mtu`, `ovf_count` and the outputs of the last step have no part in agreement. -/
theorem AgreesWhereSeen.withOthers (ha : AgreesWhereSeen s hdrs mem) (x : Transmitter) (v n : U16) (w : Option Word)
    (o : Option Byte) :
    AgreesWhereSeen { s with tx := x, mtu := v, ovfCount := n, response := w, txOut := o } hdrs mem :=
  ⟨ha.length, ha.header, ha.bytes, ha.current⟩

theorem AgreesWhereSeen.withReply (ha : AgreesWhereSeen s hdrs mem) (rc : Rc) (aux : Byte) (data : U16) :
    AgreesWhereSeen (reply s rc aux data) hdrs mem :=
  ha.withOthers _ _ _ _ _

/-- The receiver's registers may change as long as the current frame counts no byte it did not count before. -/
theorem AgreesWhereSeen.withRx (ha : AgreesWhereSeen s hdrs mem) (r : Receiver)
    (hr : inDataPhase r.state = true → r.drop = false → ∀ k < r.count.toNat,
      inDataPhase s.rx.state = true ∧ s.rx.drop = false ∧ k < s.rx.count.toNat) :
    AgreesWhereSeen { s with rx := r } hdrs mem where
  length := ha.length
  header := ha.header
  bytes := ha.bytes
  current hp hd k hk := by
    obtain ⟨hp', hd', hk'⟩ := hr hp hd k hk
    exact ha.current hp' hd' k hk'

/-- Outside the data phase there is no current frame's byte to agree on. -/
theorem AgreesWhereSeen.withRxOutside (ha : AgreesWhereSeen s hdrs mem) {r : Receiver}
    (hr : inDataPhase r.state = false) : AgreesWhereSeen { s with rx := r } hdrs mem :=
  ha.withRx r fun hp => absurd hp (by simp [hr])

/-- With no slot committed and no frame in progress any N headers and any bytes agree. -/
theorem agreesWhereSeen_of_empty (hc : s.ring.count = 0) (hst : inDataPhase s.rx.state = false)
    (hlen : hdrs.length = s.slotHdrs.length) : AgreesWhereSeen s hdrs mem where
  length := hlen
  header j hj := absurd hj (by simp [hc])
  bytes j hj := absurd hj (by simp [hc])
  current hp := absurd hp (by simp [hst])

/-- R190: a pop commits nothing, so there is less to agree on. -/
theorem AgreesWhereSeen.withPop (ha : AgreesWhereSeen s hdrs mem) (hw : s.cfg.wellFormed = true)
    (hc : s.ring.count ≠ 0) :
    AgreesWhereSeen { s with ring.rd := nextIndex s.cfg s.ring.rd, ring.count := s.ring.count - 1 } hdrs mem := by
  have hcount := pred_toNat _ hc
  have hidx : ∀ j, ringIndex { s with ring.rd := nextIndex s.cfg s.ring.rd, ring.count := s.ring.count - 1 } j =
      ringIndex s (j + 1) := by
    intro j
    show ((nextIndex s.cfg s.ring.rd).toNat + j) % s.cfg.nSlots = (s.ring.rd.toNat + (j + 1)) % s.cfg.nSlots
    rw [nextIndex_toNat hw, Nat.mod_add_mod, Nat.add_assoc, Nat.add_comm 1 j]
  have hlt : ∀ j, j < (s.ring.count - 1).toNat → j + 1 < s.ring.count.toNat := fun j hj => by omega
  refine ⟨ha.length, fun j hj => ?_, fun j hj => ?_, ha.current⟩
  · rw [hidx]; exact ha.header _ (hlt j hj)
  · rw [hidx]; exact ha.bytes _ (hlt j hj)

/-- R131: storing the same byte on both sides keeps agreement: it is the current frame's, and while the ring is not full
the slot being filled is no committed slot. -/
theorem AgreesWhereSeen.withStore (ha : AgreesWhereSeen s hdrs mem) (h : Inv s) (hq : qFull s = false)
    (hp : inDataPhase s.rx.state = true) (f : Byte) :
    AgreesWhereSeen { s with
      slotMem := s.slotMem.write (slotAddr s.ring.wr.toNat s.rx.count.toNat) f
      rx.count := s.rx.count + 1 } hdrs (mem.write (slotAddr s.ring.wr.toNat s.rx.count.toNat) f) := by
  have hM := Config.mtuMax_le h.config
  refine ⟨ha.length, ha.header, fun j hj hd hh k hk => ?_, fun _ hdrop k hk => ?_⟩
  · replace hj : j < s.ring.count.toNat := hj
    obtain ⟨hd', hh', hlen⟩ := h.committed j hj
    obtain rfl : hd' = hd := Option.some.inj (hh'.symm.trans hh)
    have hne : slotAddr (ringIndex s j) k ≠ slotAddr s.ring.wr.toNat s.rx.count.toNat := fun e =>
      h.wr_ne hq hj ((slotAddr_inj (by omega) s.rx.count.isLt).1 e).1
    exact (Memory.read_write_other _ _ hne).trans
      ((ha.bytes j hj hd' hh k hk).trans (Memory.read_write_other _ _ hne).symm)
  · have hk' : k ≤ s.rx.count.toNat := by
      have hsum : (s.rx.count + 1).toNat ≤ s.rx.count.toNat + 1 := by
        rw [BitVec.toNat_add]; exact Nat.mod_le _ _
      exact Nat.lt_succ_iff.1 (Nat.lt_of_lt_of_le hk hsum)
    show Memory.read (Memory.write mem _ f) _ = Memory.read (Memory.write s.slotMem _ f) _
    rw [Memory.read_write, Memory.read_write]
    split
    · rfl
    · rename_i hne
      have : k ≠ s.rx.count.toNat := fun e => hne (by rw [e])
      exact ha.current hp hdrop k (by omega)

/-- R137: a commit on both sides keeps agreement, if the bytes it publishes agree. -/
theorem AgreesWhereSeen.withCommit (ha : AgreesWhereSeen s hdrs mem) (h : Inv s) (hq : qFull s = false)
    (hst : inDataPhase s.rx.state = false) {n : U16} (hn : 2 ≤ n.toNat)
    (hb : ∀ k < n.toNat, mem.read (slotAddr s.ring.wr.toNat k) = s.slotMem.read (slotAddr s.ring.wr.toNat k)) :
    AgreesWhereSeen (commit n s) (hdrs.set s.ring.wr.toNat { len := n - 2, proto := s.rx.proto }) mem := by
  have hN := Config.nSlots_range h.config
  have hlt := h.not_full_iff.1 hq
  have hcount : (s.ring.count + 1).toNat = s.ring.count.toNat + 1 := succ_toNat _ (by show _ < 256; omega)
  have hwr : s.ring.wr.toNat < s.slotHdrs.length := by rw [h.headers]; exact h.wr_lt
  have hcases : ∀ j, j < (s.ring.count + 1).toNat → j < s.ring.count.toNat ∨ ringIndex s j = s.ring.wr.toNat := by
    intro j hj
    by_cases hj' : j < s.ring.count.toNat
    · exact .inl hj'
    · exact .inr (by rw [h.wr_eq, show j = s.ring.count.toNat by omega])
  refine ⟨by simp [ha.length], fun j hj => ?_, fun j hj hd hh k hk => ?_, fun hp => absurd hp (by simp [hst])⟩
  · show (hdrs.set _ _)[ringIndex s j]? = (s.slotHdrs.set _ _)[ringIndex s j]?
    rcases hcases j hj with hj | hj
    · rw [List.getElem?_set_ne (h.wr_ne hq hj).symm, List.getElem?_set_ne (h.wr_ne hq hj).symm]
      exact ha.header j hj
    · rw [hj, List.getElem?_set_self hwr, List.getElem?_set_self (by rw [ha.length]; exact hwr)]
  · replace hh : (s.slotHdrs.set s.ring.wr.toNat { len := n - 2, proto := s.rx.proto })[ringIndex s j]? = some hd := hh
    show mem.read (slotAddr (ringIndex s j) k) = s.slotMem.read (slotAddr (ringIndex s j) k)
    rcases hcases j hj with hj | hj
    · rw [List.getElem?_set_ne (h.wr_ne hq hj).symm] at hh
      exact ha.bytes j hj hd hh k hk
    · rw [hj, List.getElem?_set_self hwr] at hh
      cases hh
      rw [hj]
      refine hb k (Nat.lt_of_lt_of_eq hk ?_)
      show (n - 2).toNat + 2 = n.toNat
      rw [BitVec.toNat_sub_of_le (x := n) (y := 2) hn]; exact Nat.sub_add_cancel hn

end Agreement

/-! ### Commands on both sides of an agreement -/

/-- R131: storing a byte leaves the receiver in its state. -/
theorem rxStore_state {f : Byte} {s t : State} (h : rxStore f s = .ok t) : t.rx.state = s.rx.state := by
  obtain ⟨-, rfl⟩ | ⟨-, -, rfl⟩ := rxStore_cases h <;> rfl

section TwoRuns

variable {s t : State} {hdrs : List SlotHeader} {mem : Memory}

/-- R131: a data-phase byte is stored, or dropped, on both sides. -/
theorem AgreesWhereSeen.rxStore_both (ha : AgreesWhereSeen s hdrs mem) (h : Inv s) (hp : inDataPhase s.rx.state = true)
    {f : Byte} (he : rxStore f s = .ok t) :
    ∃ mem', rxStore f (s.withStorage hdrs mem) = .ok (t.withStorage hdrs mem') ∧ AgreesWhereSeen t hdrs mem' := by
  obtain ⟨hq, rfl⟩ | ⟨hq, hx, rfl⟩ := rxStore_cases he
  · exact ⟨mem, rxStore_full hq, ha.withRx _ fun _ hd => absurd hd (by simp)⟩
  · exact ⟨_, rxStore_free hq hx, ha.withStore h hq hp f⟩

/-- R133: a frame ends the same way on both sides, if the `n` bytes it is judged by agree. -/
theorem AgreesWhereSeen.finalize_both (ha : AgreesWhereSeen s hdrs mem) (h : Inv s)
    (hst : inDataPhase s.rx.state = false) {n : U16} {ev : RxEvent}
    (hb : s.rx.drop = false → ∀ k < n.toNat,
      mem.read (slotAddr s.ring.wr.toNat k) = s.slotMem.read (slotAddr s.ring.wr.toNat k))
    (he : finalize n s = .ok (t, ev)) :
    ∃ hdrs', finalize n (s.withStorage hdrs mem) = .ok (t.withStorage hdrs' mem, ev) ∧ AgreesWhereSeen t hdrs' mem := by
  obtain ⟨hn, rfl, rfl⟩ | ⟨hn, ho, rfl, rfl⟩ | ⟨hn, hd, hq, d, hs, hend⟩ := finalize_cases he
  · exact ⟨hdrs, finalize_runt hn, ha⟩
  · exact ⟨hdrs, finalize_overflow hn ho, ha.withOthers _ _ _ _ _⟩
  · have hs' : slotBytes s.ring.wr.toNat (s.withStorage hdrs mem) 0 n.toNat = .ok d := by
      rw [← hs]
      refine slotBytes_congr fun j hj => ?_
      rw [slotRead, slotRead, slotExists_withStorage, State.withStorage_slotMem, hb hd (0 + j) (by omega)]
    have hf := finalize_checked (s := s.withStorage hdrs mem) hn hd hq hs'
    obtain ⟨hk, rfl, rfl⟩ | ⟨hk, rfl, rfl⟩ := hend
    · exact ⟨_, hf.trans (if_pos hk), ha.withCommit h hq hst hn (hb hd)⟩
    · exact ⟨hdrs, hf.trans (if_neg (ne_true_of_eq_false hk)), ha⟩

/-- R122: a flag has the same effect on both sides. -/
theorem AgreesWhereSeen.onFlag_both (ha : AgreesWhereSeen s hdrs mem) (h : Inv s) {ev : RxEvent}
    (he : onFlag s = .ok (t, ev)) :
    ∃ hdrs', onFlag (s.withStorage hdrs mem) = .ok (t.withStorage hdrs' mem, ev) ∧ AgreesWhereSeen t hdrs' mem := by
  have hout : AgreesWhereSeen { s with rx.state := .addr } hdrs mem := ha.withRxOutside rfl
  unfold onFlag at he ⊢
  rw [State.withStorage_rx]
  cases hs : s.rx.state <;> rw [hs] at he
  case data =>
    exact hout.finalize_both (h.withRxState rfl) rfl (fun hd k hk => ha.current (by rw [hs]; rfl) hd k hk) he
  all_goals cases he; exact ⟨hdrs, rfl, hout⟩

/-- R123 to R130: a field byte has the same effect on both sides. -/
theorem AgreesWhereSeen.onField_both (ha : AgreesWhereSeen s hdrs mem) (h : Inv s) {f : Byte} {ev : RxEvent}
    (he : onField f s = .ok (t, ev)) :
    ∃ hdrs' mem', onField f (s.withStorage hdrs mem) = .ok (t.withStorage hdrs' mem', ev) ∧
      AgreesWhereSeen t hdrs' mem' := by
  have hc := h.counted
  unfold RxCountOk at hc
  unfold onField at he ⊢
  rw [State.withStorage_rx]
  cases hs : s.rx.state <;> rw [hs] at he hc <;> dsimp only at he ⊢
  case hunt => cases he; exact ⟨_, _, rfl, ha⟩
  case addr =>
    split at he <;> rename_i hf <;> cases he
    · exact ⟨_, _, if_pos hf, ha.withRxOutside rfl⟩
    · exact ⟨_, _, if_neg hf, ha.withRxOutside rfl⟩
  case ctrl =>
    split at he <;> rename_i hf <;> cases he
    · exact ⟨_, _, if_pos hf, ha.withRxOutside rfl⟩
    · exact ⟨_, _, if_neg hf, ha.withRxOutside rfl⟩
  case protoHi => cases he; exact ⟨_, _, rfl, ha.withRxOutside rfl⟩
  case protoLo => cases he; exact ⟨_, _, rfl, ha.withRx _ fun _ _ k hk => absurd hk (Nat.not_lt_zero k)⟩
  case data | fcsLo =>
    split at he <;> cases he
    rename_i u hu
    have hp : inDataPhase s.rx.state = true := by rw [hs]; rfl
    obtain ⟨mem', hu', ha'⟩ := ha.rxStore_both h hp hu
    rw [hu']
    exact ⟨_, _, rfl, ha'.withRx _ fun _ hd k hk => ⟨(rxStore_state hu).symm ▸ hp, hd, hk⟩⟩
  case fcsHi =>
    split at he
    · cases he
    rename_i u hu
    have hp : inDataPhase s.rx.state = true := by rw [hs]; rfl
    obtain ⟨mem', hu', ha'⟩ := ha.rxStore_both h hp hu
    rw [hu']
    have hi : Inv { u with rx.state := .hunt } := h.rxStore_leave (by omega) hu rfl
    have hout : AgreesWhereSeen { u with rx.state := .hunt } hdrs mem' := ha'.withRxOutside rfl
    obtain ⟨hdrs', hf, ha''⟩ :=
      hout.finalize_both hi rfl (fun hd => ha'.current ((rxStore_state hu).symm ▸ hp) hd) he
    exact ⟨hdrs', mem', hf, ha''⟩

/-- R120: an RX_BYTE has the same effect and the same event on both sides. -/
theorem AgreesWhereSeen.rxByte_both (ha : AgreesWhereSeen s hdrs mem) (h : Inv s) {b : Byte} {ev : RxEvent}
    (he : rxByte b s = .ok (t, ev)) :
    ∃ hdrs' mem', rxByte b (s.withStorage hdrs mem) = .ok (t.withStorage hdrs' mem', ev) ∧
      AgreesWhereSeen t hdrs' mem' := by
  have hesc : ∀ e, AgreesWhereSeen { s with rx.esc := e } hdrs mem := fun e =>
    ha.withRx _ fun hp hd k hk => ⟨hp, hd, hk⟩
  by_cases hflag : b = 0x7E
  · subst hflag
    obtain ⟨hdrs', hf, ha'⟩ := (hesc false).onFlag_both (h.withRxEsc false) he
    exact ⟨hdrs', mem, hf, ha'⟩
  by_cases hescape : b = 0x7D
  · subst hescape
    cases he
    exact ⟨hdrs, mem, rfl, hesc true⟩
  rw [rxByte_field _ hflag hescape] at he ⊢
  exact (hesc false).onField_both (h.withRxEsc false) he

/-! The transmitter reads its own registers alone (R174). -/

/-- R164: what stuffing a byte leaves in the transmitter and drives depends on the transmitter alone. -/
theorem emitStuffed_of_same_tx {s' : State} (hx : s'.tx = s.tx) (b : Byte) :
    emitStuffed s' b =
      s'.withTxPart (emitStuffed s b).tx (emitStuffed s b).response (emitStuffed s b).txOut := by
  unfold emitStuffed State.withTxPart
  split <;> dsimp only [emit] <;> rw [← hx]

theorem emitField_of_same_tx {s' : State} (hx : s'.tx = s.tx) (b : Byte) :
    emitField s' b = s'.withTxPart (emitField s b).tx (emitField s b).response (emitField s b).txOut := by
  unfold emitField
  rw [emitStuffed_of_same_tx (s := { s with tx.fcs := crcUpdate s.tx.fcs b }) (by rw [hx])]
  rfl

/-- R169, R170: from a state with the same transmitter the payload step does the same. -/
theorem txPayloadStep_of_same_tx {s' : State} (hx : s'.tx = s.tx) (h : txPayloadStep s = .next t) :
    txPayloadStep s' = .next (s'.withTxPart t.tx t.response t.txOut) := by
  unfold txPayloadStep payloadByte at *
  rw [hx]
  split at h
  case isTrue hi =>
    rw [if_pos hi]
    split at h
    · cases h
    · cases h
      rw [emitField_of_same_tx hx]
      rfl
  case isFalse hi =>
    cases h
    rw [if_neg hi, emitStuffed_of_same_tx (s := { s with tx.fcs := crcFinal s.tx.fcs })
      (s' := { s' with tx := { s.tx with fcs := crcFinal s.tx.fcs } }) rfl]
    rfl

/-- R166, R174: from a state with the same transmitter TX_DONE does the same. -/
theorem execTxDone_of_same_tx {s' : State} (hx : s'.tx = s.tx) (h : execTxDone s = .next t) :
    execTxDone s' = .next (s'.withTxPart t.tx t.response t.txOut) := by
  unfold execTxDone at *
  rw [hx]
  split at h
  case isTrue hi =>
    cases h
    rw [if_pos hi]
    simp [reply, State.withTxPart, ← hx]
  case isFalse hi =>
  rw [if_neg hi]
  split at h
  case isTrue hp =>
    cases h
    rw [if_pos hp]
    simp [emit, State.withTxPart, hx]
  case isFalse hp =>
  rw [if_neg hp]
  cases hs : s.tx.state <;> rw [hs] at h <;> dsimp only at h ⊢
  case idle => exact absurd hs hi
  case flag | address | control | protoHi => cases h; rw [emitField_of_same_tx hx]; rfl
  case protoLo | data => exact txPayloadStep_of_same_tx hx h
  case fcsLo => cases h; rw [emitStuffed_of_same_tx hx]; rfl
  case fcsHi => cases h; simp [emit, State.withTxPart, hx]
  case closingFlag => cases h; simp [reply, State.withTxPart]

/-- R160, R174: from a state with the same transmitter TX_START does the same. -/
theorem execTxStart_of_same_tx {s' : State} (hx : s'.tx = s.tx) {p : U16} {chain : Chain}
    (h : execTxStart p chain s = .next t) :
    execTxStart p chain s' = .next (s'.withTxPart t.tx t.response t.txOut) := by
  unfold execTxStart at *
  rw [hx]
  split at h
  case isTrue hb => cases h; rw [if_pos hb]; simp [reply, State.withTxPart, ← hx]
  case isFalse hb =>
  rw [if_neg hb]
  split at h
  case isTrue hr => cases h; rw [if_pos hr]; simp [reply, State.withTxPart, ← hx]
  case isFalse hr => cases h; rw [if_neg hr]; simp [emit, State.withTxPart]

/-- R174: a command of the transmitter neither reads nor writes storage. -/
theorem TxFrame.withStorage (hf : TxFrame s t) :
    (s.withStorage hdrs mem).withTxPart t.tx t.response t.txOut = t.withStorage hdrs mem := by
  unfold TxFrame at hf
  rw [hf]; rfl

theorem AgreesWhereSeen.txFrame (ha : AgreesWhereSeen s hdrs mem) (hf : TxFrame s t) : AgreesWhereSeen t hdrs mem := by
  unfold TxFrame at hf
  rw [hf]
  exact ha.withOthers _ _ _ _ _

/-! The ring's commands see the head slot alone. -/

/-- R191, R192: the head slot's header is the same on both sides. -/
theorem AgreesWhereSeen.slotHeader_rd (ha : AgreesWhereSeen s hdrs mem) (h : Inv s) (hc : s.ring.count ≠ 0)
    {hd : SlotHeader} (hh : s.slotHdrs[s.ring.rd.toNat]? = some hd) :
    slotHeader s.ring.rd.toNat (s.withStorage hdrs mem) = .ok hd := by
  have hhead := ha.header 0 (ring_count_pos hc)
  rw [← h.rd_eq] at hhead
  exact slotHeader_eq_ok.2 (hhead.trans hh)

/-- R193: each byte of the head slot's frame is the same on both sides. -/
theorem AgreesWhereSeen.slotRead_rd (ha : AgreesWhereSeen s hdrs mem) (h : Inv s) (hc : s.ring.count ≠ 0)
    {hd : SlotHeader} (hh : s.slotHdrs[s.ring.rd.toNat]? = some hd) {k : Nat} (hk : k < hd.len.toNat + 2) :
    slotRead s.ring.rd.toNat k (s.withStorage hdrs mem) = slotRead s.ring.rd.toNat k s := by
  have hb := ha.bytes 0 (ring_count_pos hc) hd (by rw [← h.rd_eq]; exact hh) k hk
  rw [← h.rd_eq] at hb
  rw [slotRead, slotRead, slotExists_withStorage, State.withStorage_slotMem, hb]

/-- R34: every command completes on both sides with the same registers, answer and byte, and keeps agreement. -/
theorem AgreesWhereSeen.exec_both (ha : AgreesWhereSeen s hdrs mem) (h : Inv s) {i : Instr} (he : exec i s = .next t) :
    ∃ hdrs' mem', exec i (s.withStorage hdrs mem) = .next (t.withStorage hdrs' mem') ∧
      AgreesWhereSeen t hdrs' mem' := by
  cases i with
  | rxByte b =>
    obtain ⟨u, ev, hu, rfl⟩ := execRxByte_next he
    obtain ⟨hdrs', mem', hu', ha'⟩ := ha.rxByte_both h hu
    exact ⟨hdrs', mem', by rw [exec, execRxByte, hu']; rfl, ha'.withReply _ _ _⟩
  | txDone =>
    have hf := execTxDone_frame he
    have hrun := execTxDone_of_same_tx (s := s) (s' := s.withStorage hdrs mem) rfl he
    rw [hf.withStorage] at hrun
    exact ⟨hdrs, mem, hrun, ha.txFrame hf⟩
  | txStart p chain =>
    have hf := execTxStart_frame he
    have hrun := execTxStart_of_same_tx (s := s) (s' := s.withStorage hdrs mem) rfl he
    rw [hf.withStorage] at hrun
    exact ⟨hdrs, mem, hrun, ha.txFrame hf⟩
  | qPop =>
    obtain ⟨hc, rfl⟩ | ⟨hc, rfl⟩ := execQPop_next he
    · exact ⟨hdrs, mem, if_pos hc, ha.withReply _ _ _⟩
    · exact ⟨hdrs, mem, if_neg hc, (ha.withPop h.config hc).withReply _ _ _⟩
  | qHeadProto =>
    obtain ⟨hc, rfl⟩ | ⟨hc, hd, hh, rfl⟩ := execQHeadProto_next he
    · exact ⟨hdrs, mem, if_pos hc, ha.withReply _ _ _⟩
    · refine ⟨hdrs, mem, (if_neg hc).trans ?_, ha.withReply _ _ _⟩
      rw [State.withStorage_ring, ha.slotHeader_rd h hc hh]; rfl
  | qHeadLen =>
    obtain ⟨hc, rfl⟩ | ⟨hc, hd, hh, rfl⟩ := execQHeadLen_next he
    · exact ⟨hdrs, mem, if_pos hc, ha.withReply _ _ _⟩
    · refine ⟨hdrs, mem, (if_neg hc).trans ?_, ha.withReply _ _ _⟩
      rw [State.withStorage_ring, ha.slotHeader_rd h hc hh]; rfl
  | qHeadByte k =>
    obtain ⟨hc, rfl⟩ | ⟨hc, hd, hh, hk⟩ := execQHeadByte_next he
    · exact ⟨hdrs, mem, if_pos hc, ha.withReply _ _ _⟩
    have hh' := ha.slotHeader_rd h hc hh
    obtain ⟨hk, rfl⟩ | ⟨hk, b, hb, rfl⟩ := hk
    · refine ⟨hdrs, mem, (if_neg hc).trans ?_, ha.withReply _ _ _⟩
      rw [State.withStorage_ring, hh']
      exact if_pos hk
    · refine ⟨hdrs, mem, (if_neg hc).trans ?_, ha.withReply _ _ _⟩
      rw [State.withStorage_ring, hh', (ha.slotRead_rd h hc hh hk).trans hb]
      exact if_neg (Nat.not_le.2 hk)
  | regRead a =>
    obtain ⟨hr, rfl⟩ | ⟨r, hr, rfl⟩ := execRegRead_next he
    · exact ⟨hdrs, mem, by rw [exec, execRegRead, hr]; rfl, ha.withReply _ _ _⟩
    · exact ⟨hdrs, mem, by rw [exec, execRegRead, hr, ← csrValue_withStorage s hdrs mem]; rfl, ha.withReply _ _ _⟩
  | regWrite a v =>
    rw [exec, execRegWrite] at he ⊢
    cases hr : csrOf a with
    | none => rw [hr] at he; cases he; exact ⟨hdrs, mem, rfl, ha.withReply _ _ _⟩
    | some r =>
      rw [hr] at he
      dsimp only at he ⊢
      split at he <;> rename_i hm
      · cases he; exact ⟨hdrs, mem, if_pos hm, ha.withReply _ _ _⟩
      split at he <;> rename_i hv <;> cases he
      · exact ⟨hdrs, mem, (if_neg hm).trans (if_pos hv), ha.withReply _ _ _⟩
      · exact ⟨hdrs, mem, (if_neg hm).trans (if_neg hv), ha.withOthers _ _ _ _ _⟩
  | crcSeed => cases he; exact ⟨hdrs, mem, rfl, ha.withReply _ _ _⟩
  | crcUpdate c b => cases he; exact ⟨hdrs, mem, rfl, ha.withReply _ _ _⟩
  | crcFinal c => cases he; exact ⟨hdrs, mem, rfl, ha.withReply _ _ _⟩
  | reset =>
    cases he
    exact ⟨hdrs, mem, rfl, agreesWhereSeen_of_empty rfl rfl ha.length⟩

end TwoRuns

/-- Settles O56: the other state is the first with a storage that agrees where seen, and every command keeps such an
agreement. -/
theorem unseenStorageUnobservable : Obligations.UnseenStorageUnobservable := by
  intro i s s' t h _ hsame he
  obtain ⟨hdrs, mem, rfl, ha⟩ := sameButUnseenStorage_iff.1 hsame
  obtain ⟨hdrs', mem', he', ha'⟩ := ha.exec_both h he
  exact ⟨_, he', sameButUnseenStorage_iff.2 ⟨hdrs', mem', rfl, ha'⟩⟩

/-- R34, R61: every sequence of commands completes on both sides, with the same answers and the same bytes. -/
theorem AgreesWhereSeen.runs_both {s : State} {hdrs : List SlotHeader} {mem : Memory}
    (ha : AgreesWhereSeen s hdrs mem) (h : Inv s) (is : List Instr) :
    ∃ (t t' : State) (words : List Word) (bytes : List Byte),
      runAll is s = some (t, bytes) ∧ runAll is (s.withStorage hdrs mem) = some (t', bytes) ∧
        responsesOf is s = some words ∧ responsesOf is (s.withStorage hdrs mem) = some words := by
  induction is generalizing s hdrs mem with
  | nil => exact ⟨_, _, _, _, rfl, rfl, rfl, rfl⟩
  | cons i is ih =>
    obtain ⟨u, hu, hi⟩ := h.exec_completes i
    obtain ⟨hdrs', mem', hu', ha'⟩ := ha.exec_both h hu
    obtain ⟨t, t', words, bytes, hrun, hrun', hans, hans'⟩ := ih ha' hi
    refine ⟨t, t', u.response.toList ++ words, u.txOut.toList ++ bytes, ?_, ?_, ?_, ?_⟩
    · rw [runAll, hu]; dsimp only; rw [hrun]
    · rw [runAll, hu']; dsimp only; rw [hrun']; rfl
    · rw [responsesOf, hu]; dsimp only; rw [hans]
    · rw [responsesOf, hu']; dsimp only; rw [hans']; rfl

/-- Settles O60: at power-on no slot is committed and no frame in progress, so any two storages agree where seen, and
every sequence of commands runs alike on both. -/
theorem powerOnStorageNeverShown : Obligations.PowerOnStorageNeverShown := by
  intro c hdrs hdrs' mem mem' is hc hs hs'
  have ha : AgreesWhereSeen (State.powerOn c hdrs mem) hdrs' mem' :=
    agreesWhereSeen_of_empty rfl rfl (hs'.1.trans hs.1.symm)
  exact ha.runs_both (inv_powerOn hc hs) is

end Sys2Proof.Machine

namespace Sys2Proof.Machine

/-! ### The fields of STATUS (O47) -/

section StatusFields

variable (s : State)

theorem statusWord_rxState : (statusWord s).extractLsb' 0 3 = s.rx.state.code := by
  rw [statusWord, BitVec.extractLsb'_append_eq_of_add_le (by decide), BitVec.extractLsb'_eq_self]

theorem statusWord_txState : (statusWord s).extractLsb' 4 4 = s.tx.state.code := by
  rw [statusWord, BitVec.extractLsb'_append_eq_of_le (by decide), BitVec.extractLsb'_append_eq_of_le (by decide),
    BitVec.extractLsb'_append_eq_of_add_le (by decide), BitVec.extractLsb'_eq_self]

theorem statusWord_zeros : (statusWord s).extractLsb' 13 3 = 0#3 := by
  rw [statusWord]
  iterate 8 rw [BitVec.extractLsb'_append_eq_of_le (by decide)]
  exact BitVec.extractLsb'_eq_self

theorem statusWord_flags :
    (statusWord s).getLsbD 3 = s.rx.esc ∧ (statusWord s).getLsbD 8 = s.tx.escPend ∧
      (statusWord s).getLsbD 9 = txBusy s ∧ (statusWord s).getLsbD 10 = rxReady s ∧
      (statusWord s).getLsbD 11 = s.rx.drop ∧ (statusWord s).getLsbD 12 = qFull s := by
  simp only [statusWord, BitVec.getLsbD_append, BitVec.getLsbD_ofBool]
  simp

theorem txBusy_iff : txBusy s = true ↔ s.tx.state ≠ .idle := by simp [txBusy]

theorem rxReady_iff : rxReady s = true ↔ s.ring.count ≠ 0 := by simp [rxReady]

/-- R210, R32: a REG_READ of an assigned number answers that CSR's value. -/
theorem exec_regRead_number (r : Csr) : exec (.regRead r.number) s = .next (Spec.answered s (csrValue s r)) := by
  rw [exec, execRegRead, csrOf_number]
  dsimp only [reply, Spec.answered]
  rw [respond_ok]

end StatusFields

/-- Settles O47: the value answered is `statusWord`, whose fields are read off its parts. -/
theorem statusFields : Obligations.StatusFields := by
  intro s
  obtain ⟨hesc, hpend, hbusy, hready, hdrop, hfull⟩ := statusWord_flags s
  refine ⟨statusWord s, exec_regRead_number s .status, statusWord_rxState s, hesc, statusWord_txState s, hpend, ?_, ?_,
    hdrop, ?_, statusWord_zeros s, rfl, rfl⟩
  · rw [hbusy, txBusy_iff]
  · rw [hready, rxReady_iff]
  · rw [hfull, qFull_iff, Spec.full]

/-! ### The writers of each register (O59) -/

/-- Settles O59: an RX_BYTE, a TX_START and a TX_DONE write within their frames, and every other command leaves a state
whose fields are written out. -/
theorem writersOfEachRegister : Obligations.WritersOfEachRegister := by
  intro i s t h
  cases i with
  | rxByte b =>
    obtain ⟨u, ev, hu, rfl⟩ := execRxByte_next h
    have hf := rxByte_frame hu
    unfold RxFrame at hf
    rw [hf]
    simp
  | txDone =>
    have hf := execTxDone_frame h
    unfold TxFrame at hf
    rw [hf]
    simp
  | txStart p chain =>
    have hf := execTxStart_frame h
    unfold TxFrame at hf
    rw [hf]
    simp
  | qPop => obtain ⟨-, rfl⟩ | ⟨-, rfl⟩ := execQPop_next h <;> simp
  | qHeadProto => obtain ⟨-, rfl⟩ | ⟨-, hd, -, rfl⟩ := execQHeadProto_next h <;> simp
  | qHeadLen => obtain ⟨-, rfl⟩ | ⟨-, hd, -, rfl⟩ := execQHeadLen_next h <;> simp
  | qHeadByte k => obtain ⟨-, rfl⟩ | ⟨-, hd, -, ⟨-, rfl⟩ | ⟨-, b, -, rfl⟩⟩ := execQHeadByte_next h <;> simp
  | regRead a => obtain ⟨-, rfl⟩ | ⟨r, -, rfl⟩ := execRegRead_next h <;> simp
  | regWrite a v => obtain ⟨rc, -, rfl⟩ | ⟨-, -, rfl⟩ := execRegWrite_next h <;> simp
  | crcSeed => cases h; simp
  | crcUpdate c b => cases h; simp
  | crcFinal c => cases h; simp
  | reset => cases h; simp

end Sys2Proof.Machine

namespace Sys2Proof.Machine

/-! ### The receiver and the committed slots (O41) -/

section CommittedSlots

variable {s u : State}

/-- R51, R131: the byte a receiver step may store is the current frame's, in no committed slot. -/
theorem StoresAtMostOne.read_committed (hs : StoresAtMostOne s u) (h : Inv s) {j k : Nat}
    (hj : j < s.ring.count.toNat) (hk : k < s.cfg.slotCap) :
    u.slotMem.read (slotAddr (ringIndex s j) k) = s.slotMem.read (slotAddr (ringIndex s j) k) := by
  obtain hm | ⟨hq, f, hm⟩ := hs
  · rw [hm]
  · have hk' : k < 65536 := hk.trans (Config.slotCap_lt h.config)
    rw [hm]
    exact Memory.read_write_other _ _ fun e => h.wr_ne hq hj ((slotAddr_inj hk' s.rx.count.isLt).1 e).1

/-- R51, R137: the header a commit writes is that of the slot being filled, which is no committed slot. -/
theorem CommitsAtMostOne.header_committed {ev : RxEvent} (hc : CommitsAtMostOne s u ev) (h : Inv s) {j : Nat}
    (hj : j < s.ring.count.toNat) : u.slotHdrs[ringIndex s j]? = s.slotHdrs[ringIndex s j]? := by
  obtain ⟨-, -, hh⟩ | ⟨-, hq, n, d, -, -, hh, -, -⟩ := hc
  · rw [hh]
  · rw [hh, List.getElem?_set_ne (h.wr_ne hq hj).symm]

end CommittedSlots

/-- Settles O41: what an RX_BYTE stores and what it commits lies in the slot being filled. -/
theorem committedSlotsUntouched : Obligations.CommittedSlotsUntouched := by
  intro b s t j k h he hj hk
  obtain ⟨u, ev, hu, rfl⟩ := execRxByte_next he
  obtain ⟨hstore, hcommit⟩ := rxByte_storage hu
  exact ⟨hcommit.header_committed h hj, hstore.read_committed h hj hk⟩

/-! ### Every reachable state steps (O54) -/

/-- R238: a state of the invariant holds none of the values a start state is refused for. -/
theorem Inv.startOk {s : State} (h : Inv s) : startOk s = true := by
  have hesc : (s.tx.escPend && (s.tx.state == .idle || s.tx.state == .closingFlag)) = false := by
    cases hp : s.tx.escPend with
    | false => rfl
    | true => simpa using h.escape hp
  simp [Machine.startOk, h.config, h.headers, hesc, h.count, h.head, h.wr_lt, h.count_le]

/-- R61, R230: the step is taken from every state of the invariant: with no command, with a word of no command, and with
a command, which completes. -/
theorem Inv.step_completes {s : State} (h : Inv s) : ∃ t, step s = .next t := by
  cases hp : s.pending with
  | nil => exact ⟨_, by simp only [step, h.startOk, hp, if_true]; rfl⟩
  | cons c rest =>
    rw [step_of_pending_cons h.startOk hp]
    have hr : Inv { s with pending := rest } := h.withOutputs s.response s.txOut rest s.ovfCount
    cases hd : decode c.word c.chain with
    | ok i =>
      obtain ⟨t, ht, -⟩ := hr.exec_completes i
      exact ⟨t, (runCommand_of_decode_ok hd _).trans ht⟩
    | error e => exact ⟨_, by simp only [runCommand, hd]; rfl⟩

/-- R34, R61: the invariant holds in every state reached from power-on with legal parameters. -/
theorem Reachable.inv {c : Config} {s : State} (hc : c.wellFormed = true) (hr : Reachable c s) : Inv s := by
  induction hr with
  | powerOn hdrs mem hs => exact inv_powerOn hc hs
  | issue s cmd _ ih => exact ih.withOutputs s.response s.txOut (s.pending ++ [cmd]) s.ovfCount
  | step s t _ hs ih => exact stepKeepsInv s t ih hs

/-- Settles O54: the invariant holds in every state reached, and there the next step is taken. -/
theorem reachableStatesNeverStop : Obligations.ReachableStatesNeverStop := by
  intro c s hc hr
  exact ⟨hr.inv hc, (hr.inv hc).step_completes⟩

/-! ### Committed frames stay valid (O55) -/

/-- R61, R78, R246: what a step does: nothing on an empty line, the answer to a word of no command, or the command. -/
theorem step_next {s t : State} (h : step s = .next t) :
    (s.pending = [] ∧ t = idleStep s) ∨
    ∃ c rest, s.pending = c :: rest ∧
      (t = answerIllegal { s with pending := rest } ∨ ∃ i, exec i { s with pending := rest } = .next t) := by
  unfold step at h
  split at h
  case isFalse => cases h
  case isTrue =>
  split at h
  case h_1 hp => cases h; exact .inl ⟨hp, rfl⟩
  case h_2 c rest hp =>
    refine .inr ⟨c, rest, hp, ?_⟩
    unfold runCommand at h
    split at h
    case h_1 i _ => exact .inr ⟨i, h⟩
    case h_2 => cases h; exact .inl rfl

/-- R109, R137: slot `i` holds a frame whose FCS checks: `CommittedFramesCheck`, for one slot. -/
def SlotFrameChecks (s : State) (i : Nat) : Prop :=
  ∃ (h : SlotHeader) (d : List Byte), s.slotHdrs[i]? = some h ∧ slotBytes i s 0 (h.len.toNat + 2) = .ok d ∧
    fcsOk h.proto d = true

theorem committedFramesCheck_iff {s : State} :
    CommittedFramesCheck s ↔ ∀ j < s.ring.count.toNat, SlotFrameChecks s (ringIndex s j) := Iff.rfl

section FramesCheck

variable {s t : State}

/-- R26: where a position of the ring lies depends on the parameters and `q_rd` alone. -/
theorem ringIndex_congr (hc : t.cfg = s.cfg) (hrd : t.ring.rd = s.ring.rd) (j : Nat) :
    ringIndex t j = ringIndex s j := by
  rw [ringIndex, ringIndex, hc, hrd]

/-- R190: after a pop, position `j` of the ring is what position `j + 1` was. -/
theorem ringIndex_pop (hw : s.cfg.wellFormed = true) (hc : t.cfg = s.cfg)
    (hrd : t.ring.rd = nextIndex s.cfg s.ring.rd) (j : Nat) : ringIndex t j = ringIndex s (j + 1) := by
  rw [ringIndex, ringIndex, hc, hrd, nextIndex_toNat hw, Nat.mod_add_mod, Nat.add_assoc, Nat.add_comm 1 j]

/-- A slot whose header and existing bytes are as before holds the frame it held. -/
theorem SlotFrameChecks.congr {i : Nat} (hf : SlotFrameChecks s i) (hc : t.cfg = s.cfg)
    (hh : t.slotHdrs[i]? = s.slotHdrs[i]?)
    (hm : ∀ k < s.cfg.slotCap, t.slotMem.read (slotAddr i k) = s.slotMem.read (slotAddr i k)) :
    SlotFrameChecks t i := by
  obtain ⟨hd, d, hhd, hbytes, hok⟩ := hf
  refine ⟨hd, d, hh.trans hhd, (slotBytes_congr fun k _ => ?_).trans hbytes, hok⟩
  have hx : slotExists t i (0 + k) = slotExists s i (0 + k) := by rw [slotExists, slotExists, hc]
  rw [slotRead, slotRead, hx]
  split
  case isTrue he => rw [hm _ ((slotExists_iff s i _).1 he).2]
  case isFalse => rfl

/-- With the same parameters, headers and slot memory, the same slots hold frames. -/
theorem SlotFrameChecks.of_same_storage {i : Nat} (hf : SlotFrameChecks s i) (hc : t.cfg = s.cfg)
    (hh : t.slotHdrs = s.slotHdrs) (hm : t.slotMem = s.slotMem) : SlotFrameChecks t i :=
  hf.congr hc (by rw [hh]) fun _ _ => by rw [hm]

/-- What writes neither slot storage nor the head and the count of the ring keeps the committed frames. -/
theorem CommittedFramesCheck.of_same_storage (hf : CommittedFramesCheck s) (hc : t.cfg = s.cfg)
    (hh : t.slotHdrs = s.slotHdrs) (hm : t.slotMem = s.slotMem) (hrd : t.ring.rd = s.ring.rd)
    (hcount : t.ring.count = s.ring.count) : CommittedFramesCheck t := by
  refine committedFramesCheck_iff.2 fun j hj => ?_
  rw [hcount] at hj
  rw [ringIndex_congr hc hrd]
  exact (committedFramesCheck_iff.1 hf j hj).of_same_storage hc hh hm

theorem committedFramesCheck_of_empty (hc : s.ring.count = 0) : CommittedFramesCheck s :=
  fun j hj => absurd hj (by simp [hc])

/-- R190: the frames left after a pop were committed before it. -/
theorem CommittedFramesCheck.execQPop (hf : CommittedFramesCheck s) (hw : s.cfg.wellFormed = true)
    (he : execQPop s = .next t) : CommittedFramesCheck t := by
  obtain ⟨-, rfl⟩ | ⟨hne, ht⟩ := execQPop_next he
  · exact hf.of_same_storage rfl rfl rfl rfl rfl
  · refine committedFramesCheck_iff.2 fun j hj => ?_
    have hcfg : t.cfg = s.cfg := by rw [ht]; rfl
    have hrd : t.ring.rd = nextIndex s.cfg s.ring.rd := by rw [ht]; rfl
    have hcount : t.ring.count.toNat = s.ring.count.toNat - 1 := by rw [ht]; exact pred_toNat _ hne
    rw [ringIndex_pop hw hcfg hrd]
    exact (committedFramesCheck_iff.1 hf (j + 1) (by omega)).of_same_storage hcfg (by rw [ht]; rfl) (by rw [ht]; rfl)

/-- R137: a commit of `n` bytes whose FCS checks leaves a frame that checks in the slot that was being filled. -/
theorem slotFrameChecks_of_commit {i : Nat} {n p : U16} {d : List Byte} (hn : 2 ≤ n.toNat)
    (hh : t.slotHdrs[i]? = some { len := n - 2, proto := p }) (hb : slotBytes i t 0 n.toNat = .ok d)
    (hok : fcsOk p d = true) : SlotFrameChecks t i := by
  have hlen : (n - 2).toNat + 2 = n.toNat := by
    rw [BitVec.toNat_sub_of_le (x := n) (y := 2) hn]; exact Nat.sub_add_cancel hn
  exact ⟨_, d, hh, by rw [hlen]; exact hb, hok⟩

/-- R51, R137: an RX_BYTE leaves the committed frames as they were, and commits only a frame whose FCS checks. -/
theorem CommittedFramesCheck.rxByte (hf : CommittedFramesCheck s) (h : Inv s) {b : Byte} {ev : RxEvent}
    (hu : rxByte b s = .ok (t, ev)) : CommittedFramesCheck t := by
  obtain ⟨hstore, hcommit⟩ := rxByte_storage hu
  obtain ⟨hcfg, hrd⟩ : t.cfg = s.cfg ∧ t.ring.rd = s.ring.rd := by rw [rxByte_frame hu]; exact ⟨rfl, rfl⟩
  have hold : ∀ j < s.ring.count.toNat, SlotFrameChecks t (ringIndex s j) := fun j hj =>
    (committedFramesCheck_iff.1 hf j hj).congr hcfg (hcommit.header_committed h hj)
      fun k hk => hstore.read_committed h hj hk
  refine committedFramesCheck_iff.2 fun j hj => ?_
  rw [ringIndex_congr hcfg hrd]
  obtain ⟨-, hring, -⟩ | ⟨-, hq, n, d, hn, hring, hhdrs, hbytes, hok⟩ := hcommit
  · exact hold j (by rwa [hring] at hj)
  · have hlt := h.not_full_iff.1 hq
    have hN := Config.nSlots_range h.config
    rw [hring, succ_toNat _ (show _ < 256 by omega)] at hj
    by_cases hj' : j < s.ring.count.toNat
    · exact hold j hj'
    · obtain rfl : j = s.ring.count.toNat := by omega
      rw [← h.wr_eq]
      refine slotFrameChecks_of_commit hn ?_ hbytes hok
      rw [hhdrs, List.getElem?_set_self (by rw [h.headers]; exact h.wr_lt)]

/-- R62: every command keeps the committed frames: RX_BYTE, Q_POP and RESET each for its own reason, every other because
it writes neither slot storage nor the ring. -/
theorem CommittedFramesCheck.exec (hf : CommittedFramesCheck s) (h : Inv s) {i : Instr} (he : exec i s = .next t) :
    CommittedFramesCheck t := by
  obtain ⟨hcfg, -, -, hstorage, -, hrd, hcount, -⟩ := writersOfEachRegister i s t he
  cases i
  case rxByte b =>
    obtain ⟨u, ev, hu, rfl⟩ := execRxByte_next he
    exact (hf.rxByte h hu).of_same_storage rfl rfl rfl rfl rfl
  case qPop => exact hf.execQPop h.config he
  case reset => cases he; exact committedFramesCheck_of_empty rfl
  all_goals
    obtain ⟨hhdrs, hmem⟩ := hstorage nofun
    exact hf.of_same_storage hcfg hhdrs hmem (hrd nofun nofun) (hcount nofun nofun nofun)

/-- R61, R62: every step keeps the committed frames. -/
theorem CommittedFramesCheck.step (hf : CommittedFramesCheck s) (h : Inv s) (hs : step s = .next t) :
    CommittedFramesCheck t := by
  obtain ⟨-, rfl⟩ | ⟨c, rest, -, hrun⟩ := step_next hs
  · exact hf.of_same_storage rfl rfl rfl rfl rfl
  · have hr : Inv { s with pending := rest } := h.withOutputs s.response s.txOut rest s.ovfCount
    have hfr : CommittedFramesCheck { s with pending := rest } := hf.of_same_storage rfl rfl rfl rfl rfl
    obtain rfl | ⟨i, hi⟩ := hrun
    · exact hfr.of_same_storage rfl rfl rfl rfl rfl
    · exact hfr.exec hr hi

end FramesCheck

/-- Settles O55: no slot is committed at power-on, issuing a command touches no slot, and every step keeps the committed
frames. -/
theorem committedFramesStayValid : Obligations.CommittedFramesStayValid := by
  intro c s hc hr
  induction hr with
  | powerOn hdrs mem _ => exact committedFramesCheck_of_empty rfl
  | issue s cmd _ ih => exact ih.of_same_storage rfl rfl rfl rfl rfl
  | step s t hr hs ih => exact ih.step (hr.inv hc) hs

/-! ### Reads have no side effect (O58) -/

/-- R58, R111: the commands that read: the head reads, REG_READ and the CRC commands. -/
def IsRead (i : Instr) : Prop :=
  i = .qHeadProto ∨ i = .qHeadLen ∨ (∃ k, i = .qHeadByte k) ∨ (∃ a, i = .regRead a) ∨ i = .crcSeed ∨
    (∃ c b, i = .crcUpdate c b) ∨ ∃ c, i = .crcFinal c

/-- R58, R111: a read that completes only answers. -/
theorem IsRead.exec_next {i : Instr} (hi : IsRead i) {s t : State} (h : exec i s = .next t) :
    ∃ rc aux data, t = reply s rc aux data := by
  obtain rfl | rfl | ⟨k, rfl⟩ | ⟨a, rfl⟩ | rfl | ⟨c, b, rfl⟩ | ⟨c, rfl⟩ := hi
  · obtain ⟨-, rfl⟩ | ⟨-, hd, -, rfl⟩ := execQHeadProto_next h <;> exact ⟨_, _, _, rfl⟩
  · obtain ⟨-, rfl⟩ | ⟨-, hd, -, rfl⟩ := execQHeadLen_next h <;> exact ⟨_, _, _, rfl⟩
  · obtain ⟨-, rfl⟩ | ⟨-, hd, -, ⟨-, rfl⟩ | ⟨-, b, -, rfl⟩⟩ := execQHeadByte_next h <;> exact ⟨_, _, _, rfl⟩
  · obtain ⟨-, rfl⟩ | ⟨r, -, rfl⟩ := execRegRead_next h <;> exact ⟨_, _, _, rfl⟩
  · cases h; exact ⟨_, _, _, rfl⟩
  · cases h; exact ⟨_, _, _, rfl⟩
  · cases h; exact ⟨_, _, _, rfl⟩

/-- R58, R111: what a read does depends on no output of the step before it. -/
theorem IsRead.exec_reply {i : Instr} (hi : IsRead i) (s : State) (rc : Rc) (aux : Byte) (data : U16) :
    exec i (reply s rc aux data) = exec i s := by
  obtain rfl | rfl | ⟨k, rfl⟩ | ⟨a, rfl⟩ | rfl | ⟨c, b, rfl⟩ | ⟨c, rfl⟩ := hi <;> rfl

/-- Settles O58: a read only answers, and what it answers depends on no earlier answer. -/
theorem readsHaveNoSideEffect : Obligations.ReadsHaveNoSideEffect := by
  intro i s t hi h
  replace hi : IsRead i := hi
  obtain ⟨rc, aux, data, rfl⟩ := hi.exec_next h
  exact ⟨rfl, (hi.exec_reply s rc aux data).trans h⟩

end Sys2Proof.Machine

namespace Sys2Proof

/-! ### Decoding an encoded command (O2, O1) -/

/-- R77 against R70 and R71: a row that fixes the bits above `k` tests the OP field and that the `n` reserved bits from
`k` up to OP are 0. -/
theorem topBits_eq_fields {w : Word} (k n q : Nat) (op : BitVec 4) (hn : k + n = 28) (hq : q = op.toNat * 2 ^ n) :
    topBits w k q = (opField w == op && w.extractLsb' k n == 0) := by
  have hop : w.toNat / 2 ^ k / 2 ^ n = w.toNat / 2 ^ 28 := by rw [Nat.div_div_eq_div_mul, ← pow_add, hn]
  have hlt : w.toNat / 2 ^ 28 < 2 ^ 4 := by have := w.isLt; omega
  have hfield : opField w = op ↔ w.toNat / 2 ^ 28 = op.toNat := by
    rw [← BitVec.toNat_inj, opField, BitVec.extractLsb'_toNat, Nat.shiftRight_eq_div_pow, Nat.mod_eq_of_lt hlt]
  have hclear : w.extractLsb' k n = 0 ↔ w.toNat / 2 ^ k % 2 ^ n = 0 := by
    rw [← BitVec.toNat_inj, BitVec.extractLsb'_toNat, Nat.shiftRight_eq_div_pow]; simp
  rw [Bool.eq_iff_iff, Bool.and_eq_true, beq_iff_eq, beq_iff_eq, hfield, hclear, topBits_iff, hq, ← hop]
  generalize w.toNat / 2 ^ k = v
  constructor
  · rintro rfl
    exact ⟨Nat.mul_div_cancel _ (Nat.two_pow_pos n), Nat.mul_mod_left _ _⟩
  · rintro ⟨hdiv, hmod⟩
    rw [← hdiv, Nat.div_mul_cancel (Nat.dvd_of_mod_eq_zero hmod)]

/-- R71, F_NONE: the word of an opcode and 28 reserved bits. -/
theorem eq_noneWord_iff (op : BitVec 4) {w : Word} :
    w = op ++ 0#28 ↔ topBits w 0 (op.toNat * 2 ^ 28) = true := by
  rw [topBits_iff, ← BitVec.toNat_inj, toNat_append_mul, BitVec.toNat_ofNat]
  omega

/-- R71, F_BYTE and F_REG: the word is its opcode, its reserved bits and the byte in bits 7 to 0. -/
theorem eq_byteWord_iff (op : BitVec 4) (b : Byte) {w : Word} :
    w = op ++ 0#20 ++ b ↔ topBits w 8 (op.toNat * 2 ^ 20) = true ∧ b = field7to0 w := by
  have hb := b.isLt
  rw [topBits_iff, ← BitVec.toNat_inj, ← BitVec.toNat_inj, field7to0, BitVec.extractLsb'_toNat]
  simp only [toNat_append_mul, BitVec.toNat_ofNat, Nat.shiftRight_zero]
  omega

/-- R71, F_D16: the word is its opcode, its reserved bits and the 16-bit value in bits 15 to 0. -/
theorem eq_d16Word_iff (op : BitVec 4) (v : U16) {w : Word} :
    w = op ++ 0#12 ++ v ↔ topBits w 16 (op.toNat * 2 ^ 12) = true ∧ v = field15to0 w := by
  have hv := v.isLt
  rw [topBits_iff, ← BitVec.toNat_inj, ← BitVec.toNat_inj, field15to0, BitVec.extractLsb'_toNat]
  simp only [toNat_append_mul, BitVec.toNat_ofNat, Nat.shiftRight_zero]
  omega

/-- R71, F_REGW and F_CRC: the word is its opcode, its reserved bits, the byte in bits 23 to 16 and the 16-bit value in
bits 15 to 0. -/
theorem eq_byteD16Word_iff (op : BitVec 4) (a : Byte) (v : U16) {w : Word} :
    w = op ++ 0#4 ++ a ++ v ↔
      topBits w 24 (op.toNat * 2 ^ 4) = true ∧ a = field23to16 w ∧ v = field15to0 w := by
  have ha := a.isLt
  have hv := v.isLt
  rw [topBits_iff, ← BitVec.toNat_inj, ← BitVec.toNat_inj, ← BitVec.toNat_inj, field15to0, field23to16,
    BitVec.extractLsb'_toNat, BitVec.extractLsb'_toNat]
  simp only [toNat_append_mul, BitVec.toNat_ofNat, Nat.shiftRight_eq_div_pow]
  omega

/-- R71, R73, R77: a word decodes to a command exactly when it is the command's word, and the chain on the port is the
operand of TX_START. -/
theorem decode_eq_ok_iff_encode {w : Word} {chain : Chain} {i : Instr} :
    decode w chain = .ok i ↔ w = encodeWord i ∧ ∀ p c, i = .txStart p c → c = chain := by
  rw [decode_eq_ok]
  cases i with
  | rxByte b => simpa [encodeWord] using (eq_byteWord_iff 0x1 b).symm
  | txDone => simpa [encodeWord] using (eq_noneWord_iff 0x2).symm
  | txStart p c => simpa [encodeWord, and_assoc] using and_congr_left' (c := c = chain) (eq_d16Word_iff 0x3 p).symm
  | qPop => simpa [encodeWord] using (eq_noneWord_iff 0x4).symm
  | qHeadProto => simpa [encodeWord] using (eq_noneWord_iff 0x5).symm
  | qHeadLen => simpa [encodeWord] using (eq_noneWord_iff 0x6).symm
  | qHeadByte k => simpa [encodeWord] using (eq_d16Word_iff 0x7 k).symm
  | regRead a => simpa [encodeWord] using (eq_byteWord_iff 0x8 a).symm
  | regWrite a v => simpa [encodeWord] using (eq_byteD16Word_iff 0x9 a v).symm
  | crcSeed => simpa [encodeWord] using (eq_noneWord_iff 0xA).symm
  | crcUpdate c b => simpa [encodeWord] using ((eq_byteD16Word_iff 0xB b c).trans (and_congr_right' and_comm)).symm
  | crcFinal c => simpa [encodeWord] using (eq_d16Word_iff 0xC c).symm
  | reset => simpa [encodeWord] using (eq_noneWord_iff 0xD).symm

/-- Settles O2: the word and the chain of a command are what decodes to it. -/
theorem decodeOfEncode : Obligations.DecodeOfEncode := fun i =>
  decode_eq_ok_iff_encode.2 ⟨rfl, by rintro p c rfl; rfl⟩

/-- Settles O1, by running the decoder on the thirteen words. -/
theorem decodesWrittenOutWords : Obligations.DecodesWrittenOutWords := by
  unfold Obligations.DecodesWrittenOutWords
  decide

/-! ### The words rejected (O4) -/

/-- R71 against R77: the words that no row matches are those the format table makes illegal. The rows and the table
read the same five things, the OP field and whether the reserved bits of each kind of format are 0, so that the two
are compared on every value of these. -/
theorem decode_eq_error_iff {w : Word} {chain : Chain} {e : Illegal} :
    decode w chain = .error e ↔ wordLegal w = false ∧ e = illegalReason w := by
  rw [decode_eq_error, topBits_eq_fields 8 20 0x100000 0x1 rfl rfl,
    topBits_eq_fields 0 28 0x20000000 0x2 rfl rfl,
    topBits_eq_fields 16 12 0x3000 0x3 rfl rfl,
    topBits_eq_fields 0 28 0x40000000 0x4 rfl rfl,
    topBits_eq_fields 0 28 0x50000000 0x5 rfl rfl,
    topBits_eq_fields 0 28 0x60000000 0x6 rfl rfl,
    topBits_eq_fields 16 12 0x7000 0x7 rfl rfl,
    topBits_eq_fields 8 20 0x800000 0x8 rfl rfl,
    topBits_eq_fields 24 4 0x90 0x9 rfl rfl,
    topBits_eq_fields 0 28 0xA0000000 0xA rfl rfl,
    topBits_eq_fields 24 4 0xB0 0xB rfl rfl,
    topBits_eq_fields 16 12 0xC000 0xC rfl rfl,
    topBits_eq_fields 0 28 0xD0000000 0xD rfl rfl]
  simp only [← and_assoc, wordLegal, Format.reservedClear]
  refine and_congr_left' ?_
  generalize opField w = op
  generalize (w.extractLsb' 0 28 == 0) = c0
  generalize (w.extractLsb' 8 20 == 0) = c8
  generalize (w.extractLsb' 16 12 == 0) = c16
  generalize (w.extractLsb' 24 4 == 0) = c24
  revert op c0 c8 c16 c24
  decide

/-- R78: a word is named for its opcode exactly when R71 gives that opcode no format. -/
theorem illegalReason_eq_reservedOpcode_iff {w : Word} :
    illegalReason w = .reservedOpcode ↔ formatOf (opField w) = none := by
  unfold illegalReason
  cases formatOf (opField w) <;> simp

/-- R78: a word with no format is illegal. -/
theorem wordLegal_eq_false_of_formatOf_eq_none {w : Word} (hf : formatOf (opField w) = none) : wordLegal w = false := by
  simp only [wordLegal, hf]

/-- R71, R78: an illegal word is named for a reserved bit exactly when its opcode has a format and a reserved bit of
that format is 1. -/
theorem reservedBit_iff_format {w : Word} :
    (wordLegal w = false ∧ .reservedBit = illegalReason w) ↔
      ∃ f, formatOf (opField w) = some f ∧ f.reservedClear w = false := by
  unfold wordLegal illegalReason
  cases formatOf (opField w) <;> simp

/-- R77, R78: the opcodes R71 gives no format. -/
theorem formatOf_eq_none_iff : ∀ op, formatOf op = none ↔ op ∈ [0x0#4, 0xE#4, 0xF#4] := by decide

/-- R71, column "used by". -/
theorem formatOf_eq_some_iff : ∀ op,
    (formatOf op = some .fNone ↔ op ∈ [0x2#4, 0x4#4, 0x5#4, 0x6#4, 0xA#4, 0xD#4]) ∧
      (formatOf op = some .fByte ∨ formatOf op = some .fReg ↔ op ∈ [0x1#4, 0x8#4]) ∧
      (formatOf op = some .fD16 ↔ op ∈ [0x3#4, 0x7#4, 0xC#4]) ∧
      (formatOf op = some .fRegw ∨ formatOf op = some .fCrc ↔ op ∈ [0x9#4, 0xB#4]) := by decide

/-- R71: the reserved bits by their place, for the six formats. -/
theorem reservedBitSet_iff_format {w : Word} :
    Spec.reservedBitSet w ↔ ∃ f, formatOf (opField w) = some f ∧ f.reservedClear w = false := by
  obtain ⟨hnone, hbyte, hd16, hregw⟩ := formatOf_eq_some_iff (opField w)
  unfold Spec.reservedBitSet
  rw [← opField, ← hnone, ← hbyte, ← hd16, ← hregw]
  constructor
  · rintro (⟨hf, hr⟩ | ⟨hf | hf, hr⟩ | ⟨hf, hr⟩ | ⟨hf | hf, hr⟩) <;> exact ⟨_, hf, beq_eq_false_iff_ne.2 hr⟩
  · rintro ⟨f, hf, hr⟩
    cases f with
    | fNone => exact .inl ⟨hf, beq_eq_false_iff_ne.1 hr⟩
    | fByte => exact .inr (.inl ⟨.inl hf, beq_eq_false_iff_ne.1 hr⟩)
    | fReg => exact .inr (.inl ⟨.inr hf, beq_eq_false_iff_ne.1 hr⟩)
    | fD16 => exact .inr (.inr (.inl ⟨hf, beq_eq_false_iff_ne.1 hr⟩))
    | fRegw => exact .inr (.inr (.inr ⟨.inl hf, beq_eq_false_iff_ne.1 hr⟩))
    | fCrc => exact .inr (.inr (.inr ⟨.inr hf, beq_eq_false_iff_ne.1 hr⟩))

/-- R78: a word rejected for its opcode. -/
theorem decode_eq_reservedOpcode_iff {w : Word} {chain : Chain} :
    decode w chain = .error .reservedOpcode ↔ w.extractLsb' 28 4 ∈ [0x0#4, 0xE#4, 0xF#4] := by
  rw [decode_eq_error_iff, eq_comm (a := Illegal.reservedOpcode), illegalReason_eq_reservedOpcode_iff,
    and_iff_right_of_imp wordLegal_eq_false_of_formatOf_eq_none, formatOf_eq_none_iff, opField]

/-- R78: a word rejected for a reserved bit. -/
theorem decode_eq_reservedBit_iff {w : Word} {chain : Chain} :
    decode w chain = .error .reservedBit ↔ Spec.reservedBitSet w := by
  rw [decode_eq_error_iff, reservedBit_iff_format, reservedBitSet_iff_format]

/-- Settles O4: one cause of R78 after the other. -/
theorem illegalWordsRejected : Obligations.IllegalWordsRejected := fun _ _ =>
  ⟨decode_eq_reservedOpcode_iff, decode_eq_reservedBit_iff⟩

/-! ### The place of a chain (O3) -/

/-- R70, R71: a word that decodes has every reserved bit of its format 0. -/
theorem wordLegal_of_decode {w : Word} {chain : Chain} {i : Instr} (hd : decode w chain = .ok i) :
    wordLegal w = true := by
  by_contra h
  have he : decode w chain = .error (illegalReason w) :=
    decode_eq_error_iff.2 ⟨Bool.eq_false_iff.2 h, rfl⟩
  exact absurd (hd.symm.trans he) nofun

/-- R77: a legal word with OP 0x3 is TX_START, with the chain on the port. -/
theorem decode_of_op_txStart {w : Word} {chain : Chain} (hop : opField w = 0x3#4) (hl : wordLegal w = true) :
    decode w chain = .ok (.txStart (field15to0 w) chain) := by
  have hclear : Format.fD16.reservedClear w = true := by simpa [wordLegal, hop, formatOf] using hl
  have hrow : topBits w 16 0x3000 = true := by
    rw [topBits_eq_fields 16 12 0x3000 0x3 rfl rfl, hop]
    simpa [Format.reservedClear] using hclear
  exact decode_eq_ok.2 (.inr (.inr (.inl ⟨hrow, rfl⟩)))

/-- R70, R73: with a chain only where R70 allows one, what is on the port is the chain of the decoded command. -/
theorem encodeChain_eq_of_decode {w : Word} {chain : Chain} {i : Instr} (hp : chainPlaced w chain = true)
    (hd : decode w chain = .ok i) : encodeChain i = chain := by
  by_cases hop : opField w = 0x3#4
  · obtain rfl : i = .txStart (field15to0 w) chain :=
      Except.ok.inj (hd.symm.trans (decode_of_op_txStart hop (wordLegal_of_decode hd)))
    rfl
  · obtain rfl : chain = [] := by simpa [chainPlaced, hop] using hp
    obtain ⟨-, hchain⟩ := decode_eq_ok_iff_encode.1 hd
    cases i with
    | txStart p c => exact hchain p c rfl
    | _ => rfl

/-- Settles O3: the word by `decode_eq_ok_iff_encode`, the chain by its place. -/
theorem encodeOfDecode : Obligations.EncodeOfDecode := by
  intro w chain i hp hd
  obtain ⟨hw, -⟩ := decode_eq_ok_iff_encode.1 hd
  exact ⟨hw.symm, encodeChain_eq_of_decode hp hd⟩

end Sys2Proof

namespace Sys2Proof.Machine

/-! ### An illegal word in a step (O6) -/

/-- R78: a command whose word is rejected is answered RC_ILLEGAL, whatever the reason. -/
theorem runCommand_of_decode_error {c : Command} {e : Illegal} (hd : decode c.word c.chain = .error e) (s : State) :
    runCommand c s = .next (answerIllegal s) := by
  simp only [runCommand, hd]

/-- R74, R75, R78: the answer to an illegal word, as a whole state. -/
theorem answerIllegal_eq (s : State) :
    answerIllegal s = { s with response := some 0xF0000000, txOut := none } := rfl

/-- Settles O6: a word of R78 is rejected, and the step that takes it off the line answers so. -/
theorem stepAnswersIllegalWord : Obligations.StepAnswersIllegalWord := by
  intro s c rest hs hp hw
  obtain ⟨e, he⟩ : ∃ e, decode c.word c.chain = .error e :=
    hw.elim (fun h => ⟨_, decode_eq_reservedOpcode_iff.2 h⟩) (fun h => ⟨_, decode_eq_reservedBit_iff.2 h⟩)
  rw [step_of_pending_cons hs hp, runCommand_of_decode_error he, answerIllegal_eq]

/-! ### The escape functions (O15) -/

/-- R83, with the bytes of R82 as numbers. -/
theorem escapeByte_eq (b : Byte) : escapeByte b = if b = 0x7E ∨ b = 0x7D then [0x7D, b ^^^ 0x20] else [b] := by
  simp only [escapeByte, needsEscape_iff]
  rfl

/-- R83: a byte that is neither a flag nor an escape byte stands for itself. -/
theorem escapeByte_of_not_needsEscape {b : Byte} (h : needsEscape b = false) : escapeByte b = [b] := by
  simp [escapeByte, h]

theorem escapeByte_of_needsEscape {b : Byte} (h : needsEscape b = true) : escapeByte b = [escByte, b ^^^ escXor] := by
  simp [escapeByte, h]

theorem needsEscape_eq_false_iff (b : Byte) : needsEscape b = false ↔ b ≠ 0x7E ∧ b ≠ 0x7D := by
  rw [← not_or, ← needsEscape_iff, Bool.not_eq_true]

/-- R84, third clause: a byte other than 0x7D is kept. -/
theorem unescape_cons_of_ne {c : Byte} (h : c ≠ escByte) (s : List Byte) : unescape (c :: s) = c :: unescape s := by
  cases s with
  | nil => exact if_neg h
  | cons d s => exact if_neg h

/-- R83, R84: unescaping takes the raw bytes of one field byte back to it. -/
theorem unescape_escapeByte_append (b : Byte) (s : List Byte) : unescape (escapeByte b ++ s) = b :: unescape s := by
  cases hb : needsEscape b with
  | true => simp [escapeByte_of_needsEscape hb, unescape]
  | false =>
    rw [escapeByte_of_not_needsEscape hb]
    exact unescape_cons_of_ne ((needsEscape_eq_false_iff b).1 hb).2 s

theorem unescape_escape (s : List Byte) : unescape (escape s) = s := by
  induction s with
  | nil => rfl
  | cons b s ih => rw [escape, unescape_escapeByte_append, ih]

/-- R84: a sequence with no byte to escape is left as it is. -/
theorem escape_eq_self {s : List Byte} (h : ∀ b ∈ s, b ≠ 0x7E ∧ b ≠ 0x7D) : escape s = s := by
  induction s with
  | nil => rfl
  | cons b s ih =>
    rw [List.forall_mem_cons] at h
    rw [escape, escapeByte_of_not_needsEscape ((needsEscape_eq_false_iff b).2 h.1), ih h.2, List.singleton_append]

/-- Settles O15: the equations are those of the definitions, the two properties are inductions on the sequence. -/
theorem unescapeUndoesEscape : Obligations.UnescapeUndoesEscape :=
  ⟨rfl, rfl, fun b s => by rw [escape, escapeByte_eq], fun _ _ => rfl, fun _ s hc => unescape_cons_of_ne hc s,
    fun s => ⟨unescape_escape s, escape_eq_self⟩⟩

/-! ### The shape of a frame (O16) -/

/-- R83: no raw byte of a field byte is a flag. -/
theorem ne_flag_of_mem_escapeByte {b c : Byte} (hc : c ∈ escapeByte b) : c ≠ 0x7E := by
  cases hb : needsEscape b with
  | true =>
    rw [escapeByte_of_needsEscape hb, List.mem_pair] at hc
    obtain rfl | rfl := hc
    · decide
    · exact (xor_escXor_ne hb).1
  | false =>
    rw [escapeByte_of_not_needsEscape hb, List.mem_singleton] at hc
    exact hc ▸ ((needsEscape_eq_false_iff b).1 hb).1

theorem ne_flag_of_mem_escape {c : Byte} {s : List Byte} (hc : c ∈ escape s) : c ≠ 0x7E := by
  induction s with
  | nil => cases hc
  | cons b s ih =>
    rw [escape, List.mem_append] at hc
    exact hc.elim ne_flag_of_mem_escapeByte ih

/-- R83: escaping adds one raw byte for each byte escaped. -/
theorem length_escape (s : List Byte) : (escape s).length = s.length + (s.filter needsEscape).length := by
  induction s with
  | nil => rfl
  | cons b s ih =>
    cases hb : needsEscape b with
    | true => simp [escape, escapeByte_of_needsEscape hb, hb, ih]; omega
    | false => simp [escape, escapeByte_of_not_needsEscape hb, hb, ih]; omega

/-- R85, R108: a frame's body is four header bytes, the payload and two FCS bytes. -/
theorem length_frameBody_append_fcs (p : U16) (payload : List Byte) :
    (frameBody p payload ++ frameFcsBytes p payload).length = 6 + payload.length := by
  simp [frameBody, fcsHeader, frameFcsBytes]
  omega

/-- R173: two flags, the six bytes about the payload, the payload, and one more byte for each byte escaped. -/
theorem length_encodeFrame (p : U16) (payload : List Byte) :
    (encodeFrame p payload).length = 8 + payload.length + escapedCount p payload := by
  rw [encodeFrame, List.length_append, List.length_append, length_escape, length_frameBody_append_fcs, escapedCount,
    List.length_singleton]
  omega

/-- Settles O16: between the flags stands an escaped sequence, which holds no flag. -/
theorem encodedFrameShape : Obligations.EncodedFrameShape := fun p payload =>
  ⟨⟨escape (frameBody p payload ++ frameFcsBytes p payload), rfl, fun _ => ne_flag_of_mem_escape⟩,
    length_encodeFrame p payload⟩

end Sys2Proof.Machine

namespace Sys2Proof.Machine

/-! ### The CRC commands (O9, O10, O11) and the printed table (O12) -/

/-- R74: a reply of RC_OK with no code is the answer the statements speak of. -/
theorem reply_ok_eq_answered (s : State) (data : U16) : reply s .ok 0 data = Spec.answered s data := by
  rw [reply, respond_ok, Spec.answered]

theorem exec_crcSeed (s : State) : exec .crcSeed s = .next (Spec.answered s fcsSeed) := by
  rw [exec, execCrcSeed, reply_ok_eq_answered]

theorem exec_crcUpdate (c : U16) (b : Byte) (s : State) :
    exec (.crcUpdate c b) s = .next (Spec.answered s (crcUpdate c b)) := by
  rw [exec, execCrcUpdate, reply_ok_eq_answered]

theorem exec_crcFinal (c : U16) (s : State) : exec (.crcFinal c) s = .next (Spec.answered s (crcFinal c)) := by
  rw [exec, execCrcFinal, reply_ok_eq_answered]

/-- R103: complementing twice gives the value back. -/
@[simp] theorem crcFinal_crcFinal (c : U16) : crcFinal (crcFinal c) = c := by
  rw [crcFinal, crcFinal, BitVec.xor_assoc, BitVec.xor_self, BitVec.xor_zero]

/-- R102: masking with 0xFF takes the low byte. -/
theorem toNat_and_low_mask (v : U16) : (v &&& 0x00FF).toNat = (loByte v).toNat := by
  rw [BitVec.toNat_and, loByte, BitVec.extractLsb'_toNat, Nat.shiftRight_zero]
  exact Nat.and_two_pow_sub_one_eq_mod v.toNat 8

/-- R101: the printed rows, in order, are the entries the generation rule gives for 0 to 255. -/
theorem fcsPrintedTable_eq_map :
    fcsPrintedTable = (List.range 256).map (fun n => fcsTable (BitVec.ofNat 8 n)) := by decide +kernel

theorem fcsPrintedTable_getElem? (i : Byte) : fcsPrintedTable[i.toNat]? = some (fcsTable i) := by
  rw [fcsPrintedTable_eq_map, List.getElem?_map, List.getElem?_range i.isLt, Option.map_some, BitVec.ofNat_toNat,
    BitVec.setWidth_eq]

/-- Settles O9: the reply carries the seed. -/
theorem crcSeedResult : Obligations.CrcSeedResult := exec_crcSeed

/-- Settles O10: the entry looked up is the one the generation rule gives for the low byte of `c ^ b`. -/
theorem crcUpdateFollowsPrintedTable : Obligations.CrcUpdateFollowsPrintedTable := by
  intro c b s
  refine ⟨fcsTable (loByte (c ^^^ zext16 b)), ?_, exec_crcUpdate c b s⟩
  rw [toNat_and_low_mask]
  exact fcsPrintedTable_getElem? _

/-- Settles O11: the second complement undoes the first. -/
theorem crcFinalResult : Obligations.CrcFinalResult := by
  intro c s
  refine ⟨exec_crcFinal c s, ?_⟩
  calc exec (.crcFinal (crcFinal c)) s = .next (Spec.answered s (crcFinal (crcFinal c))) := exec_crcFinal _ s
    _ = .next (Spec.answered s c) := by rw [crcFinal_crcFinal]

/-- Settles O12: the length and the entries are those of the list the generation rule gives. -/
theorem printedTableFollowsPolynomial : Obligations.PrintedTableFollowsPolynomial :=
  ⟨by rw [fcsPrintedTable_eq_map, List.length_map, List.length_range], fcsPrintedTable_getElem?⟩

/-! ### The frame check and its residue (O13, O14) -/

/-- R109: the check of a payload and the two bytes that follow it. -/
theorem fcsOk_append_pair (p : U16) (payload : List Byte) (lo hi : Byte) :
    fcsOk p (payload ++ [lo, hi]) = true ↔ fcs16 (fcsHeader p ++ payload) = joinBytes hi lo := by
  have hlen : (payload ++ [lo, hi]).length - 2 = payload.length := by simp
  rw [fcsOk, hlen, List.drop_left, List.take_left]
  exact beq_iff_eq

/-- R109: a sequence of at least two bytes is a payload and two bytes that follow it. -/
theorem exists_eq_append_pair {d : List Byte} (hd : 2 ≤ d.length) : ∃ payload lo hi, d = payload ++ [lo, hi] := by
  obtain ⟨lo, hi, hdrop⟩ : ∃ lo hi, d.drop (d.length - 2) = [lo, hi] :=
    List.length_eq_two.1 (by rw [List.length_drop]; omega)
  exact ⟨d.take (d.length - 2), lo, hi, by rw [← hdrop, List.take_append_drop]⟩

/-- `n + m` steps of the division are `n` steps, then `m`. -/
theorem fcsShifts_add (n m : Nat) (t : U16) : fcsShifts (n + m) t = fcsShifts m (fcsShifts n t) := by
  induction n generalizing t with
  | zero => rw [Nat.zero_add, fcsShifts]
  | succ n ih => rw [Nat.succ_add, fcsShifts, ih, fcsShifts]

/-- R101: a step puts the bit that it shifts out in the top bit, because bit 15 of 0x8408 is 1. -/
theorem getLsbD_fcsShift_top (t : U16) : (fcsShift t).getLsbD 15 = t.getLsbD 0 := by
  rw [fcsShift, BitVec.getLsbD_xor, BitVec.getLsbD_ushiftRight, BitVec.getLsbD_of_ge t (1 + 15) (by decide)]
  cases t.getLsbD 0 <;> rfl

/-- A step of the division sends only 0 to 0: the bit shifted out is 0, and so is what is left. -/
theorem eq_zero_of_fcsShift_eq_zero {t : U16} (h : fcsShift t = 0) : t = 0 := by
  have hbit : t.getLsbD 0 = false := by rw [← getLsbD_fcsShift_top, h]; rfl
  have hrest : t >>> 1 = 0 := by
    rw [fcsShift, hbit, if_neg Bool.false_ne_true] at h
    exact BitVec.xor_zero.symm.trans h
  apply BitVec.eq_of_getLsbD_eq
  intro i _
  cases i with
  | zero => exact hbit
  | succ i =>
    calc t.getLsbD (i + 1) = (t >>> 1).getLsbD i := by rw [BitVec.getLsbD_ushiftRight, Nat.add_comm]
      _ = (0 : U16).getLsbD (i + 1) := by rw [hrest]; simp

/-- The division is linear and sends only 0 to 0, so no two values share a result. -/
theorem fcsShift_injective : Function.Injective fcsShift := by
  intro a b h
  have hker : fcsShift (a ^^^ b) = 0 := by rw [fcsShift_xor, h]; exact BitVec.xor_self
  exact BitVec.xor_eq_zero_iff.1 (eq_zero_of_fcsShift_eq_zero hker)

theorem fcsShifts_injective (n : Nat) : Function.Injective (fcsShifts n) := by
  induction n with
  | zero => exact Function.injective_id
  | succ n ih => exact ih.comp fcsShift_injective

/-- Two bytes fed low byte first are sixteen steps of the division on the accumulator and the 16-bit value they form:
the high byte may be added eight steps earlier, above the low one. -/
theorem crcFold_pair (c : U16) (lo hi : Byte) :
    crcFold c [lo, hi] = fcsShifts 16 (c ^^^ joinBytes hi lo) := by
  have hjoin : joinBytes hi lo = zext16 lo ^^^ (hi ++ 0#8 : U16) := by
    simpa [joinBytes] using eq_halves (hi ++ lo)
  calc crcFold c [lo, hi] = fcsShifts 8 (fcsShifts 8 (c ^^^ zext16 lo) ^^^ zext16 hi) := by
        simp only [crcFold, crcUpdate_eq_bitSerial, crcUpdateBitSerial]
    _ = fcsShifts 8 (fcsShifts 8 (c ^^^ joinBytes hi lo)) := by
        rw [← fcsShifts_high hi, ← fcsShifts_xor, hjoin, BitVec.xor_assoc]
    _ = fcsShifts 16 (c ^^^ joinBytes hi lo) := (fcsShifts_add 8 8 _).symm

/-- G3: the residue is what sixteen steps make of the complement mask. -/
theorem fcsShifts_mask : fcsShifts 16 0xFFFF = 0xF0B8 := by decide

theorem xor_eq_of_xor_eq {a b c : U16} (h : a ^^^ b = c) : a ^^^ c = b := by
  rw [← h, ← BitVec.xor_assoc, BitVec.xor_self, BitVec.zero_xor]

/-- R110 (b): the accumulator and the two bytes after it give the residue exactly when the bytes are its complement. -/
theorem crcFold_pair_eq_residue (c : U16) (lo hi : Byte) :
    crcFold c [lo, hi] = 0xF0B8 ↔ crcFinal c = joinBytes hi lo := by
  rw [crcFold_pair, ← fcsShifts_mask, (fcsShifts_injective 16).eq_iff, crcFinal]
  exact ⟨xor_eq_of_xor_eq, xor_eq_of_xor_eq⟩

/-- Settles O13: the check compares the last two bytes with the complement of the fold before them. -/
theorem fcsCheckIsResidue : Obligations.FcsCheckIsResidue := by
  intro p d hd
  obtain ⟨payload, lo, hi, rfl⟩ := exists_eq_append_pair hd
  rw [fcsOk_append_pair, ← List.append_assoc, crcFold_append, crcFold_pair_eq_residue]
  rfl

/-- Settles O14: `fcs16` is the complemented fold from the seed. -/
theorem fcsCheckIsLittleEndian : Obligations.FcsCheckIsLittleEndian := fcsOk_append_pair

end Sys2Proof.Machine

namespace Sys2Proof.Machine

/-! ### One receiver step, as the command answers it -/

theorem exec_rxByte {b : Byte} {s u : State} {ev : RxEvent} (h : rxByte b s = .ok (u, ev)) :
    exec (.rxByte b) s = .next (reply u .ok ev.code ev.data) := by
  rw [exec, execRxByte, h]

/-- R120, R122: a raw 0x7E does what a flag does with the latch cleared. -/
theorem exec_rxByte_flag {s u : State} {ev : RxEvent} (h : onFlag { s with rx.esc := false } = .ok (u, ev)) :
    exec (.rxByte 0x7E) s = .next (reply u .ok ev.code ev.data) :=
  exec_rxByte ((rxByte_flag s).trans h)

/-- R120, R121: a raw byte other than 0x7E and 0x7D does what its field byte does with the latch cleared. -/
theorem exec_rxByte_field {b : Byte} {s u : State} {ev : RxEvent} (hflag : b ≠ 0x7E) (hesc : b ≠ 0x7D)
    (h : onField (Spec.fieldByte s b) { s with rx.esc := false } = .ok (u, ev)) :
    exec (.rxByte b) s = .next (reply u .ok ev.code ev.data) :=
  exec_rxByte ((rxByte_field s hflag hesc).trans h)

/-- R137: a commit and its answer are the committed state the statements speak of. -/
theorem reply_commit (n : U16) (s : State) :
    reply (commit n s) .ok (RxEvent.commit s.ring.wr).code (RxEvent.commit s.ring.wr).data =
      Spec.committed { s with txOut := none } n := by
  rw [reply, respond_commit]; rfl

/-- Which bytes a slot holds depends on the parameters and slot memory alone. -/
theorem slotBytes_of_same_memory {s t : State} {i k n : Nat} {d : List Byte} (hd : slotBytes i s k n = .ok d)
    (hc : t.cfg = s.cfg) (hm : t.slotMem = s.slotMem) : slotBytes i t k n = .ok d := by
  rw [← hd]
  refine slotBytes_congr fun j _ => ?_
  rw [slotRead, slotRead, slotExists, slotExists, hc, hm]

theorem qFull_eq_false_iff (s : State) : qFull s = false ↔ ¬ Spec.full s := by
  rw [Spec.full, ← qFull_iff, Bool.not_eq_true]

/-! ### The receiver, state by state -/

section ByState

variable {s v : State} {f : Byte}

/-- R122: outside DATA a flag moves to ADDR; inside a header or an explicit FCS it aborts a frame. -/
theorem onFlag_between (h : s.rx.state = .hunt ∨ s.rx.state = .addr) :
    onFlag s = .ok ({ s with rx.state := .addr }, .none) := by
  obtain h | h := h <;> rw [onFlag, h]

theorem onFlag_abort (h : s.rx.state ∈ [RxState.ctrl, .protoHi, .protoLo, .fcsLo, .fcsHi]) :
    onFlag s = .ok ({ s with rx.state := .addr }, .abort) := by
  simp only [List.mem_cons, List.not_mem_nil, or_false] at h
  obtain h | h | h | h | h := h <;> rw [onFlag, h]

theorem onFlag_data (h : s.rx.state = .data) : onFlag s = finalize s.rx.count { s with rx.state := .addr } := by
  rw [onFlag, h]

theorem onField_hunt (h : s.rx.state = .hunt) : onField f s = .ok (s, .none) := by
  rw [onField, h]

theorem onField_addr (h : s.rx.state = .addr) (hf : f = 0xFF) :
    onField f s = .ok ({ s with rx.state := .ctrl }, .none) := by
  rw [onField, h]; exact if_pos hf

theorem onField_ctrl (h : s.rx.state = .ctrl) (hf : f = 0x03) :
    onField f s = .ok ({ s with rx.state := .protoHi }, .none) := by
  rw [onField, h]; exact if_pos hf

theorem onField_desync (h : (s.rx.state = .addr ∧ f ≠ 0xFF) ∨ (s.rx.state = .ctrl ∧ f ≠ 0x03)) :
    onField f s = .ok ({ s with rx.state := .hunt }, .desync) := by
  obtain ⟨h, hf⟩ | ⟨h, hf⟩ := h <;> rw [onField, h] <;> exact if_neg hf

theorem onField_protoHi (h : s.rx.state = .protoHi) :
    onField f s = .ok ({ s with rx.proto := joinBytes f (loByte s.rx.proto), rx.state := .protoLo }, .none) := by
  rw [onField, h]

theorem onField_protoLo (h : s.rx.state = .protoLo) :
    onField f s = .ok (startDataPhase { s with rx.proto := joinBytes (hiByte s.rx.proto) f }, .none) := by
  rw [onField, h]

theorem onField_data (h : s.rx.state = .data) (hv : rxStore f s = .ok v) :
    onField f s = .ok ({ v with rx.state := if v.rx.count = v.rx.limit then .fcsLo else .data }, .none) := by
  rw [onField, h]; dsimp only; rw [hv]

theorem onField_fcsLo (h : s.rx.state = .fcsLo) (hv : rxStore f s = .ok v) :
    onField f s = .ok ({ v with rx.state := .fcsHi }, .none) := by
  rw [onField, h]; dsimp only; rw [hv]

theorem onField_fcsHi (h : s.rx.state = .fcsHi) (hv : rxStore f s = .ok v) :
    onField f s = finalize v.rx.count { v with rx.state := .hunt } := by
  rw [onField, h]; dsimp only; rw [hv]

end ByState

/-- R133: no end of a frame writes a register of the receiver. -/
theorem finalize_rx {n : U16} {s t : State} {ev : RxEvent} (h : finalize n s = .ok (t, ev)) : t.rx = s.rx := by
  obtain ⟨-, rfl, -⟩ | ⟨-, -, rfl, -⟩ | ⟨-, -, -, d, -, ⟨-, rfl, -⟩ | ⟨-, rfl, -⟩⟩ := finalize_cases h <;> rfl

/-! ### Flags, header and protocol bytes (O28 to O31) -/

/-- Settles O28: 0x7D is the escape byte, tested before the state is looked at. -/
theorem rxEscapeSetsLatch : Obligations.RxEscapeSetsLatch := fun s => exec_rxByte (rxByte_escape s)

/-- Settles O29: a flag by the state it finds; in DATA the end of the frame keeps the receiver's registers. -/
theorem rxFlagResynchronizes : Obligations.RxFlagResynchronizes := by
  intro s
  refine ⟨fun h => exec_rxByte_flag (onFlag_between h), fun h => exec_rxByte_flag (onFlag_abort h), fun t h ht => ?_⟩
  obtain ⟨u, ev, hu, rfl⟩ := execRxByte_next ht
  have hend := onFlag_data (s := { s with rx.esc := false }) h
  exact finalize_rx (hend.symm.trans hu)

/-- Settles O30: the field byte in HUNT, ADDR and CTRL. -/
theorem rxHuntAddressControl : Obligations.RxHuntAddressControl := fun _ _ hflag hesc =>
  ⟨fun h => exec_rxByte_field hflag hesc (onField_hunt h),
    fun h hf => exec_rxByte_field hflag hesc (onField_addr h hf),
    fun h hf => exec_rxByte_field hflag hesc (onField_ctrl h hf),
    fun h => exec_rxByte_field hflag hesc (onField_desync h)⟩

/-- Settles O31: the field byte in PROTO_HI and PROTO_LO. -/
theorem rxProtocolBytes : Obligations.RxProtocolBytes := fun _ _ hflag hesc =>
  ⟨fun h => exec_rxByte_field hflag hesc (onField_protoHi h), fun h => exec_rxByte_field hflag hesc (onField_protoLo h)⟩

/-! ### The data phase and the end of a frame (O32 to O36) -/

/-- A write changes the one byte. -/
theorem storesOne_write (m : Memory) (i k : Nat) (b : Byte) :
    Spec.storesOne m (m.write (slotAddr i k) b) i k b :=
  ⟨m.read_write_same _ b, fun _ h => m.read_write_other b h⟩

/-- R131: `s` with a data-phase byte stored at `rx_count` of the fill slot, and counted. -/
def State.withByte (s : State) (f : Byte) : State :=
  { s with
    slotMem := s.slotMem.write (slotAddr s.ring.wr.toNat s.rx.count.toNat) f
    rx.count := s.rx.count + 1 }

/-- R50: with room for the next byte, its place in the fill slot exists. -/
theorem slotExists_of_roomForByte {s : State} (h : Spec.roomForByte s) :
    slotExists s s.ring.wr.toNat s.rx.count.toNat = true :=
  (slotExists_iff _ _ _).2 h

/-- R6, R138: the count of a byte that has room does not wrap. -/
theorem count_succ_of_roomForByte {s : State} (hw : s.cfg.wellFormed = true) (h : Spec.roomForByte s) :
    (s.rx.count + 1).toNat = s.rx.count.toNat + 1 := by
  have hM := Config.mtuMax_le hw
  have hlt := h.2
  exact succ_toNat _ (by omega)

/-- R131: with a slot free and room for it, a data-phase byte is stored. -/
theorem rxStore_withByte {s : State} (f : Byte) (hq : ¬ Spec.full s) (hroom : Spec.roomForByte s) :
    rxStore f s = .ok (s.withByte f) :=
  rxStore_free ((qFull_eq_false_iff s).2 hq) (slotExists_of_roomForByte hroom)

/-- The byte stored follows those stored before it. -/
theorem slotBytes_withByte {s : State} {d : List Byte} (f : Byte) (hw : s.cfg.wellFormed = true)
    (hroom : Spec.roomForByte s) (hd : slotBytes s.ring.wr.toNat s 0 s.rx.count.toNat = .ok d) :
    slotBytes s.ring.wr.toNat (s.withByte f) 0 (s.rx.count + 1).toNat = .ok (d ++ [f]) := by
  rw [count_succ_of_roomForByte hw hroom]
  exact slotBytes_write (s := s) rfl hw (slotExists_of_roomForByte hroom) rfl hd

/-- Settles O32: the store is that of R131, in either state. -/
theorem rxStoresFieldByte : Obligations.RxStoresFieldByte := by
  intro b s hflag hesc
  refine ⟨fun hq hroom => ⟨_, storesOne_write _ _ _ _, ?_⟩, fun hq => ?_⟩
  · have hs := rxStore_withByte (s := { s with rx.esc := false }) (Spec.fieldByte s b) hq hroom
    exact ⟨fun h => exec_rxByte_field hflag hesc (onField_data h hs),
      fun h => exec_rxByte_field hflag hesc (onField_fcsLo h hs)⟩
  · have hs := rxStore_full (s := { s with rx.esc := false }) (f := Spec.fieldByte s b) ((qFull_iff s).2 hq)
    exact ⟨fun h => exec_rxByte_field hflag hesc (onField_data h hs),
      fun h => exec_rxByte_field hflag hesc (onField_fcsLo h hs)⟩

section FrameEnd

variable {s : State} {d : List Byte}

/-- R132, R136, R137: the closing flag of a frame not lost checks the bytes stored. -/
theorem onFlag_checked (h : s.rx.state = .data) (hcount : 2 ≤ s.rx.count.toNat) (hdrop : s.rx.drop = false)
    (hq : ¬ Spec.full s) (hd : slotBytes s.ring.wr.toNat s 0 s.rx.count.toNat = .ok d) :
    onFlag s = if fcsOk s.rx.proto d then
        .ok (commit s.rx.count { s with rx.state := .addr }, .commit s.ring.wr)
      else .ok ({ s with rx.state := .addr }, .fcsErr) :=
  (onFlag_data h).trans
    (finalize_checked hcount hdrop ((qFull_eq_false_iff s).2 hq) (slotBytes_of_same_memory hd rfl rfl))

/-- R130, R136, R137: the explicit FCS-high byte of a frame not lost is stored after the bytes `d` before it, and they
are all checked. -/
theorem onField_checked {f : Byte} (hw : s.cfg.wellFormed = true) (h : s.rx.state = .fcsHi)
    (hcount : 1 ≤ s.rx.count.toNat) (hdrop : s.rx.drop = false) (hq : ¬ Spec.full s) (hroom : Spec.roomForByte s)
    (hd : slotBytes s.ring.wr.toNat s 0 s.rx.count.toNat = .ok d) :
    onField f s = if fcsOk s.rx.proto (d ++ [f]) then
        .ok (commit (s.rx.count + 1) { s.withByte f with rx.state := .hunt }, .commit s.ring.wr)
      else .ok ({ s.withByte f with rx.state := .hunt }, .fcsErr) := by
  have h2 : 2 ≤ (s.rx.count + 1).toNat := by rw [count_succ_of_roomForByte hw hroom]; omega
  exact (onField_fcsHi h (rxStore_withByte f hq hroom)).trans
    (finalize_checked h2 hdrop ((qFull_eq_false_iff s).2 hq)
      (slotBytes_of_same_memory (slotBytes_withByte f hw hroom hd) rfl rfl))

end FrameEnd

/-- Settles O33: the byte is stored after the `d` stored before it, and the end of the frame checks them all. -/
theorem rxExplicitFcsEndsFrame : Obligations.RxExplicitFcsEndsFrame := by
  intro b s d hflag hesc hw hst hcount hdrop hq hroom hd
  have hend := onField_checked (s := { s with rx.esc := false }) (f := Spec.fieldByte s b) hw hst hcount hdrop hq hroom
    (slotBytes_of_same_memory hd rfl rfl)
  refine ⟨_, storesOne_write _ _ _ _, fun hok => ?_, fun hok => ?_⟩
  · rw [exec_rxByte_field hflag hesc (hend.trans (if_pos hok))]
    exact congrArg _ (reply_commit _ _)
  · exact exec_rxByte_field hflag hesc (hend.trans (if_neg (by simp [hok])))

/-- Settles O34: in DATA a flag ends the frame, and fewer than two bytes are a runt. -/
theorem rxRuntDiscarded : Obligations.RxRuntDiscarded := fun s h hcount =>
  exec_rxByte_flag ((onFlag_data (s := { s with rx.esc := false }) h).trans (finalize_runt hcount))

/-- Settles O35: the end of a frame looks at `rx_drop` and the ring before the FCS, on both paths. -/
theorem rxOverflowCounted : Obligations.RxOverflowCounted := by
  refine ⟨fun s h hcount hlost => ?_, fun b s hflag hesc h hcount hlt hfull => ?_,
    fun b s hflag hesc hw h hcount hdrop hq hroom => ⟨_, storesOne_write _ _ _ _, ?_⟩⟩
  · have hend := onFlag_data (s := { s with rx.esc := false }) h
    exact exec_rxByte_flag (hend.trans (finalize_overflow hcount (hlost.imp_right (qFull_iff s).2)))
  · have h2 : 2 ≤ (s.rx.count + 1).toNat := by rw [succ_toNat _ (by omega)]; omega
    have hs := rxStore_full (s := { s with rx.esc := false }) (f := Spec.fieldByte s b) ((qFull_iff s).2 hfull)
    exact exec_rxByte_field hflag hesc
      ((onField_fcsHi (s := { s with rx.esc := false }) h hs).trans (finalize_overflow h2 (.inl rfl)))
  · have h2 : 2 ≤ (s.rx.count + 1).toNat := by rw [count_succ_of_roomForByte hw hroom]; omega
    have hs := rxStore_withByte (s := { s with rx.esc := false }) (Spec.fieldByte s b) hq hroom
    exact exec_rxByte_field hflag hesc
      ((onField_fcsHi (s := { s with rx.esc := false }) h hs).trans (finalize_overflow h2 (.inl hdrop)))

/-- Settles O36: in DATA a flag ends the frame, and the end of a frame not lost is the check of its bytes. -/
theorem rxClosingFlagChecksFcs : Obligations.RxClosingFlagChecksFcs := by
  intro s d h hcount hdrop hq hd
  have hend := onFlag_checked (s := { s with rx.esc := false }) h hcount hdrop hq
    (slotBytes_of_same_memory hd rfl rfl)
  refine ⟨fun hok => ?_, fun hok => ?_⟩
  · rw [exec_rxByte_flag (hend.trans (if_pos hok))]
    exact congrArg _ (reply_commit _ _)
  · exact exec_rxByte_flag (hend.trans (if_neg (by simp [hok])))

end Sys2Proof.Machine

namespace Sys2Proof.Machine

/-! ### Runs of raw bytes -/

/-- A run of one raw byte. -/
theorem runAll_rxByte {b : Byte} {s u : State} {ev : RxEvent} (h : rxByte b s = .ok (u, ev)) :
    runAll (rxStream [b]) s = some (reply u .ok ev.code ev.data, []) := by
  simp only [rxStream, List.map_cons, List.map_nil, runAll, exec_rxByte h]
  rfl

theorem State.clearEsc_eq {s : State} (h : s.rx.esc = false) : ({ s with rx.esc := false } : State) = s := by
  rw [← h]

theorem rxByte_flag_of_clear {s : State} (h : s.rx.esc = false) : rxByte 0x7E s = onFlag s := by
  rw [rxByte_flag, State.clearEsc_eq h]

/-- R83, R121: with the latch clear, the raw bytes of one field byte, one or two, do what the field byte does. -/
theorem runAll_escapeByte {f : Byte} {s u : State} {ev : RxEvent} (hesc : s.rx.esc = false)
    (hf : onField f s = .ok (u, ev)) :
    runAll (rxStream (escapeByte f)) s = some (reply u .ok ev.code ev.data, []) := by
  cases hn : needsEscape f with
  | false =>
    obtain ⟨hne, hne'⟩ := (needsEscape_eq_false_iff f).1 hn
    rw [escapeByte_of_not_needsEscape hn]
    refine runAll_rxByte ((rxByte_field s hne hne').trans ?_)
    rw [hesc, State.clearEsc_eq hesc]
    exact hf
  | true =>
    obtain ⟨hne, hne'⟩ := xor_escXor_ne hn
    have htx : u.tx = s.tx := by
      have hframe := onField_frame hf
      unfold RxFrame at hframe
      rw [hframe]
    have hlatched : rxByte (f ^^^ escXor) (reply { s with rx.esc := true } .ok 0 0) =
        .ok (u.withTxPart s.tx (some 0x00000000) none, ev) := by
      calc rxByte (f ^^^ escXor) (reply { s with rx.esc := true } .ok 0 0)
          = onField (f ^^^ escXor ^^^ escXor)
              (({ s with rx.esc := false } : State).withTxPart s.tx (some 0x00000000) none) := rxByte_field _ hne hne'
        _ = onField f (s.withTxPart s.tx (some 0x00000000) none) := by rw [xor_escXor, State.clearEsc_eq hesc]
        _ = .ok (u.withTxPart s.tx (some 0x00000000) none, ev) := by rw [onField_withTxPart, hf]; rfl
    have hrun := runAll_append_eq (runAll_rxByte (rxByte_escape s)) (runAll_rxByte hlatched)
    rw [escapeByte_of_needsEscape hn]
    rw [State.withTxPart, ← htx] at hrun
    exact hrun

/-! ### A frame as it comes in -/

/-- `s` with the receiver's registers and slot memory replaced, after a step answered EV_NONE: every state the receiver
passes through from the opening flag to the byte before the end of the frame. -/
def State.receiving (s : State) (r : Receiver) (m : Memory) : State :=
  { s with rx := r, slotMem := m, response := some 0x00000000, txOut := none }

/-- R85, R121: one more field byte of a frame, then the rest. -/
theorem runAll_escape_cons {s t : State} {r r' : Receiver} {m m' : Memory} {f : Byte} {fs : List Byte}
    (hesc : r.esc = false) (hf : onField f (s.receiving r m) = .ok (s.receiving r' m', .none))
    (ht : runAll (rxStream (escape fs)) (s.receiving r' m') = some (t, [])) :
    runAll (rxStream (escape (f :: fs))) (s.receiving r m) = some (t, []) := by
  rw [escape, rxStream_append]
  exact runAll_append_eq (runAll_escapeByte (s := s.receiving r m) hesc hf) ht

/-- R23, R128, R129: the state of the data phase after `n` bytes. -/
def dataState (limit n : Nat) : RxState :=
  if n < limit then .data else if n = limit then .fcsLo else .fcsHi

theorem dataState_of_lt {limit n : Nat} (h : n < limit) : dataState limit n = .data := if_pos h

theorem dataState_limit (limit : Nat) : dataState limit limit = .fcsLo := by simp [dataState]

theorem dataState_limit_succ (limit : Nat) : dataState limit (limit + 1) = .fcsHi := by simp [dataState]

/-- R128, R129: up to the FCS-low byte, a stored byte moves the receiver on as its count says. -/
theorem onField_dataState {f : Byte} {s v : State} (hst : s.rx.state = dataState s.rx.limit.toNat s.rx.count.toNat)
    (hle : s.rx.count.toNat ≤ s.rx.limit.toNat) (hv : rxStore f s = .ok v) (hlimit : v.rx.limit = s.rx.limit)
    (hcount : v.rx.count.toNat = s.rx.count.toNat + 1) :
    onField f s = .ok ({ v with rx.state := dataState s.rx.limit.toNat v.rx.count.toNat }, .none) := by
  obtain hlt | heq := Nat.lt_or_eq_of_le hle
  · have hnext : (if v.rx.count = v.rx.limit then RxState.fcsLo else .data) =
        dataState s.rx.limit.toNat v.rx.count.toNat := by
      by_cases he : v.rx.count = v.rx.limit
      · rw [if_pos he, he, hlimit, dataState_limit]
      · have hne : v.rx.count.toNat ≠ s.rx.limit.toNat := fun e => he (hlimit ▸ BitVec.eq_of_toNat_eq e)
        rw [if_neg he, dataState_of_lt (by omega)]
    rw [onField_data (hst.trans (dataState_of_lt hlt)) hv, hnext]
  · rw [onField_fcsLo (by rw [hst, heq, dataState_limit]) hv, hcount, heq, dataState_limit_succ]

/-- Slot memory `m'` is `m` but for the first `n` bytes of slot `i`. -/
def SameButFirst (i n : Nat) (m m' : Memory) : Prop :=
  ∀ a, (∀ k < n, a ≠ slotAddr i k) → m'.read a = m.read a

theorem SameButFirst.mono {i n n' : Nat} {m m' : Memory} (h : SameButFirst i n m m') (hn : n ≤ n') :
    SameButFirst i n' m m' :=
  fun a ha => h a fun k hk => ha k (by omega)

theorem SameButFirst.write {i n : Nat} {m m' : Memory} (h : SameButFirst i n m m') (f : Byte) :
    SameButFirst i (n + 1) m (m'.write (slotAddr i n) f) := fun a ha =>
  (m'.read_write_other f (ha n (by omega))).trans (h.mono (by omega) a ha)

/-- R127 to R131: `r` and `m` are what the data phase of a frame of protocol `p`, received from `s`, has made of the
receiver and of slot memory when its bytes so far are `d`. -/
structure FrameSoFar (p : U16) (d : List Byte) (s : State) (r : Receiver) (m : Memory) : Prop where
  state : r.state = dataState s.mtu.toNat d.length
  esc : r.esc = false
  count : r.count.toNat = d.length
  limit : r.limit = s.mtu
  proto : r.proto = p
  kept : ¬ Spec.full s → r.drop = false ∧ slotBytes s.ring.wr.toNat (s.receiving r m) 0 d.length = .ok d
  others : SameButFirst s.ring.wr.toNat d.length s.slotMem m

section FrameRun

variable {p : U16} {d : List Byte} {s : State} {r : Receiver} {m : Memory}

/-- R138: the fill slot has room for every byte up to the FCS-high one. -/
theorem FrameSoFar.room (h : FrameSoFar p d s r m) (hi : Inv s) (hd : d.length ≤ s.mtu.toNat + 1) :
    Spec.roomForByte (s.receiving r m) := by
  have hmtu := hi.mtu
  have hcount := h.count
  exact ⟨hi.wr_lt, show r.count.toNat < s.cfg.mtuMax + 2 by omega⟩

/-- With a slot free the bytes so far lie in the fill slot. -/
theorem FrameSoFar.slotBytes_eq (h : FrameSoFar p d s r m) (hq : ¬ Spec.full s) :
    slotBytes s.ring.wr.toNat (s.receiving r m) 0 r.count.toNat = .ok d := by
  rw [h.count]; exact (h.kept hq).2

/-- R131: with a slot free, the bytes so far and one more. -/
theorem FrameSoFar.slotBytes_withByte (h : FrameSoFar p d s r m) (hi : Inv s) (hq : ¬ Spec.full s)
    (hd : d.length ≤ s.mtu.toNat + 1) (f : Byte) :
    slotBytes s.ring.wr.toNat ((s.receiving r m).withByte f) 0 (d.length + 1) = .ok (d ++ [f]) := by
  have hw : (s.receiving r m).cfg.wellFormed = true := hi.config
  have hroom := h.room hi hd
  have hb := Machine.slotBytes_withByte f hw hroom (h.slotBytes_eq hq)
  rw [count_succ_of_roomForByte hw hroom, show (s.receiving r m).rx.count.toNat = d.length from h.count] at hb
  exact hb

/-- R131: a byte stored after `d` changes no other byte. -/
theorem FrameSoFar.others_withByte (h : FrameSoFar p d s r m) (f : Byte) :
    SameButFirst s.ring.wr.toNat (d.length + 1) s.slotMem ((s.receiving r m).withByte f).slotMem := by
  have hcount : (s.receiving r m).rx.count.toNat = d.length := h.count
  rw [State.withByte, hcount]
  exact h.others.write f

/-- R128, R129, R131: a field byte up to the FCS-low one is one more byte of the frame. -/
theorem FrameSoFar.onField_next (h : FrameSoFar p d s r m) (hi : Inv s) (hd : d.length ≤ s.mtu.toNat) (f : Byte) :
    ∃ r' m', onField f (s.receiving r m) = .ok (s.receiving r' m', .none) ∧ FrameSoFar p (d ++ [f]) s r' m' := by
  have hroom := h.room hi (by omega)
  have hsucc : (r.count + 1).toNat = d.length + 1 :=
    (count_succ_of_roomForByte (s := s.receiving r m) hi.config hroom).trans (congrArg (· + 1) h.count)
  have hlen : (d ++ [f]).length = d.length + 1 := by simp
  have hst : r.state = dataState r.limit.toNat r.count.toNat := by rw [h.state, h.limit, h.count]
  have hle : r.count.toNat ≤ r.limit.toNat := by rw [h.count, h.limit]; exact hd
  have hcount : (r.count + 1).toNat = r.count.toNat + 1 := by rw [hsucc, h.count]
  have hnext : dataState r.limit.toNat (r.count + 1).toNat = dataState s.mtu.toNat (d ++ [f]).length := by
    rw [h.limit, hsucc, hlen]
  by_cases hq : Spec.full s
  · refine ⟨_, m, onField_dataState (s := s.receiving r m) hst hle (rxStore_full ((qFull_iff s).2 hq)) rfl hcount,
      hnext, h.esc, hsucc.trans hlen.symm, h.limit, h.proto, fun hn => absurd hq hn, ?_⟩
    exact h.others.mono (by omega)
  · refine ⟨_, _, onField_dataState (s := s.receiving r m) hst hle (rxStore_withByte f hq hroom) rfl hcount,
      hnext, h.esc, hsucc.trans hlen.symm, h.limit, h.proto, fun _ => ⟨(h.kept hq).1, ?_⟩, ?_⟩
    · rw [hlen]
      exact slotBytes_of_same_memory (h.slotBytes_withByte hi hq (by omega) f) rfl rfl
    · rw [hlen]
      exact h.others_withByte f

/-- R128, R129: a run of field bytes up to the FCS-low one, by induction on it. -/
theorem FrameSoFar.run (h : FrameSoFar p d s r m) (hi : Inv s) {fs : List Byte}
    (hlen : d.length + fs.length ≤ s.mtu.toNat + 1) :
    ∃ r' m', runAll (rxStream (escape fs)) (s.receiving r m) = some (s.receiving r' m', []) ∧
      FrameSoFar p (d ++ fs) s r' m' := by
  induction fs generalizing d r m with
  | nil => exact ⟨r, m, rfl, by rwa [List.append_nil]⟩
  | cons f fs ih =>
    rw [List.length_cons] at hlen
    obtain ⟨r₁, m₁, hf, h₁⟩ := h.onField_next hi (by omega) f
    obtain ⟨r₂, m₂, hrun, h₂⟩ := ih h₁ (by rw [List.length_append, List.length_singleton]; omega)
    exact ⟨r₂, m₂, runAll_escape_cons h.esc hf hrun, by rwa [← List.append_cons] at h₂⟩

end FrameRun

section WholeFrame

variable {p : U16} {payload d : List Byte} {s : State} {r : Receiver} {m : Memory}

/-- R127: the receiver as the data phase of a frame of protocol `p` begins. -/
def Receiver.dataPhase (p mtu : U16) : Receiver :=
  { state := if mtu = 0 then .fcsLo else .data, esc := false, count := 0, limit := mtu, proto := p, drop := false }

theorem joinBytes_halves (v : U16) : joinBytes (hiByte v) (loByte v) = v :=
  halves_inj.2 ⟨hiByte_append _ _, loByte_append _ _⟩

/-- R127: no byte of the frame is in yet. -/
theorem frameSoFar_nil (p : U16) (s : State) : FrameSoFar p [] s (.dataPhase p s.mtu) s.slotMem where
  state := by
    by_cases h : s.mtu = 0
    · simp [Receiver.dataPhase, h, dataState]
    · have hpos : 0 < s.mtu.toNat := Nat.pos_of_ne_zero fun e => h (BitVec.eq_of_toNat_eq e)
      exact (if_neg h).trans (dataState_of_lt hpos).symm
  esc := rfl
  count := rfl
  limit := rfl
  proto := rfl
  kept _ := ⟨rfl, rfl⟩
  others _ _ := rfl

/-- R122, R124 to R127: an opening flag and a header lead from HUNT and ADDR into the data phase. -/
theorem runAll_frame_start (h : s.rx.state = .hunt ∨ s.rx.state = .addr) {t : State} {fs : List Byte}
    (ht : runAll (rxStream (escape fs)) (s.receiving (.dataPhase p s.mtu) s.slotMem) = some (t, [])) :
    runAll (rxStream ([flagByte] ++ escape (fcsHeader p ++ fs))) s = some (t, []) := by
  have hflag : rxByte 0x7E s = .ok ({ s with rx.esc := false, rx.state := .addr }, .none) :=
    (rxByte_flag s).trans (onFlag_between h)
  have hproto : joinBytes (hiByte (joinBytes (hiByte p) (loByte s.rx.proto))) (loByte p) = p := by
    rw [joinBytes, joinBytes, hiByte_append]; exact joinBytes_halves p
  have hlast : onField (loByte p) (s.receiving { s.rx with
      esc := false, state := .protoLo, proto := joinBytes (hiByte p) (loByte s.rx.proto) } s.slotMem) =
      .ok (s.receiving (.dataPhase p s.mtu) s.slotMem, .none) := by
    rw [onField_protoLo rfl]
    show Except.ok (s.receiving (.dataPhase (joinBytes (hiByte (joinBytes (hiByte p) _)) (loByte p)) s.mtu) s.slotMem,
      RxEvent.none) = _
    rw [hproto]
  rw [rxStream_append]
  refine runAll_append_eq (runAll_rxByte hflag) ?_
  exact runAll_escape_cons (s := s) (r := { s.rx with esc := false, state := .addr }) rfl (onField_addr rfl rfl)
    (runAll_escape_cons rfl (onField_ctrl rfl rfl)
      (runAll_escape_cons rfl (onField_protoHi rfl)
        (runAll_escape_cons rfl hlast ht)))

/-- R122 to R129: an opening flag, a header and data up to the FCS-low byte lead from HUNT and ADDR into a frame. -/
theorem exists_frameSoFar (p : U16) (hi : Inv s) (h : s.rx.state = .hunt ∨ s.rx.state = .addr)
    (hlen : d.length ≤ s.mtu.toNat + 1) :
    ∃ r m, runAll (rxStream ([flagByte] ++ escape (fcsHeader p ++ d))) s = some (s.receiving r m, []) ∧
      FrameSoFar p d s r m := by
  obtain ⟨r, m, hrun, hd⟩ := (frameSoFar_nil p s).run hi (fs := d) (by simpa using hlen)
  exact ⟨r, m, runAll_frame_start h hrun, hd⟩

/-- R109: the FCS bytes of a frame check. -/
theorem fcsOk_frameFcsBytes (p : U16) (payload : List Byte) :
    fcsOk p (payload ++ frameFcsBytes p payload) = true :=
  (fcsOk_append_pair _ _ _ _).2 (joinBytes_halves _).symm

/-- R85: a frame is its opening flag, the escaped header, payload and FCS, and its closing flag. -/
theorem encodeFrame_eq (p : U16) (payload : List Byte) :
    encodeFrame p payload =
      ([flagByte] ++ escape (fcsHeader p ++ (payload ++ frameFcsBytes p payload))) ++ [flagByte] := by
  rw [encodeFrame, frameBody, List.append_assoc (fcsHeader p)]

theorem length_append_frameFcsBytes (p : U16) (payload : List Byte) :
    (payload ++ frameFcsBytes p payload).length = payload.length + 2 := by
  simp [frameFcsBytes]

theorem reply_commit_receiving (s : State) (r : Receiver) (m : Memory) (n : U16) :
    reply (commit n (s.receiving r m)) .ok (RxEvent.commit s.ring.wr).code (RxEvent.commit s.ring.wr).data =
      Spec.committed (s.receiving r m) n :=
  reply_commit n (s.receiving r m)

theorem escape_singleton (f : Byte) : escape [f] = escapeByte f := List.append_nil _

/-- R85: a run up to the closing flag, and the closing flag. -/
theorem runAll_rxFrame {t u : State} {ev : RxEvent}
    (ht : runAll (rxStream ([flagByte] ++ escape (fcsHeader p ++ (payload ++ frameFcsBytes p payload)))) s =
      some (t, []))
    (hu : rxByte 0x7E t = .ok (u, ev)) : runAll (rxFrame p payload) s = some (reply u .ok ev.code ev.data, []) := by
  rw [rxFrame, encodeFrame_eq, rxStream_append]
  exact runAll_append_eq ht (runAll_rxByte hu)

/-- R137: the commit of a whole frame publishes its payload length, its protocol and its bytes. -/
theorem frameReceived_committed (hcount : r.count.toNat = payload.length + 2) (hproto : r.proto = p)
    (hb : slotBytes s.ring.wr.toNat (s.receiving r m) 0 (payload.length + 2) = .ok (payload ++ frameFcsBytes p payload))
    (ho : SameButFirst s.ring.wr.toNat (payload.length + 2) s.slotMem m) :
    Spec.frameReceived p payload s (Spec.committed (s.receiving r m) r.count) := by
  have hlen : r.count - 2 = BitVec.ofNat 16 payload.length := by
    have hsub : (r.count - 2).toNat = r.count.toNat - 2 := BitVec.toNat_sub_of_le (show 2 ≤ r.count.toNat by omega)
    apply BitVec.eq_of_toNat_eq
    rw [hsub, hcount, BitVec.toNat_ofNat, Nat.mod_eq_of_lt (by omega), Nat.add_sub_cancel]
  refine ⟨?_, slotBytes_of_same_memory hb rfl rfl, ho⟩
  rw [← hlen, ← hproto]; rfl

/-- R132, R137: the closing flag commits a whole frame that is still in DATA. -/
theorem FrameSoFar.flag_commits (h : FrameSoFar p (payload ++ frameFcsBytes p payload) s r m) (hq : ¬ Spec.full s)
    (hlen : payload.length + 3 ≤ s.mtu.toNat) :
    ∃ r', rxByte 0x7E (s.receiving r m) = .ok (commit r'.count (s.receiving r' m), .commit s.ring.wr) ∧
      r'.state = .addr ∧ Spec.frameReceived p payload s (Spec.committed (s.receiving r' m) r'.count) := by
  have hd := length_append_frameFcsBytes p payload
  have hcount : r.count.toNat = payload.length + 2 := h.count.trans hd
  have hstate : r.state = .data := h.state.trans (dataState_of_lt (by omega))
  obtain ⟨hdrop, hbytes⟩ := h.kept hq
  have hok : fcsOk r.proto (payload ++ frameFcsBytes p payload) = true := by
    rw [h.proto]; exact fcsOk_frameFcsBytes p payload
  have h2 : 2 ≤ (s.receiving r m).rx.count.toNat := by show 2 ≤ r.count.toNat; omega
  have hend := onFlag_checked (s := s.receiving r m) hstate h2 hdrop hq (h.slotBytes_eq hq)
  refine ⟨{ r with state := .addr }, (rxByte_flag_of_clear h.esc).trans (hend.trans (if_pos hok)), rfl, ?_⟩
  rw [hd] at hbytes
  exact frameReceived_committed hcount h.proto (slotBytes_of_same_memory hbytes rfl rfl) (hd ▸ h.others)

/-- R130, R137: in FCS_HI the last byte of a whole frame commits it. -/
theorem FrameSoFar.fcsHi_commits (hi : Inv s) {d : List Byte} {f : Byte} (h : FrameSoFar p d s r m)
    (hd : d ++ [f] = payload ++ frameFcsBytes p payload) (hq : ¬ Spec.full s) (hlen : payload.length = s.mtu.toNat) :
    ∃ r' m', onField f (s.receiving r m) = .ok (commit r'.count (s.receiving r' m'), .commit s.ring.wr) ∧
      r'.state = .hunt ∧ r'.esc = false ∧
      Spec.frameReceived p payload s (Spec.committed (s.receiving r' m') r'.count) := by
  have hdlen : d.length = payload.length + 1 := by
    have := congrArg List.length hd
    rw [length_append_frameFcsBytes, List.length_append, List.length_singleton] at this
    omega
  have hroom := h.room hi (by omega)
  have hcount : r.count.toNat = payload.length + 1 := h.count.trans hdlen
  have hsucc : (r.count + 1).toNat = payload.length + 2 :=
    (count_succ_of_roomForByte (s := s.receiving r m) hi.config hroom).trans (congrArg (· + 1) hcount)
  have hstate : r.state = .fcsHi := by rw [h.state, hdlen, hlen, dataState_limit_succ]
  have hok : fcsOk r.proto (d ++ [f]) = true := by rw [h.proto, hd]; exact fcsOk_frameFcsBytes p payload
  have h1 : 1 ≤ (s.receiving r m).rx.count.toNat := by show 1 ≤ r.count.toNat; omega
  have hend := onField_checked (s := s.receiving r m) (f := f) hi.config hstate h1 (h.kept hq).1 hq hroom
    (h.slotBytes_eq hq)
  refine ⟨{ r with state := .hunt, count := r.count + 1 }, _, hend.trans (if_pos hok), rfl, h.esc, ?_⟩
  have hbytes := h.slotBytes_withByte hi hq (by omega) f
  have hothers := h.others_withByte f
  rw [hdlen, hd] at hbytes
  rw [hdlen] at hothers
  exact frameReceived_committed hsucc h.proto (slotBytes_of_same_memory hbytes rfl rfl) hothers

end WholeFrame

/-- Settles O37: the whole payload and FCS arrive in DATA, and the closing flag commits them. -/
theorem rxReceivesShortFrame : Obligations.RxReceivesShortFrame := by
  intro p payload s hi hst hq hlen
  have hd := length_append_frameFcsBytes p payload
  obtain ⟨r, m, hrun, hf⟩ := exists_frameSoFar p (d := payload ++ frameFcsBytes p payload) hi hst (by omega)
  obtain ⟨r', hclose, haddr, hreceived⟩ := hf.flag_commits hq hlen
  have hall := runAll_rxFrame hrun hclose
  rw [reply_commit_receiving] at hall
  exact ⟨_, hall, hreceived, haddr⟩

/-- Settles O38: all but the FCS-high byte arrive in the data phase, that byte commits the frame, and the closing flag
finds the receiver in HUNT. -/
theorem rxReceivesFullFrame : Obligations.RxReceivesFullFrame := by
  intro p payload s hi hst hq hlen
  obtain ⟨lo, f, hfcs⟩ : ∃ lo f, frameFcsBytes p payload = [lo, f] := ⟨_, _, rfl⟩
  have hall : payload ++ [lo] ++ [f] = payload ++ frameFcsBytes p payload := by rw [hfcs, List.append_assoc]; rfl
  obtain ⟨r, m, hrun, hf⟩ := exists_frameSoFar p (d := payload ++ [lo]) hi hst (by simp [hlen])
  obtain ⟨r', m', hlast, hhunt, hesc, hreceived⟩ := hf.fcsHi_commits hi hall hq hlen
  have hcommit := runAll_append_eq hrun (runAll_escapeByte (s := s.receiving r m) hf.esc hlast)
  rw [reply_commit_receiving, ← rxStream_append, List.append_assoc, ← escape_singleton, ← escape_append,
    List.append_assoc (fcsHeader p), hall] at hcommit
  have hdropped : (encodeFrame p payload).dropLast =
      [flagByte] ++ escape (fcsHeader p ++ (payload ++ frameFcsBytes p payload)) := by
    rw [encodeFrame_eq, List.dropLast_concat]
  have hclose := (rxByte_flag_of_clear (s := Spec.committed (s.receiving r' m') r'.count) hesc).trans
    (onFlag_between (.inl hhunt))
  exact ⟨_, hdropped ▸ hcommit, hreceived, hhunt, runAll_rxFrame hcommit hclose⟩

/-- Settles O39: the whole payload and FCS arrive with room for one or two bytes more, so the closing flag finds FCS_LO
or FCS_HI. -/
theorem rxLosesTwoLengths : Obligations.RxLosesTwoLengths := by
  intro p payload s hi hst hlen
  have hd := length_append_frameFcsBytes p payload
  obtain ⟨r, m, hrun, hf⟩ := exists_frameSoFar p (d := payload ++ frameFcsBytes p payload) hi hst (by omega)
  have hstate : r.state ∈ [RxState.ctrl, .protoHi, .protoLo, .fcsLo, .fcsHi] := by
    obtain hlen | hlen := hlen
    · rw [hf.state, hd, hlen, dataState_limit]; decide
    · rw [hf.state, hd, ← hlen, dataState_limit_succ]; decide
  have habort := onFlag_abort (s := s.receiving r m) hstate
  have hall := runAll_rxFrame hrun ((rxByte_flag_of_clear hf.esc).trans habort)
  refine ⟨_, hall, rfl, rfl, fun a ha => hf.others a fun k hk => ha k ?_⟩
  have hmtu := hi.mtu
  unfold Config.slotCap
  omega

end Sys2Proof.Machine

namespace Sys2Proof.Machine

/-! ### TX_START by its answers (O17, O18) -/

/-- R53: the total length the model sums over the segments is the length of their concatenation. -/
theorem chainLength_eq_length_flatten (chain : Chain) : chainLength chain = chain.flatten.length := by
  rw [← length_capture, capture_eq_flatten]

/-- R162: in IDLE, a chain with a payload byte is not refused BUSY. -/
theorem txStart_not_busy {chain : Chain} {s : State} (hst : s.tx.state = .idle) (hpos : 1 ≤ chain.flatten.length) :
    ¬ (s.tx.state != .idle || chainLength chain == 0) = true := by
  simp only [hst, chainLength_eq_length_flatten, bne_self_eq_false, Bool.false_or, beq_iff_eq]
  omega

/-- Settles O17: neither refusal applies, and the capture is the concatenation. -/
theorem txStartBeginsFrame : Obligations.TxStartBeginsFrame := by
  intro p chain s hst hpos hmax
  have hrange : ¬ chainLength chain > Config.txLenMax := by
    rw [chainLength_eq_length_flatten, Config.txLenMax]
    omega
  rw [exec, execTxStart, if_neg (txStart_not_busy hst hpos), if_neg hrange, capture_eq_flatten,
    chainLength_eq_length_flatten]
  rfl

/-- R162: outside IDLE, or with an empty chain, TX_START is refused BUSY. -/
theorem exec_txStart_busy {p : U16} {chain : Chain} {s : State} (h : s.tx.state ≠ .idle ∨ chain.flatten.length = 0) :
    exec (.txStart p chain) s = .next (Spec.refusedWith s 0x1) := by
  rw [exec, execTxStart, if_pos (by simpa [chainLength_eq_length_flatten] using h)]
  rfl

/-- Settles O18: the second refusal is met only where the first does not apply. -/
theorem txStartRefusals : Obligations.TxStartRefusals := by
  refine fun p chain s => ⟨exec_txStart_busy, fun hst hlong => ?_⟩
  have hrange : chainLength chain > Config.txLenMax := by
    rw [chainLength_eq_length_flatten]
    exact hlong
  rw [exec, execTxStart, if_neg (txStart_not_busy hst (by omega)), if_pos hrange]
  rfl

/-! ### TX_DONE by state (O19 to O24) -/

/-- R164, R166: stuffing a byte, with the bytes of R82 and the answer as numbers. -/
theorem emitStuffed_eq_stuffed (s : State) (b : Byte) : emitStuffed s b = Spec.stuffed s b := by
  rw [emitStuffed, Spec.stuffed]
  simp only [needsEscape_iff, emit, respond_emit]
  rfl

theorem emitStuffed_state_eq_stuffed (s : State) (b : Byte) (st : TxState) :
    { emitStuffed s b with tx.state := st } = Spec.stuffed { s with tx.state := st } b := by
  rw [emitStuffed_state, emitStuffed_eq_stuffed]

/-- R163: a field byte is fed to the FCS and stuffed, and the transmitter moves on. -/
theorem emitField_state_eq_stuffed (s : State) (b : Byte) (st : TxState) :
    { emitField s b with tx.state := st } =
      Spec.stuffed { s with tx.state := st, tx.fcs := crcUpdate s.tx.fcs b } b := by
  rw [emitField, emitStuffed_state_eq_stuffed]

section ByTxState

variable {s : State}

theorem exec_txDone_idle (h : s.tx.state = .idle) :
    exec .txDone s = .next { s with response := some 0x00000000, txOut := none } := by
  rw [exec, execTxDone, if_pos h]
  rfl

theorem exec_txDone_escape (h : s.tx.state ≠ .idle) (hesc : s.tx.escPend = true) :
    exec .txDone s = .next { s with
      tx.escPend := false, response := some (0x000100#24 ++ s.tx.escByte), txOut := some s.tx.escByte } := by
  rw [exec, execTxDone, if_neg h, if_pos hesc, emit, respond_emit]

variable (hesc : s.tx.escPend = false)

include hesc

theorem exec_txDone_flag (h : s.tx.state = .flag) :
    exec .txDone s = .next (Spec.stuffed { s with tx.state := .address, tx.fcs := crcUpdate s.tx.fcs 0xFF } 0xFF) := by
  simp only [exec, execTxDone, h, hesc, emitField_state_eq_stuffed]
  rfl

theorem exec_txDone_address (h : s.tx.state = .address) :
    exec .txDone s = .next (Spec.stuffed { s with tx.state := .control, tx.fcs := crcUpdate s.tx.fcs 0x03 } 0x03) := by
  simp only [exec, execTxDone, h, hesc, emitField_state_eq_stuffed]
  rfl

theorem exec_txDone_control (h : s.tx.state = .control) :
    exec .txDone s = .next (Spec.stuffed { s with
      tx.state := .protoHi, tx.fcs := crcUpdate s.tx.fcs (hiByte s.tx.proto) } (hiByte s.tx.proto)) := by
  simp only [exec, execTxDone, h, hesc, emitField_state_eq_stuffed]
  rfl

theorem exec_txDone_protoHi (h : s.tx.state = .protoHi) :
    exec .txDone s = .next (Spec.stuffed { s with
      tx.state := .protoLo, tx.fcs := crcUpdate s.tx.fcs (loByte s.tx.proto) } (loByte s.tx.proto)) := by
  simp only [exec, execTxDone, h, hesc, emitField_state_eq_stuffed]
  rfl

/-- R169, R170: in PROTO_LO and DATA, TX_DONE takes the payload step. -/
theorem exec_txDone_payloadStep (h : s.tx.state = .protoLo ∨ s.tx.state = .data) :
    exec .txDone s = txPayloadStep s := by
  obtain h | h := h <;> simp only [exec, execTxDone, h, hesc] <;> rfl

theorem exec_txDone_payload (h : s.tx.state = .protoLo ∨ s.tx.state = .data) (hi : s.tx.index.toNat < s.tx.len.toNat)
    {b : Byte} (hb : s.tx.payload[s.tx.index.toNat]? = some b) :
    exec .txDone s = .next (Spec.stuffed { s with
      tx.state := .data, tx.fcs := crcUpdate s.tx.fcs b, tx.index := s.tx.index + 1 } b) := by
  rw [exec_txDone_payloadStep hesc h, txPayloadStep, if_pos hi, payloadByte, hb]
  dsimp only
  rw [emitField, emitStuffed_index, emitStuffed_eq_stuffed]

theorem exec_txDone_fcsLow (h : s.tx.state = .protoLo ∨ s.tx.state = .data)
    (hi : s.tx.len.toNat ≤ s.tx.index.toNat) :
    exec .txDone s = .next (Spec.stuffed { s with
      tx.state := .fcsLo, tx.fcs := crcFinal s.tx.fcs } (loByte (crcFinal s.tx.fcs))) := by
  rw [exec_txDone_payloadStep hesc h, txPayloadStep, if_neg (by omega), emitStuffed_state_eq_stuffed]

theorem exec_txDone_fcsHigh (h : s.tx.state = .fcsLo) :
    exec .txDone s = .next (Spec.stuffed { s with tx.state := .fcsHi } (hiByte s.tx.fcs)) := by
  simp only [exec, execTxDone, h, hesc, emitStuffed_state_eq_stuffed]
  rfl

theorem exec_txDone_closing (h : s.tx.state = .fcsHi) :
    exec .txDone s = .next { s with
      tx.state := .closingFlag, response := some 0x0001007E, txOut := some 0x7E } := by
  simp only [exec, execTxDone, h, hesc, emit_tx]
  rfl

theorem exec_txDone_done (h : s.tx.state = .closingFlag) :
    exec .txDone s = .next { s with tx.state := .idle, response := some 0x00020000, txOut := none } := by
  simp only [exec, execTxDone, h, hesc]
  rfl

end ByTxState

/-- Settles O19. -/
theorem txDoneInIdle : Obligations.TxDoneInIdle := fun _ => exec_txDone_idle

/-- Settles O20. -/
theorem txDoneSendsPendingEscape : Obligations.TxDoneSendsPendingEscape := fun _ => exec_txDone_escape

/-- Settles O21: the four header steps, of which the first two send a byte that is never escaped. -/
theorem txDoneHeader : Obligations.TxDoneHeader := fun _ hesc =>
  ⟨exec_txDone_flag hesc, exec_txDone_address hesc, exec_txDone_control hesc, exec_txDone_protoHi hesc⟩

/-- Settles O22. -/
theorem txDonePayload : Obligations.TxDonePayload := fun _ _ hesc hst hi hb =>
  exec_txDone_payload hesc hst hi hb

/-- Settles O23. -/
theorem txDoneFcs : Obligations.TxDoneFcs := fun _ hesc =>
  ⟨fun hst hi => exec_txDone_fcsLow hesc hst (by rw [hi]), exec_txDone_fcsHigh hesc⟩

/-- Settles O24: the two closing steps, with the refusal of O18 before the second and the acceptance of O17 after it. -/
theorem txDoneClosing : Obligations.TxDoneClosing := fun _ hesc =>
  ⟨exec_txDone_closing hesc, fun hst =>
    ⟨fun _ _ => exec_txStart_busy (.inl (by simp [hst])), _, rfl, exec_txDone_done hesc hst, fun p chain hpos hmax =>
      ⟨_, txStartBeginsFrame p chain _ rfl hpos hmax, rfl⟩⟩⟩

/-! ### The transmitter is independent of the receiver (O27) -/

/-- Settles O27: the frame of the two commands, and what they do from a state with the same transmitter. -/
theorem txIndependentOfReceiver : Obligations.TxIndependentOfReceiver := by
  intro i s s' t hi hx h
  obtain rfl | ⟨p, chain, rfl⟩ := hi
  · exact ⟨execTxDone_frame h, execTxDone_of_same_tx hx.symm h⟩
  · exact ⟨execTxStart_frame h, execTxStart_of_same_tx hx.symm h⟩

end Sys2Proof.Machine

namespace Sys2Proof.Machine

/-! ### What `tx_fcs` holds is kept by every step (O26) -/

section Stuffed

variable (s : State) (b : Byte)

/-- R164: stuffing a byte writes no register but the pending pair. -/
theorem stuffed_tx : (Spec.stuffed s b).tx =
    { s.tx with escPend := (Spec.stuffed s b).tx.escPend, escByte := (Spec.stuffed s b).tx.escByte } := by
  unfold Spec.stuffed; split <;> rfl

@[simp] theorem stuffed_tx_state : (Spec.stuffed s b).tx.state = s.tx.state := by rw [stuffed_tx]
@[simp] theorem stuffed_tx_fcs : (Spec.stuffed s b).tx.fcs = s.tx.fcs := by rw [stuffed_tx]
@[simp] theorem stuffed_tx_proto : (Spec.stuffed s b).tx.proto = s.tx.proto := by rw [stuffed_tx]
@[simp] theorem stuffed_tx_index : (Spec.stuffed s b).tx.index = s.tx.index := by rw [stuffed_tx]
@[simp] theorem stuffed_tx_payload : (Spec.stuffed s b).tx.payload = s.tx.payload := by rw [stuffed_tx]

end Stuffed

section FcsKept

variable {s t : State}

/-- `RunningFcs` speaks of five registers only. -/
theorem RunningFcs.congr (h : RunningFcs s) (hst : t.tx.state = s.tx.state) (hfcs : t.tx.fcs = s.tx.fcs)
    (hproto : t.tx.proto = s.tx.proto) (hindex : t.tx.index = s.tx.index) (hpayload : t.tx.payload = s.tx.payload) :
    RunningFcs t := by
  unfold RunningFcs at *
  rw [hst, hfcs, hproto, hindex, hpayload]
  exact h

theorem RunningFcs.of_same_tx (h : RunningFcs s) (hx : t.tx = s.tx) : RunningFcs t :=
  h.congr (by rw [hx]) (by rw [hx]) (by rw [hx]) (by rw [hx]) (by rw [hx])

theorem RunningFcs.stuffed (h : RunningFcs s) (b : Byte) : RunningFcs (Spec.stuffed s b) :=
  h.congr (by simp) (by simp) (by simp) (by simp) (by simp)

theorem runningFcs_of_idle (h : s.tx.state = .idle) : RunningFcs s := by
  unfold RunningFcs
  rw [h]
  trivial

/-- R107: one more byte at the end of the fold. -/
theorem crcFold_concat (c : U16) (s : List Byte) (b : Byte) : crcFold c (s ++ [b]) = crcUpdate (crcFold c s) b :=
  crcFold_append c s [b]

/-- R167: in PROTO_LO and DATA, `tx_fcs` is the fold over the header and the payload bytes before `tx_index`. -/
theorem RunningFcs.fcs_payload (hf : RunningFcs s) (h : Inv s) (hst : s.tx.state = .protoLo ∨ s.tx.state = .data) :
    s.tx.fcs = crcFold fcsSeed (frameBody s.tx.proto (s.tx.payload.take s.tx.index.toNat)) := by
  have hi := h.index
  unfold TxIndexOk at hi
  unfold RunningFcs at hf
  obtain hst | hst := hst <;> rw [hst] at hi hf
  · rw [hf, hi.1]; rfl
  · exact hf

/-- R169, R170: the payload step feeds the payload byte it sends, or finalizes the fold over the whole payload. -/
theorem RunningFcs.payloadStep (hf : RunningFcs s) (h : Inv s) (hesc : s.tx.escPend = false)
    (hst : s.tx.state = .protoLo ∨ s.tx.state = .data) (he : exec .txDone s = .next t) : RunningFcs t := by
  have hfcs := hf.fcs_payload h hst
  have hpayload := h.payload
  have hlen := s.tx.len.isLt
  by_cases hi : s.tx.index.toNat < s.tx.len.toNat
  · obtain ⟨b, hb⟩ : ∃ b, s.tx.payload[s.tx.index.toNat]? = some b := ⟨_, List.getElem?_eq_getElem (by omega)⟩
    cases (exec_txDone_payload hesc hst hi hb).symm.trans he
    refine RunningFcs.stuffed ?_ b
    show crcUpdate s.tx.fcs b = crcFold fcsSeed (fcsHeader _ ++ s.tx.payload.take (s.tx.index + 1).toNat)
    rw [succ_toNat _ (by omega), List.take_add_one, hb, Option.toList_some, ← List.append_assoc, crcFold_concat, hfcs,
      frameBody]
  · cases (exec_txDone_fcsLow hesc hst (by omega)).symm.trans he
    refine RunningFcs.stuffed ?_ _
    show crcFinal s.tx.fcs = crcFinal (crcFold fcsSeed (frameBody _ s.tx.payload))
    rw [hfcs, List.take_of_length_le (by omega)]

/-- R167: TX_DONE feeds the FCS the header byte it sends, and in no other step but the payload's writes it. -/
theorem RunningFcs.txDone (hf : RunningFcs s) (h : Inv s) (he : exec .txDone s = .next t) : RunningFcs t := by
  by_cases hidle : s.tx.state = .idle
  · cases (exec_txDone_idle hidle).symm.trans he
    exact hf.of_same_tx rfl
  cases hesc : s.tx.escPend with
  | true =>
    cases (exec_txDone_escape hidle hesc).symm.trans he
    exact hf.congr rfl rfl rfl rfl rfl
  | false =>
    cases hst : s.tx.state
    case idle => exact absurd hst hidle
    case protoLo => exact hf.payloadStep h hesc (.inl hst) he
    case data => exact hf.payloadStep h hesc (.inr hst) he
    all_goals unfold RunningFcs at hf; rw [hst] at hf
    case flag =>
      cases (exec_txDone_flag hesc hst).symm.trans he
      exact RunningFcs.stuffed (by exact congrArg (crcUpdate · _) hf) _
    case address =>
      cases (exec_txDone_address hesc hst).symm.trans he
      exact RunningFcs.stuffed (by exact congrArg (crcUpdate · _) hf) _
    case control =>
      cases (exec_txDone_control hesc hst).symm.trans he
      exact RunningFcs.stuffed (by exact congrArg (crcUpdate · _) hf) _
    case protoHi =>
      cases (exec_txDone_protoHi hesc hst).symm.trans he
      exact RunningFcs.stuffed (by exact congrArg (crcUpdate · _) hf) _
    case fcsLo =>
      cases (exec_txDone_fcsHigh hesc hst).symm.trans he
      exact RunningFcs.stuffed (s := { s with tx.state := .fcsHi }) hf _
    case fcsHi =>
      cases (exec_txDone_closing hesc hst).symm.trans he
      exact hf
    case closingFlag =>
      cases (exec_txDone_done hesc hst).symm.trans he
      exact runningFcs_of_idle rfl

/-- R167: an accepted TX_START primes the FCS; a refused one writes nothing. -/
theorem RunningFcs.txStart (hf : RunningFcs s) {p : U16} {chain : Chain} (he : exec (.txStart p chain) s = .next t) :
    RunningFcs t := by
  obtain ⟨-, rfl⟩ | ⟨-, -, rfl⟩ | ⟨-, -, -, rfl⟩ := execTxStart_next he
  · exact hf.of_same_tx rfl
  · exact hf.of_same_tx rfl
  · exact rfl

/-- R167: every command keeps what `tx_fcs` holds; those that are not the transmitter's leave its registers or reset
them. -/
theorem RunningFcs.exec (hf : RunningFcs s) (h : Inv s) {i : Instr} (he : Machine.exec i s = .next t) :
    RunningFcs t := by
  obtain ⟨-, -, -, -, htx, -⟩ := writersOfEachRegister i s t he
  cases i
  case txDone => exact hf.txDone h he
  case txStart p chain => exact hf.txStart he
  case reset => cases he; exact runningFcs_of_idle rfl
  all_goals exact hf.of_same_tx (htx nofun nofun nofun)

end FcsKept

/-- Settles O26: a step without a command or with a word of no command leaves the transmitter, and every command keeps
what `tx_fcs` holds. -/
theorem runningFcsKept : Obligations.RunningFcsKept := by
  intro s t h hf hs
  obtain ⟨-, rfl⟩ | ⟨c, rest, -, hrun⟩ := step_next hs
  · exact hf.of_same_tx rfl
  · have hr : Inv { s with pending := rest } := h.withOutputs s.response s.txOut rest s.ovfCount
    have hfr : RunningFcs { s with pending := rest } := hf.of_same_tx rfl
    obtain rfl | ⟨i, hi⟩ := hrun
    · exact hfr.of_same_tx rfl
    · exact hfr.exec hr hi

end Sys2Proof.Machine

namespace Sys2Proof.Machine

/-! ### The transmitter sends exactly the encoded frame (O25)

The idea: from its registers one reads off which field bytes are still to be sent (`Transmitter.unsent`). Each field byte
takes one TX_DONE, or two where it is escaped, and shortens that list by its head; when it is empty only the closing flag
and the completion remain. -/

/-- R107, R170: field bytes still to be fed to an FCS that stands at `c`, with the finalized FCS after them. -/
def withFcs (c : U16) (fs : List Byte) : List Byte :=
  fs ++ [loByte (crcFinal (crcFold c fs)), hiByte (crcFinal (crcFold c fs))]

theorem withFcs_nil (c : U16) : withFcs c [] = [loByte (crcFinal c), hiByte (crcFinal c)] := rfl

/-- R163: sending a field byte feeds it to the FCS. -/
theorem withFcs_cons (c : U16) (b : Byte) (fs : List Byte) : withFcs c (b :: fs) = b :: withFcs (crcUpdate c b) fs := rfl

/-- R161, R169: the payload bytes from `tx_index` on. -/
def Transmitter.payloadLeft (x : Transmitter) : List Byte := x.payload.drop x.index.toNat

/-- R168 to R171: the field bytes of the frame in progress whose TX_DONE is still to come. -/
def Transmitter.unsent (x : Transmitter) : List Byte :=
  match x.state with
  | .idle => []
  | .flag => withFcs x.fcs (0xFF :: 0x03 :: hiByte x.proto :: loByte x.proto :: x.payloadLeft)
  | .address => withFcs x.fcs (0x03 :: hiByte x.proto :: loByte x.proto :: x.payloadLeft)
  | .control => withFcs x.fcs (hiByte x.proto :: loByte x.proto :: x.payloadLeft)
  | .protoHi => withFcs x.fcs (loByte x.proto :: x.payloadLeft)
  | .protoLo => withFcs x.fcs x.payloadLeft
  | .data => withFcs x.fcs x.payloadLeft
  | .fcsLo => [hiByte x.fcs]
  | .fcsHi => []
  | .closingFlag => []

/-- A frame is in progress and no escape is pending: the next TX_DONE turns to the next field byte (R165), and
`tx_payload` has `tx_len` bytes (R24). -/
structure BetweenBytes (s : State) : Prop where
  busy : s.tx.state.inFrame
  clear : s.tx.escPend = false
  payload : s.tx.payload.length = s.tx.len.toNat

/-- TX_DONE stuffs the first of the field bytes to be sent, and the others are left. -/
def SendsNext (s : State) : Prop :=
  ∃ b v, exec .txDone s = .next (Spec.stuffed v b) ∧ BetweenBytes v ∧ s.tx.unsent = b :: v.tx.unsent

section SendFrame

variable {s t : State}

/-- A run whose first command completes. -/
theorem runAll_cons {i : Instr} {is : List Instr} {u : State} {bytes : List Byte} (he : exec i s = .next t)
    (h : runAll is t = some (u, bytes)) : runAll (i :: is) s = some (u, t.txOut.toList ++ bytes) := by
  rw [runAll, he]
  dsimp only
  rw [h]

theorem runAll_singleton {i : Instr} (he : exec i s = .next t) : runAll [i] s = some (t, t.txOut.toList) := by
  rw [runAll_cons he rfl, List.append_nil]

theorem txDrain_add (m n : Nat) : txDrain (m + n) = txDrain m ++ txDrain n := List.replicate_add ..

theorem BetweenBytes.moved (h : BetweenBytes s) {st : TxState} (hst : st.inFrame) {c k : U16} :
    BetweenBytes { s with tx.state := st, tx.fcs := c, tx.index := k } :=
  ⟨hst, h.clear, h.payload⟩

/-- R169, R170: the payload step sends the next payload byte, or the low byte of the FCS. -/
theorem BetweenBytes.payloadStep_sendsNext (h : BetweenBytes s) (hst : s.tx.state = .protoLo ∨ s.tx.state = .data) :
    SendsNext s := by
  have hpayload := h.payload
  have hlen := s.tx.len.isLt
  have hunsent : s.tx.unsent = withFcs s.tx.fcs (s.tx.payload.drop s.tx.index.toNat) := by
    unfold Transmitter.unsent
    obtain hst | hst := hst <;> rw [hst] <;> rfl
  by_cases hi : s.tx.index.toNat < s.tx.len.toNat
  · have hi' : s.tx.index.toNat < s.tx.payload.length := by omega
    refine ⟨_, _, exec_txDone_payload h.clear hst hi (List.getElem?_eq_getElem hi'), h.moved (by decide), ?_⟩
    rw [hunsent, List.drop_eq_getElem_cons hi', withFcs_cons, ← succ_toNat s.tx.index (by omega)]
    rfl
  · refine ⟨_, _, exec_txDone_fcsLow h.clear hst (by omega), h.moved (by decide), ?_⟩
    rw [hunsent, List.drop_eq_nil_of_le (by omega), withFcs_nil]
    rfl

/-- R168 to R170: until the FCS-high byte is sent, every TX_DONE sends the next field byte. -/
theorem BetweenBytes.sendsNext (h : BetweenBytes s) (hst : s.tx.state ≠ .fcsHi) : SendsNext s := by
  have hunsent {st : TxState} (hs : s.tx.state = st) : s.tx.unsent = { s.tx with state := st }.unsent := by rw [← hs]
  cases hs : s.tx.state
  case idle => exact absurd hs h.busy.1
  case flag => exact ⟨_, _, exec_txDone_flag h.clear hs, h.moved (by decide), hunsent hs⟩
  case address => exact ⟨_, _, exec_txDone_address h.clear hs, h.moved (by decide), hunsent hs⟩
  case control => exact ⟨_, _, exec_txDone_control h.clear hs, h.moved (by decide), hunsent hs⟩
  case protoHi => exact ⟨_, _, exec_txDone_protoHi h.clear hs, h.moved (by decide), hunsent hs⟩
  case protoLo => exact h.payloadStep_sendsNext (.inl hs)
  case data => exact h.payloadStep_sendsNext (.inr hs)
  case fcsLo => exact ⟨_, _, exec_txDone_fcsHigh h.clear hs, h.moved (by decide), hunsent hs⟩
  case fcsHi => exact absurd hs hst
  case closingFlag => exact absurd hs h.busy.2

/-- R164, R165: the raw bytes of a field byte, one or two, take as many completions, after which the transmitter stands
where stuffing began but for `tx_esc_byte`. -/
theorem BetweenBytes.runAll_escapeByte {v : State} {b : Byte} (h : BetweenBytes v)
    (he : exec .txDone s = .next (Spec.stuffed v b)) :
    ∃ u, runAll (txDrain (escapeByte b).length) s = some (u, escapeByte b) ∧ BetweenBytes u ∧
      u.tx.unsent = v.tx.unsent := by
  rw [escapeByte_eq]
  by_cases hb : b = 0x7E ∨ b = 0x7D
  · rw [Spec.stuffed, if_pos hb] at he
    have hsecond := exec_txDone_escape (s := { v with
      tx.escPend := true, tx.escByte := b ^^^ 0x20, response := some 0x0001007D, txOut := some 0x7D }) h.busy.1 rfl
    rw [if_pos hb]
    exact ⟨_, runAll_cons he (runAll_singleton hsecond), ⟨h.busy, rfl, h.payload⟩, rfl⟩
  · rw [Spec.stuffed, if_neg hb] at he
    rw [if_neg hb]
    exact ⟨_, runAll_singleton he, ⟨h.busy, h.clear, h.payload⟩, rfl⟩

/-- R173: the field bytes to be sent are driven escaped, one raw byte in each completion, up to FCS_HI. -/
theorem BetweenBytes.runAll_unsent (h : BetweenBytes s) :
    ∃ u, runAll (txDrain (escape s.tx.unsent).length) s = some (u, escape s.tx.unsent) ∧ BetweenBytes u ∧
      u.tx.state = .fcsHi := by
  induction hfs : s.tx.unsent generalizing s with
  | nil =>
    refine ⟨s, rfl, h, ?_⟩
    by_contra hst
    obtain ⟨b, v, -, -, hcons⟩ := h.sendsNext hst
    cases hfs.symm.trans hcons
  | cons f fs ih =>
    have hst : s.tx.state ≠ .fcsHi := by
      intro hst
      rw [Transmitter.unsent, hst] at hfs
      cases hfs
    obtain ⟨b, v, he, hv, hcons⟩ := h.sendsNext hst
    obtain ⟨rfl, rfl⟩ := List.cons.inj (hfs.symm.trans hcons)
    obtain ⟨w, hfirst, hw, hleft⟩ := hv.runAll_escapeByte he
    obtain ⟨u, hrest, hu⟩ := ih hw hleft
    rw [escape, List.length_append, txDrain_add]
    exact ⟨u, runAll_append_eq hfirst hrest, hu⟩

/-- R171: in FCS_HI the closing flag is driven, and the completion after it ends the frame. -/
theorem BetweenBytes.runAll_close (h : BetweenBytes s) (hst : s.tx.state = .fcsHi) :
    runAll (txDrain 2) s = some ({ s with tx.state := .idle, response := some 0x00020000, txOut := none }, [flagByte]) :=
  runAll_cons (exec_txDone_closing h.clear hst) (runAll_singleton (exec_txDone_done h.clear rfl))

end SendFrame

/-- R173: one completion for each escaped body byte, and two for the closing flag and the end, are W completions. -/
theorem completions_eq_length_escape (p : U16) (payload : List Byte) :
    8 + payload.length + escapedCount p payload =
      (escape (frameBody p payload ++ frameFcsBytes p payload)).length + 2 := by
  rw [← length_encodeFrame, encodeFrame, List.length_append, List.length_append, List.length_singleton]
  omega

/-- R161: `s` after an accepted TX_START of the payload `payload`. -/
def State.txStarted (s : State) (p : U16) (payload : List Byte) : State :=
  { s with
    tx.payload := payload, tx.len := BitVec.ofNat 16 payload.length, tx.index := 0, tx.proto := p
    tx.fcs := 0xFFFF, tx.escPend := false, tx.state := .flag, response := some 0x0001007E, txOut := some 0x7E }

/-- R85, R108: after TX_START the whole body of the frame is to be sent. -/
theorem unsent_txStarted (s : State) (p : U16) (payload : List Byte) :
    (s.txStarted p payload).tx.unsent = frameBody p payload ++ frameFcsBytes p payload := rfl

theorem betweenBytes_txStarted (s : State) (p : U16) {payload : List Byte} (hmax : payload.length ≤ 65535) :
    BetweenBytes (s.txStarted p payload) := by
  refine ⟨⟨nofun, nofun⟩, rfl, ?_⟩
  show payload.length = (BitVec.ofNat 16 payload.length).toNat
  rw [BitVec.toNat_ofNat, Nat.mod_eq_of_lt (by omega)]

/-- Settles O25: TX_START drives the opening flag, the completions drive the escaped body and then the closing flag, and
the last one ends the frame. -/
theorem txSendsEncodedFrame : Obligations.TxSendsEncodedFrame := by
  intro p chain s hst hpos hmax
  have hstart : exec (.txStart p chain) s = .next (s.txStarted p chain.flatten) :=
    txStartBeginsFrame p chain s hst hpos hmax
  obtain ⟨u, hbody, hu, hfcsHi⟩ := (betweenBytes_txStarted s p hmax).runAll_unsent
  rw [unsent_txStarted] at hbody
  have hrun := runAll_cons hstart (runAll_append_eq hbody (hu.runAll_close hfcsHi))
  rw [completions_eq_length_escape, txDrain_add, encodeFrame]
  exact ⟨_, hrun, rfl, rfl, rfl⟩

end Sys2Proof.Machine

namespace Sys2Proof.Machine

/-! ### The ring counts commits and pops (O45) -/

/-- R195: between `s` and `t` the ring has taken `commits` frames in and given `pops` of them out. -/
structure RingMoved (s t : State) (commits pops : Nat) : Prop where
  cfg : t.cfg = s.cfg
  wr : t.ring.wr.toNat = (s.ring.wr.toNat + commits) % s.cfg.nSlots
  rd : t.ring.rd.toNat = (s.ring.rd.toNat + pops) % s.cfg.nSlots
  count : t.ring.count.toNat + pops = s.ring.count.toNat + commits

section RingEvents

variable {s t u : State} {commits pops commits' pops' : Nat}

/-- R26: no commit and no pop leave the ring as it was. -/
theorem ringMoved_of_same_ring (h : Inv s) (hcfg : t.cfg = s.cfg) (hwr : t.ring.wr = s.ring.wr)
    (hrd : t.ring.rd = s.ring.rd) (hcount : t.ring.count = s.ring.count) : RingMoved s t 0 0 where
  cfg := hcfg
  wr := by rw [hwr, Nat.add_zero, Nat.mod_eq_of_lt h.wr_lt]
  rd := by rw [hrd, Nat.add_zero, Nat.mod_eq_of_lt h.head]
  count := by rw [hcount]

/-- R26: advances of an index add up modulo N. -/
theorem RingMoved.trans (hm : RingMoved s u commits pops) (hm' : RingMoved u t commits' pops') :
    RingMoved s t (commits + commits') (pops + pops') where
  cfg := hm'.cfg.trans hm.cfg
  wr := by rw [hm'.wr, hm.cfg, hm.wr, Nat.mod_add_mod, Nat.add_assoc]
  rd := by rw [hm'.rd, hm.cfg, hm.rd, Nat.mod_add_mod, Nat.add_assoc]
  count := by have := hm.count; have := hm'.count; omega

/-- R76: only the event of a commit has the code 0x01. -/
theorem RxEvent.code_eq_commit_iff {ev : RxEvent} : ev.code = 0x01#8 ↔ ∃ i, ev = .commit i := by
  cases ev <;> simp [RxEvent.code]

theorem commitsIn_rxByte (b : Byte) (u : State) (ev : RxEvent) (data : U16) :
    commitsIn (.rxByte b) (reply u .ok ev.code data) = if ev.code = 0x01#8 then 1 else 0 := by
  simp only [commitsIn, reply_response, respond_aux]

theorem popsIn_qPop (u : State) (rc : Rc) (aux : Byte) (data : U16) :
    popsIn .qPop (reply u rc aux data) = if rc.code = 0x0#4 then 1 else 0 := by
  simp only [popsIn, reply_response, respond_rc]

/-- R137: a commit moves `q_wr` on by one and counts the frame. -/
theorem CommitsAtMostOne.ringMoved {ev : RxEvent} (hc : CommitsAtMostOne s u ev) (h : Inv s) (hcfg : u.cfg = s.cfg) :
    RingMoved s u (if ev.code = 0x01#8 then 1 else 0) 0 := by
  obtain ⟨hev, hring, -⟩ | ⟨rfl, hq, n, d, -, hring, -⟩ := hc
  · rw [if_neg fun hcode => (RxEvent.code_eq_commit_iff.1 hcode).elim hev]
    exact ringMoved_of_same_ring h hcfg (by rw [hring]) (by rw [hring]) (by rw [hring])
  · have hN := Config.nSlots_range h.config
    have hlt := h.not_full_iff.1 hq
    rw [if_pos (RxEvent.code_eq_commit_iff.2 ⟨_, rfl⟩)]
    refine ⟨hcfg, ?_, ?_, ?_⟩ <;> rw [hring]
    · exact nextIndex_toNat h.config _
    · exact (Nat.mod_eq_of_lt h.head).symm
    · exact succ_toNat s.ring.count (by omega)

theorem RingMoved.withReply (hm : RingMoved s u commits pops) (rc : Rc) (aux : Byte) (data : U16) :
    RingMoved s (reply u rc aux data) commits pops :=
  ⟨hm.cfg, hm.wr, hm.rd, hm.count⟩

/-- R190: a pop moves `q_rd` on by one and counts the frame off. -/
theorem ringMoved_pop (h : Inv s) (hc : s.ring.count ≠ 0) :
    RingMoved s { s with ring.rd := nextIndex s.cfg s.ring.rd, ring.count := s.ring.count - 1 } 0 1 where
  cfg := rfl
  wr := (Nat.mod_eq_of_lt h.wr_lt).symm
  rd := nextIndex_toNat h.config _
  count := by
    have hpos := ring_count_pos hc
    have hpred := pred_toNat _ hc
    show (s.ring.count - 1).toNat + 1 = s.ring.count.toNat
    omega

/-- R195: every command but RESET moves the ring by the commits and the pops that its answer tells of. -/
theorem ringMoved_exec (h : Inv s) {i : Instr} (hi : i ≠ .reset) (he : exec i s = .next t) :
    RingMoved s t (commitsIn i t) (popsIn i t) := by
  obtain ⟨hcfg, -, hrx, -, -, hrd, hcount, -⟩ := writersOfEachRegister i s t he
  cases i
  case rxByte b =>
    obtain ⟨v, ev, hv, rfl⟩ := execRxByte_next he
    rw [commitsIn_rxByte]
    exact ((rxByte_storage hv).2.ringMoved h hcfg).withReply _ _ _
  case qPop =>
    obtain ⟨-, rfl⟩ | ⟨hc, rfl⟩ := execQPop_next he <;> rw [popsIn_qPop]
    · exact ringMoved_of_same_ring h rfl rfl rfl rfl
    · exact (ringMoved_pop h hc).withReply _ _ _
  case reset => exact absurd rfl hi
  all_goals
    obtain ⟨-, hwr, -⟩ := hrx hi nofun
    exact ringMoved_of_same_ring h hcfg hwr (hrd hi nofun) (hcount hi nofun nofun)

/-- R195: a sequence that completes is its first command and the rest, and the events add up. -/
theorem ringEvents_cons {i : Instr} {is : List Instr} (h : ringEvents (i :: is) s = some (t, commits, pops)) :
    ∃ u commits' pops', exec i s = .next u ∧ ringEvents is u = some (t, commits', pops') ∧
      commits = commitsIn i u + commits' ∧ pops = popsIn i u + pops' := by
  unfold ringEvents at h
  split at h
  case h_1 u hu =>
    split at h
    case h_1 v c p hv => cases h; exact ⟨u, c, p, hu, hv, rfl, rfl⟩
    case h_2 => cases h
  case h_2 => cases h
  case h_3 => cases h

/-- R195: a run without RESET moves the ring by all its commits and all its pops. -/
theorem ringMoved_ringEvents {is : List Instr} (h : Inv s) (hi : ∀ i ∈ is, i ≠ .reset)
    (he : ringEvents is s = some (t, commits, pops)) : RingMoved s t commits pops := by
  induction is generalizing s commits pops with
  | nil => cases he; exact ringMoved_of_same_ring h rfl rfl rfl rfl
  | cons i is ih =>
    obtain ⟨u, c, p, hu, hrest, rfl, rfl⟩ := ringEvents_cons he
    obtain ⟨hhead, htail⟩ := List.forall_mem_cons.1 hi
    exact (ringMoved_exec h hhead hu).trans (ih (exec_keeps_inv h hu) htail hrest)

end RingEvents

/-- Settles O45, by induction over the commands: each moves the ring by the events it answers. -/
theorem ringCountsCommitsAndPops : Obligations.RingCountsCommitsAndPops := by
  intro is s t commits pops h hi he
  have hm := ringMoved_ringEvents h hi he
  exact ⟨hm.wr, hm.rd, hm.count⟩

end Sys2Proof.Machine

namespace Sys2Proof.Machine

/-! ### The ring's commands by their answers (O42, O43, O44) -/

/-- R75: a reply of a result code alone is the refusal the statements speak of. -/
theorem reply_eq_refusedWith (s : State) (rc : Rc) : reply s rc 0 0 = Spec.refusedWith s rc.code := by
  cases rc <;> rfl

/-- R191, R194: the answer that carries a protocol id and its class. -/
theorem respond_protoClass (p : U16) :
    respond .ok (protoClass p).code p =
      (if p = 0x0021 then 0x0001#16 else if p = 0xC021 then 0x0002#16 else 0x0000#16) ++ p := by
  unfold protoClass
  split
  case isTrue => rfl
  case isFalse => split <;> rfl

section ByHead

variable {s : State} {i : U16} {h : SlotHeader} {b : Byte}

/-- R190 to R193: on an empty ring every command of the ring answers RC_EMPTY. -/
theorem exec_ring_empty (hc : s.ring.count = 0) {c : Instr}
    (hi : c = .qPop ∨ c = .qHeadProto ∨ c = .qHeadLen ∨ ∃ k, c = .qHeadByte k) :
    exec c s = .next (Spec.refusedWith s 0x2) := by
  obtain rfl | rfl | rfl | ⟨k, rfl⟩ := hi <;> exact if_pos hc

/-- R190: with a frame committed the head moves on. -/
theorem exec_qPop (hc : s.ring.count ≠ 0) :
    exec .qPop s = .next (reply { s with
      ring.rd := nextIndex s.cfg s.ring.rd, ring.count := s.ring.count - 1 } .ok 0 (zext16 s.ring.rd)) := if_neg hc

variable (hc : s.ring.count ≠ 0) (hh : s.slotHdrs[s.ring.rd.toNat]? = some h)
include hc hh

/-- R191: with a frame committed the head's protocol id is read. -/
theorem exec_qHeadProto : exec .qHeadProto s = .next (reply s .ok (protoClass h.proto).code h.proto) := by
  rw [exec, execQHeadProto, if_neg hc, slotHeader_eq_ok.2 hh]

/-- R192: with a frame committed the head's length is read. -/
theorem exec_qHeadLen : exec .qHeadLen s = .next (Spec.answered s h.len) := by
  rw [exec, execQHeadLen, if_neg hc, slotHeader_eq_ok.2 hh, ← reply_ok_eq_answered]

/-- R193: from `len + 2` on there is no byte. -/
theorem exec_qHeadByte_range (hi : h.len.toNat + 2 ≤ i.toNat) :
    exec (.qHeadByte i) s = .next (Spec.refusedWith s 0x3) := by
  rw [exec, execQHeadByte, if_neg hc, slotHeader_eq_ok.2 hh]
  exact (if_pos hi).trans (by rw [reply_eq_refusedWith]; rfl)

/-- R193: below `len + 2` the byte is read. -/
theorem exec_qHeadByte_read (hi : i.toNat < h.len.toNat + 2) (hb : slotRead s.ring.rd.toNat i.toNat s = .ok b) :
    exec (.qHeadByte i) s = .next (Spec.answered s (0x00#8 ++ b)) := by
  rw [exec, execQHeadByte, if_neg hc, slotHeader_eq_ok.2 hh, hb, ← zext16_eq, ← reply_ok_eq_answered]
  exact if_neg (Nat.not_le.2 hi)

end ByHead

/-- Settles O42: the new head index and the answer are the numbers the statement writes out. -/
theorem qPopResult : Obligations.QPopResult := by
  refine fun s => ⟨fun hc => ?_, fun hc => exec_ring_empty hc (.inl rfl)⟩
  rw [exec_qPop hc, reply, respond_pop, nextIndex]

/-- Settles O43: both commands read the header of the head slot, and the class goes out as its code. -/
theorem headProtoAndLen : Obligations.HeadProtoAndLen := by
  refine fun s h => ⟨fun hc hh => ⟨exec_qHeadLen hc hh, ?_⟩, fun hc => ⟨?_, ?_⟩⟩
  · rw [exec_qHeadProto hc hh, reply, respond_protoClass]
  · exact exec_ring_empty hc (.inr (.inr (.inl rfl)))
  · exact exec_ring_empty hc (.inr (.inl rfl))

/-- Settles O44: EMPTY is tested before RANGE, and RANGE before the byte is read. -/
theorem headByte : Obligations.HeadByte := fun _ _ _ _ =>
  ⟨fun hc => exec_ring_empty hc (.inr (.inr (.inr ⟨_, rfl⟩))), exec_qHeadByte_range, exec_qHeadByte_read⟩

end Sys2Proof.Machine

namespace Sys2Proof.Machine

/-! ### The control unit by its answers (O46, O48, O49, O50) and the invariant at power-on (O51) -/

/-- R210: a REG_READ of a CSR narrower than a `u16` answers its value under a high byte of zeros. -/
theorem exec_regRead_byte (s : State) {r : Csr} {b : Byte} (hr : csrValue s r = zext16 b) :
    exec (.regRead r.number) s = .next (Spec.answered s (0x00#8 ++ b)) := by
  rw [exec_regRead_number, hr, zext16_eq]

/-- R32, R210: there is nothing to read at an unassigned number. -/
theorem exec_regRead_unassigned (s : State) {a : Byte} (ha : 0x0F < a.toNat) :
    exec (.regRead a) s = .next (Spec.refusedWith s 0x3) := by
  rw [exec, execRegRead, csrOf_unassigned a ha, reply_eq_refusedWith, Rc.code]

/-- Settles O46: each assigned number is that of its CSR, whose value is answered; every other number is refused. -/
theorem regReadContents : Obligations.RegReadContents := fun s =>
  ⟨exec_regRead_number s .status, exec_regRead_number s .mtu, exec_regRead_byte s (r := .qCount) rfl,
    exec_regRead_byte s (r := .qRd) rfl, exec_regRead_byte s (r := .qWr) rfl, exec_regRead_number s .ovfCount,
    exec_regRead_number s .rxCount, exec_regRead_number s .rxProto, exec_regRead_number s .rxLimit,
    exec_regRead_number s .txProto, exec_regRead_number s .txFcs, exec_regRead_number s .txIndex,
    exec_regRead_number s .txLen, exec_regRead_byte s (r := .txEscByte) rfl, exec_regRead_number s .mtuMax,
    exec_regRead_number s .nSlots, fun _ => exec_regRead_unassigned s⟩

section RegWrite

variable (v : U16) (s : State) {a : Byte}

/-- R212: an unassigned number is refused before anything else is looked at. -/
theorem exec_regWrite_unassigned (ha : 0x0F < a.toNat) :
    exec (.regWrite a v) s = .next (Spec.refusedWith s 0x3) := by
  rw [exec, execRegWrite, csrOf_unassigned a ha, reply_eq_refusedWith, Rc.code]

/-- R212: a CSR other than `MTU` is refused whatever the value. -/
theorem exec_regWrite_readonly {r : Csr} (ha : csrOf a = some r) (hr : r ≠ .mtu) :
    exec (.regWrite a v) s = .next (Spec.refusedWith s 0x4) := by
  rw [exec, execRegWrite, ha]
  exact (if_pos hr).trans (by rw [reply_eq_refusedWith, Rc.code])

/-- R212, R213: a write of `MTU` looks at the value only. -/
theorem exec_regWrite_mtu : exec (.regWrite 0x01 v) s =
    if v.toNat > s.cfg.mtuMax then .next (Spec.refusedWith s 0x3)
    else .next (Spec.answered { s with mtu := v } 0) := by
  rw [exec, execRegWrite, show csrOf 0x01 = some .mtu from csrOf_number .mtu, ← reply_ok_eq_answered,
    show (0x3 : BitVec 4) = Rc.range.code from rfl, ← reply_eq_refusedWith]
  exact if_neg (not_not.2 rfl)

end RegWrite

/-- Settles O48: the number decides first (unassigned, read-only, `MTU`), and for `MTU` the value decides. -/
theorem regWriteMtuOnly : Obligations.RegWriteMtuOnly := by
  refine fun a v s => ⟨fun hv => ?_, exec_regWrite_unassigned v s, fun ha hm => ?_, fun hv => ?_⟩
  · exact (exec_regWrite_mtu v s).trans (if_neg (Nat.not_lt.2 hv))
  · obtain ⟨r, hr, hmtu⟩ := csrOf_assigned a ha
    exact exec_regWrite_readonly v s hr (mt hmtu.1 hm)
  · exact (exec_regWrite_mtu v s).trans (if_pos hv)

/-- R215: RESET answers 0x00000000 from the power-on state of the parameters and the storage it finds. -/
theorem exec_reset (s : State) : exec .reset s = .next (Spec.answered (resetRegisters s) 0) := by
  rw [exec, execReset, reply_ok_eq_answered]

/-- Settles O49: the power-on values that RESET writes are the literals of R34. -/
theorem resetResult : Obligations.ResetResult := exec_reset

/-- Settles O50: RESET writes the power-on values, and those do not depend on the slot storage. -/
theorem powerOnIsReset : Obligations.PowerOnIsReset := fun s =>
  ⟨_, exec_reset s, rfl, fun _ _ => ⟨rfl, rfl, rfl, rfl, rfl, rfl, rfl⟩⟩

/-- Settles O51: the power-on lemma, which the step proofs also use for RESET. -/
theorem invAtPowerOn : Obligations.InvAtPowerOn := fun _ _ _ => inv_powerOn

end Sys2Proof.Machine

namespace Sys2Proof.Machine

/-! ### The step without a command and the start states it refuses (O7, O8) -/

/-- R246: in an allowed start state with no command the step is the one that does nothing. -/
theorem step_of_pending_nil {s : State} (hs : startOk s = true) (hp : s.pending = []) :
    step s = .next (idleStep s) := by
  simp only [step, hs, hp, if_true]

/-- Settles O7: the step taken is `idleStep`, which clears the two outputs. -/
theorem stepWithoutCommand : Obligations.StepWithoutCommand := fun _ hs hp => step_of_pending_nil hs hp

/-- R238: the bounds an allowed start state keeps. -/
theorem startOk_bounds {s : State} (h : startOk s = true) :
    (s.tx.escPend = true → s.tx.state ≠ .idle ∧ s.tx.state ≠ .closingFlag) ∧
      s.ring.count.toNat ≤ s.cfg.nSlots ∧ s.ring.rd.toNat < s.cfg.nSlots ∧ s.ring.wr.toNat < s.cfg.nSlots ∧
      s.rx.count.toNat ≤ s.rx.limit.toNat + 2 := by
  simp only [startOk, Bool.and_eq_true, decide_eq_true_eq] at h
  obtain ⟨⟨⟨⟨⟨-, hesc⟩, hcount⟩, hrd⟩, hwr⟩, hrx⟩ := h
  exact ⟨fun he => by simpa [he] using hesc, hcount, hrd, hwr, hrx⟩

/-- Settles O8: each value of R238 breaks one of the bounds of an allowed start state. -/
theorem stepRefusesUnreachableStart : Obligations.StepRefusesUnreachableStart := by
  intro s hbad
  refine if_neg fun hs => ?_
  obtain ⟨hesc, hcount, hrd, hwr, hrx⟩ := startOk_bounds hs
  obtain ⟨hp, hst⟩ | hlt | hlt | hlt | hlt := hbad
  · obtain ⟨hidle, hclosing⟩ := hesc hp
    exact hst.elim hidle hclosing
  all_goals omega

/-! ### Every command completes (O53) -/

/-- Settles O53: the command completes in a state of the invariant, and a command that completes answers a word. -/
theorem everyCommandCompletes : Obligations.EveryCommandCompletes := by
  intro i s h
  obtain ⟨t, ht, -⟩ := h.exec_completes i
  obtain ⟨rc, aux, data, hw⟩ := exec_response ht
  exact ⟨t, _, ht, hw⟩

/-! ### The result codes of R232 (O57) -/

/-- R232: the result codes each command can return. -/
def resultCodesOf : Instr → List Rc
  | .rxByte _ => [.ok]
  | .txDone => [.ok]
  | .txStart _ _ => [.ok, .busy, .range]
  | .qPop => [.ok, .empty]
  | .qHeadProto => [.ok, .empty]
  | .qHeadLen => [.ok, .empty]
  | .qHeadByte _ => [.ok, .empty, .range]
  | .regRead _ => [.ok, .range]
  | .regWrite _ _ => [.ok, .range, .readonly]
  | .crcSeed => [.ok]
  | .crcUpdate _ _ => [.ok]
  | .crcFinal _ => [.ok]
  | .reset => [.ok]

/-- R75, R232: `t` answers one of the codes `rcs`, and with a code other than RC_OK it is `s` but for the answer. -/
def AnswersOneOf (rcs : List Rc) (s t : State) : Prop :=
  ∃ rc ∈ rcs, ∃ aux data, t.response = some (respond rc aux data) ∧ (rc ≠ .ok → t = reply s rc aux data)

section AnswersOneOf

variable {rcs : List Rc} {s t : State}

/-- R74: an answer RC_OK leaves the state free. -/
theorem AnswersOneOf.accepted {aux : Byte} {data : U16} (hw : t.response = some (respond .ok aux data))
    (hrc : .ok ∈ rcs := by simp [resultCodesOf]) : AnswersOneOf rcs s t :=
  ⟨.ok, hrc, aux, data, hw, fun h => absurd rfl h⟩

/-- R75: a refusal is a reply of the code alone. -/
theorem AnswersOneOf.refused {rc : Rc} (hrc : rc ∈ rcs := by simp [resultCodesOf]) :
    AnswersOneOf rcs s (reply s rc 0 0) :=
  ⟨rc, hrc, 0, 0, rfl, fun _ => rfl⟩

/-- R75, R232: a command that completes answers one of its codes, and a refusal changes nothing. -/
theorem exec_answersOneOf {i : Instr} (h : exec i s = .next t) : AnswersOneOf (resultCodesOf i) s t := by
  cases i with
  | rxByte b =>
    obtain ⟨u, ev, -, rfl⟩ := execRxByte_next h
    exact .accepted rfl
  | txDone =>
    obtain ⟨ev, data, hw⟩ := execTxDone_response h
    exact .accepted hw
  | txStart p chain =>
    obtain ⟨-, rfl⟩ | ⟨-, -, rfl⟩ | ⟨-, -, -, rfl⟩ := execTxStart_next h
    · exact .refused
    · exact .refused
    · exact .accepted rfl
  | qPop =>
    obtain ⟨-, rfl⟩ | ⟨-, rfl⟩ := execQPop_next h
    · exact .refused
    · exact .accepted rfl
  | qHeadProto =>
    obtain ⟨-, rfl⟩ | ⟨-, hd, -, rfl⟩ := execQHeadProto_next h
    · exact .refused
    · exact .accepted rfl
  | qHeadLen =>
    obtain ⟨-, rfl⟩ | ⟨-, hd, -, rfl⟩ := execQHeadLen_next h
    · exact .refused
    · exact .accepted rfl
  | qHeadByte k =>
    obtain ⟨-, rfl⟩ | ⟨-, hd, -, ⟨-, rfl⟩ | ⟨-, b, -, rfl⟩⟩ := execQHeadByte_next h
    · exact .refused
    · exact .refused
    · exact .accepted rfl
  | regRead a =>
    obtain ⟨-, rfl⟩ | ⟨r, -, rfl⟩ := execRegRead_next h
    · exact .refused
    · exact .accepted rfl
  | regWrite a v =>
    obtain ⟨rc, hrc, rfl⟩ | ⟨-, -, rfl⟩ := execRegWrite_next h
    · exact .refused (by simpa [resultCodesOf] using .inr hrc)
    · exact .accepted rfl
  | crcSeed | crcUpdate c b | crcFinal c | reset =>
    cases h
    exact .accepted rfl

end AnswersOneOf

/-- Settles O57: the code stands in the top bits of the word, and the codes listed are those of `resultCodesOf`. -/
theorem resultCodes : Obligations.ResultCodes := by
  intro i s t h
  obtain ⟨rc, hmem, aux, data, hw, hrefused⟩ := exec_answersOneOf h
  refine ⟨_, hw, fun hne => ?_, ?_⟩
  · rw [respond_rc] at hne
    exact hrefused fun hok => hne (by rw [hok]; rfl)
  · rw [respond_rc]
    have hcode : rc.code ∈ (resultCodesOf i).map Rc.code := List.mem_map_of_mem hmem
    cases i <;> exact hcode

/-! ### RX_BYTE commutes with the transmitter's and the CRC commands (O40) -/

/-- R105, R111, R174: the commands that read no register but the transmitter's. -/
def ReadsTxAlone (i : Instr) : Prop :=
  i = .txDone ∨ (∃ p chain, i = .txStart p chain) ∨ i = .crcSeed ∨ (∃ c x, i = .crcUpdate c x) ∨ ∃ c, i = .crcFinal c

/-- R111, R174: from any state with the same transmitter such a command leaves the same transmitter and answers and
drives the same, and the other registers stay. -/
theorem ReadsTxAlone.exec_of_same_tx {i : Instr} (hi : ReadsTxAlone i) {s s' t : State} (hx : s'.tx = s.tx)
    (h : exec i s = .next t) : exec i s' = .next (s'.withTxPart t.tx t.response t.txOut) := by
  obtain rfl | ⟨p, chain, rfl⟩ | rfl | ⟨c, x, rfl⟩ | ⟨c, rfl⟩ := hi
  · exact execTxDone_of_same_tx hx h
  · exact execTxStart_of_same_tx hx h
  all_goals
    cases h
    rw [reply_tx, ← hx]
    rfl

/-- R141: RX_BYTE keeps the transmitter. -/
theorem rxByte_tx {b : Byte} {s u : State} {ev : RxEvent} (h : rxByte b s = .ok (u, ev)) : u.tx = s.tx := by
  have hf := rxByte_frame h
  unfold RxFrame at hf
  rw [hf]

/-- R141: over another transmitter and other outputs RX_BYTE does and answers the same. -/
theorem exec_rxByte_withTxPart {b : Byte} {s u : State} {ev : RxEvent} (h : rxByte b s = .ok (u, ev))
    (x : Transmitter) (w : Option Word) (o : Option Byte) :
    exec (.rxByte b) (s.withTxPart x w o) = .next (reply (u.withTxPart x w o) .ok ev.code ev.data) :=
  exec_rxByte (by rw [rxByte_withTxPart, h]; rfl)

/-- Settles O40: the other command does on `s` what it does after the RX_BYTE, since the transmitter is the same, and
the RX_BYTE does after it what it does on `s`, since it does not look at the transmitter. -/
theorem rxCommutesWithTxAndCrc : Obligations.RxCommutesWithTxAndCrc := by
  intro b i s t u hi ht hu
  replace hi : ReadsTxAlone i := hi
  obtain ⟨v, ev, hv, rfl⟩ := execRxByte_next ht
  have hfirst : exec i s = .next (s.withTxPart u.tx u.response u.txOut) :=
    hi.exec_of_same_tx (s := reply v .ok ev.code ev.data) (rxByte_tx hv).symm hu
  have hsecond := exec_rxByte_withTxPart hv u.tx u.response u.txOut
  have hframe : u = (reply v .ok ev.code ev.data).withTxPart u.tx u.response u.txOut :=
    Host.Outcome.next.inj (hu.symm.trans (hi.exec_of_same_tx rfl hu))
  refine ⟨_, _, hfirst, hsecond, rfl, rfl, rfl, rfl, ?_⟩
  rw [hframe]
  rfl

end Sys2Proof.Machine
